-- ==== Sys2Proof/Word.lean ====
section
/-! DEFINITION. The words of the hardware: names for the widths the spec uses (00_scope.md R7, R8, R12). -/

namespace Sys2Proof

/-- A byte, an unsigned 8-bit value (00_scope.md R12). -/
abbrev Byte := BitVec 8

/-- A 4-bit field: OP, N, STATUS, NB (30_encoding.md R58, R59) and FAM (10_state.md R28). -/
abbrev Nibble := BitVec 4

/-- A 32-bit length or VALUE (30_encoding.md R58, R59). -/
abbrev Word32 := BitVec 32

/-- A lane, an unsigned 64-bit word (00_scope.md R7). -/
abbrev Lane := BitVec 64

/-- The 25-lane vector: lane (x, y) is at index x + 5y (00_scope.md R14). -/
abbrev Lanes := Vector Lane 25

/-- The staging buffer, 200 bytes (10_state.md R26). -/
abbrev Buffer := Vector Byte 200

/-- A command or response word, 128 bits (30_encoding.md R58, R59). -/
abbrev Word128 := BitVec 128

/-- A KP state bus, 1600 bits (20_memory.md R44). -/
abbrev Bus := BitVec 1600

end Sys2Proof
end

