-- ==== Sys2Proof/Config.lean ====
section
/-! DEFINITION. What the hardware fixes once for all (00_scope.md R7, R8) and the two rule levels of R19.
The two open parameters KP_LATENCY and SF_STEP_CYCLES (R9) are no constants here: the agenda of input pins plays
them (notes/assumptions/9.md). No result of any command is undefined, so there is no free value. -/

namespace Sys2Proof

/-- Rounds of the permutation (00_scope.md R7). -/
def Config.rounds : Nat := 24

/-- Bytes of the state, of the staging buffer, and the largest legal RATE (00_scope.md R7). -/
def Config.stateBytes : Nat := 200

/-- Most message bytes of one ABSORB and most output bytes of one response word (00_scope.md R8). -/
def Config.beatBytes : Nat := 8

/-- The two levels of 00_scope.md R19: whether SF's KP work is one step (R94, R139) or taken clock edge by clock
edge (43_sponge_fsm.md R134, R135). -/
inductive RuleLevel where
  | transaction
  | cycle
  deriving DecidableEq, Repr

end Sys2Proof
end

