-- ==== Sys2Proof/Syntax.lean ====
section
/-! DEFINITION. The instructions: one constructor for each row of spec/opcode_table.json. An operand is a field the
command reads (30_encoding.md R61 to R64); a field it ignores (R65) is no operand. -/

namespace Sys2Proof

/-- The 62 command encodings of SF and the PERMUTE transaction of KP. -/
inductive Instr where
  /-- OP 0x0 (42_commands.md R115). -/
  | nop
  /-- OP 0x1, FC 0x0 (42_commands.md R116). -/
  | configSha3_224
  /-- OP 0x1, FC 0x1 (42_commands.md R116). -/
  | configSha3_256
  /-- OP 0x1, FC 0x2 (42_commands.md R116). -/
  | configSha3_384
  /-- OP 0x1, FC 0x3 (42_commands.md R116). -/
  | configSha3_512
  /-- OP 0x1, FC 0x4 (42_commands.md R116). -/
  | configKeccak_224
  /-- OP 0x1, FC 0x5 (42_commands.md R116). -/
  | configKeccak_256
  /-- OP 0x1, FC 0x6 (42_commands.md R116). -/
  | configKeccak_384
  /-- OP 0x1, FC 0x7 (42_commands.md R116). -/
  | configKeccak_512
  /-- OP 0x1, FC 0x8, default output length `len` (42_commands.md R116). -/
  | configShake128 (len : Word32)
  /-- OP 0x1, FC 0x9, default output length `len` (42_commands.md R116). -/
  | configShake256 (len : Word32)
  /-- OP 0x1, FC 0xE (42_commands.md R117). -/
  | configCustomFixed (rate suffix : Byte) (len : Word32)
  /-- OP 0x1, FC 0xF (42_commands.md R118). -/
  | configCustomXof (rate suffix : Byte) (len : Word32)
  /-- OP 0x1, reserved FC 0xA (42_commands.md R119). -/
  | configReservedA
  /-- OP 0x1, reserved FC 0xB (42_commands.md R119). -/
  | configReservedB
  /-- OP 0x1, reserved FC 0xC (42_commands.md R119). -/
  | configReservedC
  /-- OP 0x1, reserved FC 0xD (42_commands.md R119). -/
  | configReservedD
  /-- OP 0x2, N 0 (42_commands.md R120): DATA is ignored. -/
  | absorb0
  /-- OP 0x2, N 1 (42_commands.md R120): message bytes 0..0 of DATA. -/
  | absorb1 (data : Lane)
  /-- OP 0x2, N 2 (42_commands.md R120): message bytes 0..1 of DATA. -/
  | absorb2 (data : Lane)
  /-- OP 0x2, N 3 (42_commands.md R120): message bytes 0..2 of DATA. -/
  | absorb3 (data : Lane)
  /-- OP 0x2, N 4 (42_commands.md R120): message bytes 0..3 of DATA. -/
  | absorb4 (data : Lane)
  /-- OP 0x2, N 5 (42_commands.md R120): message bytes 0..4 of DATA. -/
  | absorb5 (data : Lane)
  /-- OP 0x2, N 6 (42_commands.md R120): message bytes 0..5 of DATA. -/
  | absorb6 (data : Lane)
  /-- OP 0x2, N 7 (42_commands.md R120): message bytes 0..6 of DATA. -/
  | absorb7 (data : Lane)
  /-- OP 0x2, N 8 (42_commands.md R120): message bytes 0..7 of DATA. -/
  | absorb8 (data : Lane)
  /-- OP 0x2, N 9 (60_exceptions.md R149). -/
  | absorbBad9
  /-- OP 0x2, N 10 (60_exceptions.md R149). -/
  | absorbBad10
  /-- OP 0x2, N 11 (60_exceptions.md R149). -/
  | absorbBad11
  /-- OP 0x2, N 12 (60_exceptions.md R149). -/
  | absorbBad12
  /-- OP 0x2, N 13 (60_exceptions.md R149). -/
  | absorbBad13
  /-- OP 0x2, N 14 (60_exceptions.md R149). -/
  | absorbBad14
  /-- OP 0x2, N 15 (60_exceptions.md R149). -/
  | absorbBad15
  /-- OP 0x3, USE_LEN 0 (42_commands.md R121, R122). -/
  | finalize
  /-- OP 0x3, USE_LEN 1 (42_commands.md R121, R122). -/
  | finalizeLen (len : Word32)
  /-- OP 0x4 (42_commands.md R124). -/
  | reset
  /-- OP 0x5, SEL 0x0 (42_commands.md R125). -/
  | queryBsize
  /-- OP 0x5, SEL 0x1 (42_commands.md R126). -/
  | queryOsize
  /-- OP 0x5, SEL 0x2 (42_commands.md R127). -/
  | queryStatus
  /-- OP 0x5, SEL 0x3 (42_commands.md R128). -/
  | querySuffix
  /-- OP 0x5, SEL 0x4 (42_commands.md R129). -/
  | queryBad4
  /-- OP 0x5, SEL 0x5 (42_commands.md R129). -/
  | queryBad5
  /-- OP 0x5, SEL 0x6 (42_commands.md R129). -/
  | queryBad6
  /-- OP 0x5, SEL 0x7 (42_commands.md R129). -/
  | queryBad7
  /-- OP 0x5, SEL 0x8 (42_commands.md R129). -/
  | queryBad8
  /-- OP 0x5, SEL 0x9 (42_commands.md R129). -/
  | queryBad9
  /-- OP 0x5, SEL 0xA (42_commands.md R129). -/
  | queryBadA
  /-- OP 0x5, SEL 0xB (42_commands.md R129). -/
  | queryBadB
  /-- OP 0x5, SEL 0xC (42_commands.md R129). -/
  | queryBadC
  /-- OP 0x5, SEL 0xD (42_commands.md R129). -/
  | queryBadD
  /-- OP 0x5, SEL 0xE (42_commands.md R129). -/
  | queryBadE
  /-- OP 0x5, SEL 0xF (42_commands.md R129). -/
  | queryBadF
  /-- OP 0x6 (42_commands.md R130). -/
  | illegalOp6
  /-- OP 0x7 (42_commands.md R130). -/
  | illegalOp7
  /-- OP 0x8 (42_commands.md R130). -/
  | illegalOp8
  /-- OP 0x9 (42_commands.md R130). -/
  | illegalOp9
  /-- OP 0xA (42_commands.md R130). -/
  | illegalOpA
  /-- OP 0xB (42_commands.md R130). -/
  | illegalOpB
  /-- OP 0xC (42_commands.md R130). -/
  | illegalOpC
  /-- OP 0xD (42_commands.md R130). -/
  | illegalOpD
  /-- OP 0xE (42_commands.md R130). -/
  | illegalOpE
  /-- OP 0xF (42_commands.md R130). -/
  | illegalOpF
  /-- The KP input handshake with `p_in_state` = `bus` (40_permutation.md R92). -/
  | permute (bus : Bus)
  deriving DecidableEq, Repr

end Sys2Proof
end

