-- ==== Sys2Proof/WellFormed.lean ====
section
/-! DEFINITION. Well-formed instructions: an ABSORB of n bytes holds no DATA byte j ≥ n, since the command ignores
those (30_encoding.md R62) and the decoder drops them. Every value of every other operand is encodable. -/

namespace Sys2Proof

/-- DATA holds nothing at byte n or above. -/
def dataFits (n : Nat) (data : Lane) : Bool := data.toNat < 2 ^ (8 * n)

/-- The check each instruction passes. -/
def Instr.wellFormed : Instr → Bool
  | .nop => true
  | .configSha3_224 => true
  | .configSha3_256 => true
  | .configSha3_384 => true
  | .configSha3_512 => true
  | .configKeccak_224 => true
  | .configKeccak_256 => true
  | .configKeccak_384 => true
  | .configKeccak_512 => true
  | .configShake128 _ => true
  | .configShake256 _ => true
  | .configCustomFixed _ _ _ => true
  | .configCustomXof _ _ _ => true
  | .configReservedA => true
  | .configReservedB => true
  | .configReservedC => true
  | .configReservedD => true
  | .absorb0 => true
  | .absorb1 data => dataFits 1 data
  | .absorb2 data => dataFits 2 data
  | .absorb3 data => dataFits 3 data
  | .absorb4 data => dataFits 4 data
  | .absorb5 data => dataFits 5 data
  | .absorb6 data => dataFits 6 data
  | .absorb7 data => dataFits 7 data
  | .absorb8 data => dataFits 8 data
  | .absorbBad9 => true
  | .absorbBad10 => true
  | .absorbBad11 => true
  | .absorbBad12 => true
  | .absorbBad13 => true
  | .absorbBad14 => true
  | .absorbBad15 => true
  | .finalize => true
  | .finalizeLen _ => true
  | .reset => true
  | .queryBsize => true
  | .queryOsize => true
  | .queryStatus => true
  | .querySuffix => true
  | .queryBad4 => true
  | .queryBad5 => true
  | .queryBad6 => true
  | .queryBad7 => true
  | .queryBad8 => true
  | .queryBad9 => true
  | .queryBadA => true
  | .queryBadB => true
  | .queryBadC => true
  | .queryBadD => true
  | .queryBadE => true
  | .queryBadF => true
  | .illegalOp6 => true
  | .illegalOp7 => true
  | .illegalOp8 => true
  | .illegalOp9 => true
  | .illegalOpA => true
  | .illegalOpB => true
  | .illegalOpC => true
  | .illegalOpD => true
  | .illegalOpE => true
  | .illegalOpF => true
  | .permute _ => true

end Sys2Proof
end

