-- ==== Sys2Proof/Decode.lean ====
section
/-! DEFINITION. Decoding and encoding (30_encoding.md sections 2 to 7). A packet is what one interface transfers in
one handshake: a 128-bit command word (R58) or KP's 1600-bit input bus (20_memory.md R44). Every 128-bit word is a
command, legal or illegal, so `decodePacket` is total (R74); `decode` reads bytes and rejects by name the lengths that
are neither. -/

namespace Sys2Proof

/-! ### Fields of a command word (30_encoding.md R58) -/

/-- Bits 3:0, the opcode. -/
def cmdOp (w : Word128) : Nibble := w.extractLsb' 0 4

/-- Bits 7:4, the opcode-specific field N. -/
def cmdN (w : Word128) : Nibble := w.extractLsb' 4 4

/-- Bits 15:8, the custom rate. -/
def cmdRate (w : Word128) : Byte := w.extractLsb' 8 8

/-- Bits 23:16, the custom suffix. -/
def cmdSufx (w : Word128) : Byte := w.extractLsb' 16 8

/-- Bits 31:24, reserved. -/
def cmdRsvd (w : Word128) : Byte := w.extractLsb' 24 8

/-- Bits 63:32, the length. -/
def cmdLen (w : Word128) : Word32 := w.extractLsb' 32 32

/-- Bits 127:64, the message bytes. -/
def cmdData (w : Word128) : Lane := w.extractLsb' 64 64

/-- The command word with these fields and RSVD 0. -/
def commandWord (op n : Nibble) (rate sufx : Byte) (len : Word32) (data : Lane) : Word128 :=
  data ++ len ++ (0 : Byte) ++ sufx ++ rate ++ n ++ op

/-- The low `n` bytes of DATA, the ones an ABSORB of `n` bytes reads (30_encoding.md R62). -/
def keepBytes (n : Nat) (data : Lane) : Lane := (data.setWidth (8 * n)).setWidth 64

/-! ### Decoding: the last arm of each match is 15, the one value left of a 4-bit field -/

/-- CONFIG by its family code (30_encoding.md R66 to R68). -/
def decodeConfig (w : Word128) : Instr :=
  match (cmdN w).toNat with
  | 0 => .configSha3_224
  | 1 => .configSha3_256
  | 2 => .configSha3_384
  | 3 => .configSha3_512
  | 4 => .configKeccak_224
  | 5 => .configKeccak_256
  | 6 => .configKeccak_384
  | 7 => .configKeccak_512
  | 8 => .configShake128 (cmdLen w)
  | 9 => .configShake256 (cmdLen w)
  | 10 => .configReservedA
  | 11 => .configReservedB
  | 12 => .configReservedC
  | 13 => .configReservedD
  | 14 => .configCustomFixed (cmdRate w) (cmdSufx w) (cmdLen w)
  | _ => .configCustomXof (cmdRate w) (cmdSufx w) (cmdLen w)

/-- ABSORB by its byte count (30_encoding.md R61, R62). -/
def decodeAbsorb (w : Word128) : Instr :=
  match (cmdN w).toNat with
  | 0 => .absorb0
  | 1 => .absorb1 (keepBytes 1 (cmdData w))
  | 2 => .absorb2 (keepBytes 2 (cmdData w))
  | 3 => .absorb3 (keepBytes 3 (cmdData w))
  | 4 => .absorb4 (keepBytes 4 (cmdData w))
  | 5 => .absorb5 (keepBytes 5 (cmdData w))
  | 6 => .absorb6 (keepBytes 6 (cmdData w))
  | 7 => .absorb7 (keepBytes 7 (cmdData w))
  | 8 => .absorb8 (keepBytes 8 (cmdData w))
  | 9 => .absorbBad9
  | 10 => .absorbBad10
  | 11 => .absorbBad11
  | 12 => .absorbBad12
  | 13 => .absorbBad13
  | 14 => .absorbBad14
  | _ => .absorbBad15

/-- FINALIZE by USE_LEN = N[0]; N[3:1] are ignored (30_encoding.md R69). -/
def decodeFinalize (w : Word128) : Instr :=
  match (cmdN w).getLsbD 0 with
  | false => .finalize
  | true => .finalizeLen (cmdLen w)

/-- QUERY by its selector (30_encoding.md R70). -/
def decodeQuery (w : Word128) : Instr :=
  match (cmdN w).toNat with
  | 0 => .queryBsize
  | 1 => .queryOsize
  | 2 => .queryStatus
  | 3 => .querySuffix
  | 4 => .queryBad4
  | 5 => .queryBad5
  | 6 => .queryBad6
  | 7 => .queryBad7
  | 8 => .queryBad8
  | 9 => .queryBad9
  | 10 => .queryBadA
  | 11 => .queryBadB
  | 12 => .queryBadC
  | 13 => .queryBadD
  | 14 => .queryBadE
  | _ => .queryBadF

/-- A command word's instruction, by OP (30_encoding.md R60, R74). -/
def decodeCommand (w : Word128) : Instr :=
  match (cmdOp w).toNat with
  | 0 => .nop
  | 1 => decodeConfig w
  | 2 => decodeAbsorb w
  | 3 => decodeFinalize w
  | 4 => .reset
  | 5 => decodeQuery w
  | 6 => .illegalOp6
  | 7 => .illegalOp7
  | 8 => .illegalOp8
  | 9 => .illegalOp9
  | 10 => .illegalOpA
  | 11 => .illegalOpB
  | 12 => .illegalOpC
  | 13 => .illegalOpD
  | 14 => .illegalOpE
  | _ => .illegalOpF

/-- What one handshake transfers. -/
inductive Packet where
  /-- A word on SF's command interface (30_encoding.md R57, R58). -/
  | command (w : Word128)
  /-- A state on KP's input bus (40_permutation.md R91, R92). -/
  | kpInput (bus : Bus)
  deriving DecidableEq, Repr

/-- The instruction a packet stands for. -/
def decodePacket : Packet → Instr
  | .command w => decodeCommand w
  | .kpInput bus => .permute bus

/-! ### Bytes: byte k is bits 8k+7:8k (20_memory.md R44; for a command word, notes/assumptions/5.md) -/

/-- The `n` bytes of a number, lowest first. -/
def natBytes : Nat → Nat → List Byte
  | 0, _ => []
  | n + 1, v => BitVec.ofNat 8 v :: natBytes n (v / 256)

/-- The number whose bytes these are, lowest first. -/
def bytesNat : List Byte → Nat
  | [] => 0
  | b :: bs => b.toNat + 256 * bytesNat bs

/-- Why bytes are no packet. -/
inductive DecodeError where
  /-- Neither 16 bytes (a command word) nor 200 (a KP bus). -/
  | badLength (n : Nat)
  deriving DecidableEq, Repr

/-- The packet bytes hold. -/
def packetOfBytes (bs : List Byte) : Except DecodeError Packet :=
  if bs.length = 16 then .ok (.command (BitVec.ofNat 128 (bytesNat bs)))
  else if bs.length = 200 then .ok (.kpInput (BitVec.ofNat 1600 (bytesNat bs)))
  else .error (.badLength bs.length)

/-- A packet's bytes. -/
def packetBytes : Packet → List Byte
  | .command w => natBytes 16 w.toNat
  | .kpInput bus => natBytes 200 bus.toNat

/-- The instruction bytes hold, or why there is none. -/
def decode (bs : List Byte) : Except DecodeError Instr :=
  match packetOfBytes bs with
  | .ok p => .ok (decodePacket p)
  | .error e => .error e

/-! ### Encoding -/

/-- The packet of an instruction, every ignored field 0 (30_encoding.md R76). -/
def encodePacket : Instr → Packet
  | .nop => .command (commandWord 0x0 0x0 0 0 0 0)
  | .configSha3_224 => .command (commandWord 0x1 0x0 0 0 0 0)
  | .configSha3_256 => .command (commandWord 0x1 0x1 0 0 0 0)
  | .configSha3_384 => .command (commandWord 0x1 0x2 0 0 0 0)
  | .configSha3_512 => .command (commandWord 0x1 0x3 0 0 0 0)
  | .configKeccak_224 => .command (commandWord 0x1 0x4 0 0 0 0)
  | .configKeccak_256 => .command (commandWord 0x1 0x5 0 0 0 0)
  | .configKeccak_384 => .command (commandWord 0x1 0x6 0 0 0 0)
  | .configKeccak_512 => .command (commandWord 0x1 0x7 0 0 0 0)
  | .configShake128 len => .command (commandWord 0x1 0x8 0 0 len 0)
  | .configShake256 len => .command (commandWord 0x1 0x9 0 0 len 0)
  | .configCustomFixed rate suffix len => .command (commandWord 0x1 0xe rate suffix len 0)
  | .configCustomXof rate suffix len => .command (commandWord 0x1 0xf rate suffix len 0)
  | .configReservedA => .command (commandWord 0x1 0xa 0 0 0 0)
  | .configReservedB => .command (commandWord 0x1 0xb 0 0 0 0)
  | .configReservedC => .command (commandWord 0x1 0xc 0 0 0 0)
  | .configReservedD => .command (commandWord 0x1 0xd 0 0 0 0)
  | .absorb0 => .command (commandWord 0x2 0x0 0 0 0 0)
  | .absorb1 data => .command (commandWord 0x2 0x1 0 0 0 data)
  | .absorb2 data => .command (commandWord 0x2 0x2 0 0 0 data)
  | .absorb3 data => .command (commandWord 0x2 0x3 0 0 0 data)
  | .absorb4 data => .command (commandWord 0x2 0x4 0 0 0 data)
  | .absorb5 data => .command (commandWord 0x2 0x5 0 0 0 data)
  | .absorb6 data => .command (commandWord 0x2 0x6 0 0 0 data)
  | .absorb7 data => .command (commandWord 0x2 0x7 0 0 0 data)
  | .absorb8 data => .command (commandWord 0x2 0x8 0 0 0 data)
  | .absorbBad9 => .command (commandWord 0x2 0x9 0 0 0 0)
  | .absorbBad10 => .command (commandWord 0x2 0xa 0 0 0 0)
  | .absorbBad11 => .command (commandWord 0x2 0xb 0 0 0 0)
  | .absorbBad12 => .command (commandWord 0x2 0xc 0 0 0 0)
  | .absorbBad13 => .command (commandWord 0x2 0xd 0 0 0 0)
  | .absorbBad14 => .command (commandWord 0x2 0xe 0 0 0 0)
  | .absorbBad15 => .command (commandWord 0x2 0xf 0 0 0 0)
  | .finalize => .command (commandWord 0x3 0x0 0 0 0 0)
  | .finalizeLen len => .command (commandWord 0x3 0x1 0 0 len 0)
  | .reset => .command (commandWord 0x4 0x0 0 0 0 0)
  | .queryBsize => .command (commandWord 0x5 0x0 0 0 0 0)
  | .queryOsize => .command (commandWord 0x5 0x1 0 0 0 0)
  | .queryStatus => .command (commandWord 0x5 0x2 0 0 0 0)
  | .querySuffix => .command (commandWord 0x5 0x3 0 0 0 0)
  | .queryBad4 => .command (commandWord 0x5 0x4 0 0 0 0)
  | .queryBad5 => .command (commandWord 0x5 0x5 0 0 0 0)
  | .queryBad6 => .command (commandWord 0x5 0x6 0 0 0 0)
  | .queryBad7 => .command (commandWord 0x5 0x7 0 0 0 0)
  | .queryBad8 => .command (commandWord 0x5 0x8 0 0 0 0)
  | .queryBad9 => .command (commandWord 0x5 0x9 0 0 0 0)
  | .queryBadA => .command (commandWord 0x5 0xa 0 0 0 0)
  | .queryBadB => .command (commandWord 0x5 0xb 0 0 0 0)
  | .queryBadC => .command (commandWord 0x5 0xc 0 0 0 0)
  | .queryBadD => .command (commandWord 0x5 0xd 0 0 0 0)
  | .queryBadE => .command (commandWord 0x5 0xe 0 0 0 0)
  | .queryBadF => .command (commandWord 0x5 0xf 0 0 0 0)
  | .illegalOp6 => .command (commandWord 0x6 0x0 0 0 0 0)
  | .illegalOp7 => .command (commandWord 0x7 0x0 0 0 0 0)
  | .illegalOp8 => .command (commandWord 0x8 0x0 0 0 0 0)
  | .illegalOp9 => .command (commandWord 0x9 0x0 0 0 0 0)
  | .illegalOpA => .command (commandWord 0xa 0x0 0 0 0 0)
  | .illegalOpB => .command (commandWord 0xb 0x0 0 0 0 0)
  | .illegalOpC => .command (commandWord 0xc 0x0 0 0 0 0)
  | .illegalOpD => .command (commandWord 0xd 0x0 0 0 0 0)
  | .illegalOpE => .command (commandWord 0xe 0x0 0 0 0 0)
  | .illegalOpF => .command (commandWord 0xf 0x0 0 0 0 0)
  | .permute bus => .kpInput bus

/-- The bytes of an instruction. -/
def encode (i : Instr) : List Byte := packetBytes (encodePacket i)

/-! ### The host's numbering of spec/opcode_table.json -/

/-- What the decoder reads from an instruction whose bits, bit 0 first, are `w`: 1 to 128 bits are a command word,
more, or none as the table gives PERMUTE, a KP bus; the bits from `nbits` up are 0 (notes/assumptions/3.md). -/
def decodeTableWord (nbits w : Nat) : Option Instr :=
  (decode (natBytes (if nbits = 0 then 200 else if nbits ≤ 128 then 16 else if nbits ≤ 1600 then 200 else 0)
    (w % 2 ^ nbits))).toOption

end Sys2Proof
end

