-- ==== Sys2Proof/Machine/State.lean ====
section
/-! DEFINITION. The state of the machine (10_state.md), the pins that drive it, and the reasons a step can stop.
INVENTORY.md section State lists every field. -/

namespace Sys2Proof.Machine

/-- KPH, the phase of a KP (10_state.md R24). -/
inductive KpPhase where
  | idle
  | run
  | done
  deriving DecidableEq, Repr

/-- The registers of one KP (10_state.md R22 to R24). -/
structure Kp where
  /-- KA, the round register. -/
  ka : Lanes
  /-- KRND, the index of the round the next RUN edge applies. -/
  krnd : BitVec 5
  /-- KPH. -/
  kph : KpPhase
  deriving DecidableEq, Repr

/-- PH, the phase of SF (10_state.md R33). -/
inductive SfPhase where
  | idle
  | exec
  | waitKp
  | rsp
  deriving DecidableEq, Repr

/-- The input pins of the unit SF with its KP during one clock cycle (43_sponge_fsm.md R131). `stall` and `rounds`
are the model's own: whether EXEC makes no progress at this edge, and how many rounds SF's KP applies at it while in RUN
(notes/assumptions/9.md). -/
structure SfPins where
  rst : Bool
  cmdValid : Bool
  cmdWord : Word128
  rspReady : Bool
  stall : Bool
  rounds : Nat
  deriving DecidableEq, Repr

/-- The input pins of a stand-alone KP during one clock cycle (40_permutation.md R91). `rounds` is the model's own:
how many rounds the KP applies at this edge while in RUN (notes/assumptions/9.md). -/
structure KpPins where
  rst : Bool
  pInValid : Bool
  pInState : Bus
  pOutReady : Bool
  rounds : Nat
  deriving DecidableEq, Repr

/-- One rising clock edge of one of the two units, with its pins (notes/assumptions/2.md). -/
inductive Input where
  | sf (p : SfPins)
  | kp (p : KpPins)
  deriving DecidableEq, Repr

/-- Every register of SF, of its KP and of a KP used on its own, and the model's own fields. -/
structure State where
  /-- SF's own KP (00_scope.md R4). -/
  kp : Kp
  /-- S, the absorbing state (10_state.md R25). -/
  sponge : Lanes
  /-- BUF, the staging buffer (R26). -/
  buf : Buffer
  /-- BLEN, the count of valid bytes in BUF (R27). -/
  blen : Byte
  /-- CFG_VALID (R28). -/
  cfgValid : Bool
  /-- FAM, the family code of the last accepted CONFIG (R28). -/
  fam : Nibble
  /-- RATE, the block size in bytes (R28). -/
  rate : Byte
  /-- SUFFIX, the domain separation byte (R28). -/
  suffix : Byte
  /-- XOF (R28). -/
  xof : Bool
  /-- OUTLEN, the digest size or an XOF's default output length (R28). -/
  outlen : Word32
  /-- Z, the snapshot and squeeze state of a FINALIZE (R31). -/
  z : Lanes
  /-- OTOT, the total output length (R32). -/
  otot : Word32
  /-- OPOS, the output bytes produced so far (R32). -/
  opos : Word32
  /-- ZPOS, the bytes taken from the rate prefix of the current Z (R32). -/
  zpos : Byte
  /-- IPOS, the index in the ABSORB chunk of the next byte to stage (R32). -/
  ipos : Nibble
  /-- PH (R33). -/
  ph : SfPhase
  /-- CMDR, the latched command word (R33). -/
  cmdr : Word128
  /-- RSPR, the response register (R33). -/
  rspr : Word128
  /-- A KP used on its own through its block interface (00_scope.md R4). -/
  alone : Kp
  /-- The model's own: the latched command has begun its EXEC work (notes/assumptions/6.md). -/
  started : Bool
  /-- The model's own: the rule level SF's KP work is stepped at (notes/assumptions/1.md). -/
  level : RuleLevel
  /-- The model's own: the coming clock edges (notes/assumptions/2.md). -/
  inputs : List Input
  /-- The model's own: the command word raised and not yet transferred (notes/assumptions/10.md). -/
  offer : Option Word128
  /-- The model's own: the response words the host has taken, oldest first (notes/assumptions/14.md). -/
  received : List Word128
  /-- The model's own: the results a stand-alone KP's client has taken, oldest first (notes/assumptions/14.md). -/
  kpTaken : List Bus
  /-- The model's own: the KP computations SF has started (notes/assumptions/14.md). -/
  kpStarts : Nat
  deriving DecidableEq, Repr

/-- Why the machine stops. -/
inductive Fault where
  /-- Raised by an edge of a KP in RUN with KRND in 24..31, which is never held (93_implementation_defined.md U16). Safe: no
  run from reset reaches it. -/
  | krndOutOfRange
  deriving DecidableEq, Repr

/-- Why a step has no meaning. -/
inductive Refusal where
  /-- Raised by exec for an instruction without a meaning; no arm does. Safe. -/
  | notModelled (mnemonic : String)
  /-- Raised by an SF edge at which the host drops `cmd_valid` or changes `cmd_word` before the transfer
  (70_reset_and_hazards.md R166, 93_implementation_defined.md U17). Safe. -/
  | hostChangedCommand
  deriving DecidableEq, Repr

/-- What exec and step answer. -/
abbrev Result := Host.Outcome State Fault Refusal

/-- A 25-lane vector of zeros. -/
def zeroLanes : Lanes := Vector.replicate 25 0

/-- BUF with every byte 0. -/
def zeroBuffer : Buffer := Vector.replicate 200 0

/-- A KP after reset (10_state.md R37). -/
def Kp.reset : Kp := ⟨zeroLanes, 0, .idle⟩

/-- The machine after hardware reset (10_state.md R37, 70_reset_and_hazards.md R162); the model's own fields as
notes/assumptions/15.md says. -/
def State.reset : State where
  kp := Kp.reset
  sponge := zeroLanes
  buf := zeroBuffer
  blen := 0
  cfgValid := false
  fam := 0
  rate := 0
  suffix := 0
  xof := false
  outlen := 0
  z := zeroLanes
  otot := 0
  opos := 0
  zpos := 0
  ipos := 0
  ph := .idle
  cmdr := 0
  rspr := 0
  alone := Kp.reset
  started := false
  level := .transaction
  inputs := []
  offer := none
  received := []
  kpTaken := []
  kpStarts := 0

end Sys2Proof.Machine
end

