-- ==== Sys2Proof/Machine/Flags.lean ====
section
/-! DEFINITION. There are no flags (10_state.md R34): the outcome of a command is the STATUS field of its response.
This file has the status codes (30_encoding.md R71), the response word (R59), the status word of QUERY STATUS (R72)
and the checks of 60_exceptions.md R146. -/

namespace Sys2Proof.Machine

/-! ### Status codes (30_encoding.md R71) -/

/-- OK. -/
def statusOk : Nibble := 0x0

/-- ERR_ILLEGAL_OP (60_exceptions.md R145). -/
def errIllegalOp : Nibble := 0x1

/-- ERR_UNCONFIGURED (60_exceptions.md R147). -/
def errUnconfigured : Nibble := 0x2

/-- ERR_CONFIG (60_exceptions.md R148). -/
def errConfig : Nibble := 0x3

/-- ERR_BAD_COUNT (60_exceptions.md R149). -/
def errBadCount : Nibble := 0x4

/-- ERR_BAD_QUERY (60_exceptions.md R150). -/
def errBadQuery : Nibble := 0x5

/-! ### The response word (30_encoding.md R59) -/

/-- The response word with these fields and RSVD 0. -/
def responseWord (op status nb : Nibble) (last : Bool) (value : Word32) (data : Lane) : Word128 :=
  data ++ value ++ (0 : BitVec 19) ++ BitVec.ofBool last ++ nb ++ status ++ op

/-- Bits 3:0. -/
def rspOp (r : Word128) : Nibble := r.extractLsb' 0 4

/-- Bits 7:4. -/
def rspStatus (r : Word128) : Nibble := r.extractLsb' 4 4

/-- Bits 11:8, the count of valid DATA bytes. -/
def rspNb (r : Word128) : Nibble := r.extractLsb' 8 4

/-- Bit 12. -/
def rspLast (r : Word128) : Bool := r.getLsbD 12

/-- Bits 31:13, always 0. -/
def rspRsvd (r : Word128) : BitVec 19 := r.extractLsb' 13 19

/-- Bits 63:32. -/
def rspValue (r : Word128) : Word32 := r.extractLsb' 32 32

/-- Bits 127:64. -/
def rspData (r : Word128) : Lane := r.extractLsb' 64 64

/-! ### The status word of QUERY STATUS (30_encoding.md R72) -/

/-- Bit 0 CFG_VALID, bit 1 XOF, bits 7:4 FAM, bits 15:8 BLEN, the rest 0. -/
def statusWord (s : State) : Word32 :=
  (0 : BitVec 16) ++ s.blen ++ s.fam ++ (0 : BitVec 2) ++ BitVec.ofBool s.xof ++ BitVec.ofBool s.cfgValid

/-! ### Checks (60_exceptions.md R146) -/

/-- ConfigLegal(w) (60_exceptions.md R148): not a reserved family code, and a custom one has RATE in 1..200 and a
SUFX other than 0. -/
def configLegal (fc : Nibble) (rate sufx : Byte) : Bool :=
  if fc.toNat < 0xA then true
  else if fc.toNat < 0xE then false
  else decide (1 ≤ rate.toNat) && decide (rate.toNat ≤ Config.stateBytes) && decide (sufx ≠ 0)

/-- Step 2 of the check order: whether a command with this OP and N needs a construction. -/
def needsConfig (op n : Nibble) : Bool := op == 0x2 || op == 0x3 || op == 0x4 || (op == 0x5 && n != 0x2)

/-- The check order of 60_exceptions.md R146: the status of the first check that fails, or none. -/
def firstError (cfgValid : Bool) (op n : Nibble) (rate sufx : Byte) : Option Nibble :=
  if 0x6 ≤ op.toNat then some errIllegalOp
  else if !cfgValid && needsConfig op n then some errUnconfigured
  else if op == 0x1 && !configLegal n rate sufx then some errConfig
  else if op == 0x2 && decide (8 < n.toNat) then some errBadCount
  else if op == 0x5 && decide (3 < n.toNat) then some errBadQuery
  else none

end Sys2Proof.Machine
end

