-- ==== Sys2Proof/Machine/Operands.lean ====
section
/-! DEFINITION. The operand forms of the commands: message bytes (30_encoding.md R62), preset constants (R66), the
output length of FINALIZE (42_commands.md R121) and the staged tail (10_state.md R26). -/

namespace Sys2Proof.Machine

/-- m_j = DATA[8j+7:8j] (30_encoding.md R62). -/
def dataByte (data : Lane) (j : Nat) : Byte := data.extractLsb' (8 * j) 8

/-- The message bytes m_0, ..., m_(n−1) (30_encoding.md R62). -/
def messageBytes (n : Nat) (data : Lane) : List Byte := (List.range n).map (dataByte data)

/-- A row of the preset table: RATE, SUFFIX, XOF and the digest size in bytes (0 for an XOF). -/
structure Preset where
  rate : Byte
  suffix : Byte
  xof : Bool
  digest : Word32
  deriving DecidableEq, Repr

/-- The preset families by code (30_encoding.md R66). -/
def presetTable : List Preset :=
  [⟨144, 0x06, false, 28⟩, ⟨136, 0x06, false, 32⟩, ⟨104, 0x06, false, 48⟩, ⟨72, 0x06, false, 64⟩,
   ⟨144, 0x01, false, 28⟩, ⟨136, 0x01, false, 32⟩, ⟨104, 0x01, false, 48⟩, ⟨72, 0x01, false, 64⟩,
   ⟨168, 0x1F, true, 0⟩, ⟨136, 0x1F, true, 0⟩]

/-- The preset of a family code; none for 0xA..0xF. -/
def presetOf (fc : Nibble) : Option Preset := presetTable[fc.toNat]?

/-- CAPACITY in bytes; no register holds it (10_state.md R29). -/
def capacity (rate : Byte) : Nat := Config.stateBytes - rate.toNat

/-- L, the output length of a FINALIZE with this USE_LEN and LEN (42_commands.md R121). -/
def outputLength (useLen : Bool) (len : Word32) (s : State) : Word32 := if s.xof && useLen then len else s.outlen

/-- BUF[0..BLEN−1], the staged tail (10_state.md R26). -/
def stagedTail (s : State) : List Byte := s.buf.toList.take s.blen.toNat

/-- BUF[0..RATE−1], a full block (41_sponge.md R100). -/
def stagedBlock (s : State) : List Byte := s.buf.toList.take s.rate.toNat

end Sys2Proof.Machine
end

