-- ==== Sys2Proof/Machine/Permutation.lean ====
section
/-! DEFINITION. The permutation Keccak-f[1600] (40_permutation.md sections 1 to 3) and the packing of a KP bus
(20_memory.md R44). -/

namespace Sys2Proof.Machine

/-! ### Lanes by coordinate -/

/-- The lane at (x, y), coordinates taken mod 5 (00_scope.md R13, R14). -/
def laneAt (A : Lanes) (x y : Nat) : Lane := A[x % 5 + 5 * (y % 5)]'(by omega)

/-- The vector whose lane at (x, y) is `f x y` (00_scope.md R14). -/
def lanesOf (f : Nat → Nat → Lane) : Lanes := Vector.ofFn fun i => f (i.val % 5) (i.val / 5)

/-- Rotation toward the more significant bits (00_scope.md R15). -/
def rotl64 (v : Lane) (n : Nat) : Lane := if n = 0 then v else (v <<< n) ||| (v >>> (64 - n))

/-! ### Constants -/

/-- The rho offsets by lane index (40_permutation.md R78). -/
def rhoTable : List Nat :=
  [0, 1, 62, 28, 27,
   36, 44, 6, 55, 20,
   3, 10, 43, 25, 39,
   41, 45, 15, 21, 8,
   18, 2, 61, 56, 14]

/-- r[x, y]. -/
def rhoOffset (x y : Nat) : Nat := rhoTable.getD (x % 5 + 5 * (y % 5)) 0

/-- The input lane of each output lane of pi (40_permutation.md R79). -/
def piTable : List Nat :=
  [0, 6, 12, 18, 24,
   3, 9, 10, 16, 22,
   1, 7, 13, 19, 20,
   4, 5, 11, 17, 23,
   2, 8, 14, 15, 21]

/-- The round constants (40_permutation.md R80). -/
def rcTable : List Lane :=
  [0x0000000000000001, 0x0000000000008082, 0x800000000000808A, 0x8000000080008000,
   0x000000000000808B, 0x0000000080000001, 0x8000000080008081, 0x8000000000008009,
   0x000000000000008A, 0x0000000000000088, 0x0000000080008009, 0x000000008000000A] ++
  [0x000000008000808B, 0x800000000000008B, 0x8000000000008089, 0x8000000000008003,
   0x8000000000008002, 0x8000000000000080, 0x000000000000800A, 0x800000008000000A,
   0x8000000080008081, 0x8000000000008080, 0x0000000080000001, 0x8000000080008008]

/-- RC[i]. -/
def roundConstant (i : Nat) : Lane := rcTable.getD i 0

/-! ### The generators of the two tables, evidence for them (40_permutation.md R78, R81) -/

/-- The walk that generates the rho offsets from step `t` at (x, y), `k` steps: pairs of lane index and offset. -/
def rhoWalk : Nat → Nat → Nat → Nat → List (Nat × Nat)
  | 0, _, _, _ => []
  | k + 1, t, x, y => (x + 5 * y, (t + 1) * (t + 2) / 2 % 64) :: rhoWalk k (t + 1) y ((2 * x + 3 * y) % 5)

/-- One step of the round constants' LFSR; bit i of the number is R[i]. -/
def lfsrStep (r : BitVec 8) : BitVec 8 := if r.getLsbD 7 then (r <<< 1) ^^^ 0x71 else r <<< 1

/-- `t` steps from R = 10000000. -/
def lfsrState : Nat → BitVec 8
  | 0 => 1
  | t + 1 => lfsrStep (lfsrState t)

/-- rc(t). -/
def rcBit (t : Nat) : Bool := (lfsrState (t % 255)).getLsbD 0

/-- RC[i] as generated: bit 2^j − 1 is rc(j + 7i), j = 0..6. -/
def generatedConstant (i : Nat) : Lane :=
  (List.range 7).foldl (fun acc j => if rcBit (j + 7 * i) then acc ||| (1 <<< (2 ^ j - 1)) else acc) 0

/-! ### Step mappings -/

/-- C[x], the parity of column x (40_permutation.md R82). -/
def columnParity (A : Lanes) (x : Nat) : Lane :=
  laneAt A x 0 ^^^ laneAt A x 1 ^^^ laneAt A x 2 ^^^ laneAt A x 3 ^^^ laneAt A x 4

/-- D[x] = C[x−1] ^ rotl64(C[x+1], 1); x + 4 is x − 1 mod 5 (40_permutation.md R82). -/
def thetaEffect (A : Lanes) (x : Nat) : Lane := columnParity A (x + 4) ^^^ rotl64 (columnParity A (x + 1)) 1

/-- THETA (40_permutation.md R82). -/
def theta (A : Lanes) : Lanes := lanesOf fun x y => laneAt A x y ^^^ thetaEffect A x

/-- RHO (40_permutation.md R83). -/
def rho (A : Lanes) : Lanes := lanesOf fun x y => rotl64 (laneAt A x y) (rhoOffset x y)

/-- PI: the output lane (x, y) is the input lane (x + 3y, x) (40_permutation.md R79, R84). -/
def pi (A : Lanes) : Lanes := lanesOf fun x y => laneAt A (x + 3 * y) x

/-- CHI (40_permutation.md R85). -/
def chi (A : Lanes) : Lanes :=
  lanesOf fun x y => laneAt A x y ^^^ (~~~(laneAt A (x + 1) y) &&& laneAt A (x + 2) y)

/-- IOTA (40_permutation.md R86). -/
def iota (A : Lanes) (i : Nat) : Lanes := A.set 0 (A[0] ^^^ roundConstant i)

/-- ROUND (40_permutation.md R87). -/
def round (A : Lanes) (i : Nat) : Lanes := iota (chi (pi (rho (theta A)))) i

/-- The rounds i, i + 1, ..., i + n − 1 in that order. -/
def roundsFrom (i : Nat) : Nat → Lanes → Lanes
  | 0, A => A
  | n + 1, A => roundsFrom (i + 1) n (round A i)

/-- KECCAK-F: the 24 rounds in increasing order (40_permutation.md R88). -/
@[irreducible] def keccakF (A : Lanes) : Lanes := roundsFrom 0 Config.rounds A

/-! ### The bus -/

/-- The bus that carries a vector: bit 64i + z is bit z of lane i (20_memory.md R44). -/
def packLanes (A : Lanes) : Bus :=
  BitVec.ofNat 1600 (A.toList.foldr (fun lane acc => lane.toNat + 2 ^ 64 * acc) 0)

/-- The vector a bus carries (20_memory.md R44). -/
def unpackLanes (bus : Bus) : Lanes := Vector.ofFn fun i => bus.extractLsb' (64 * i.val) 64

end Sys2Proof.Machine
end

