-- ==== Sys2Proof/Machine/Sponge.lean ====
section
/-! DEFINITION. Byte order (20_memory.md section 2) and the pure sponge functions (41_sponge.md). -/

namespace Sys2Proof.Machine

/-! ### Bytes of lanes and words -/

/-- Σ c[j] · 2^(8j), the first eight bytes counting (20_memory.md R40, R43). -/
def packBytes (c : List Byte) : Lane := c.foldr (fun b acc => (acc <<< 8) ||| b.setWidth 64) 0

/-- StateByte(A, k) for k ≤ 199 (20_memory.md R39). -/
def stateByte (A : Lanes) (k : Nat) : Byte := ((A[k / 8]?).getD 0).extractLsb' (8 * (k % 8)) 8

/-- StateByte(A, k) <- v (20_memory.md R39). -/
def setStateByte (A : Lanes) (k : Nat) (v : Byte) : Lanes :=
  A.setIfInBounds (k / 8)
    ((((A[k / 8]?).getD 0) &&& ~~~((0xFF : Lane) <<< (8 * (k % 8)))) ||| (v.setWidth 64 <<< (8 * (k % 8))))

/-- The vector whose byte k is `f k` (20_memory.md R40). -/
def lanesOfBytes (f : Nat → Byte) : Lanes :=
  Vector.ofFn fun i => packBytes ((List.range 8).map fun j => f (8 * i.val + j))

/-- Bytes(A) (20_memory.md R40). -/
def stateBytes (A : Lanes) : List Byte := (List.range Config.stateBytes).map (stateByte A)

/-- Lanes(s) for a 200-byte string (20_memory.md R40). -/
def bytesLanes (s : List Byte) : Lanes := lanesOfBytes fun k => s.getD k 0

/-- The first `rate` bytes of a vector (20_memory.md R42). -/
def ratePart (rate : Nat) (A : Lanes) : List Byte := (List.range rate).map (stateByte A)

/-! ### Absorbing -/

/-- XorBlock(A, blk): byte j ^ blk[j] for j < len(blk), the other bytes kept (41_sponge.md R98). -/
def xorBlock (A : Lanes) (blk : List Byte) : Lanes :=
  lanesOfBytes fun k => if k < blk.length then stateByte A k ^^^ blk.getD k 0 else stateByte A k

/-- AbsorbBlock(A, blk) (41_sponge.md R99). -/
def absorbBlock (A : Lanes) (blk : List Byte) : Lanes := keccakF (xorBlock A blk)

/-- StageByte on the pair (S, BUF[0..BLEN−1]) (41_sponge.md R100). -/
def stagePair (rate : Nat) (p : Lanes × List Byte) (b : Byte) : Lanes × List Byte :=
  if p.2.length + 1 = rate then (absorbBlock p.1 (p.2 ++ [b]), []) else (p.1, p.2 ++ [b])

/-- S_q of 41_sponge.md R102: q blocks of the message absorbed from S_0 = A. -/
def absorbedBlocks (rate : Nat) (M : List Byte) (A : Lanes) : Nat → Lanes
  | 0 => A
  | q + 1 => absorbBlock (absorbedBlocks rate M A q) ((M.drop (q * rate)).take rate)

/-! ### Padding -/

/-- P[j] before the last byte's 0x80 (41_sponge.md R103). -/
def padBase (suffix : Byte) (t : List Byte) (j : Nat) : Byte :=
  if j < t.length then t.getD j 0 else if j = t.length then suffix else 0

/-- Pad(t), a block of `rate` bytes (41_sponge.md R103). -/
def pad (rate : Nat) (suffix : Byte) (t : List Byte) : List Byte :=
  (List.range rate).map fun j => if j + 1 = rate then padBase suffix t j ||| 0x80 else padBase suffix t j

/-! ### Squeezing -/

/-- FinalState(S, BUF, BLEN) with t = BUF[0..BLEN−1] (41_sponge.md R105). -/
def finalState (rate : Nat) (suffix : Byte) (A : Lanes) (t : List Byte) : Lanes :=
  absorbBlock A (pad rate suffix t)

/-- Block_0 ‖ ... ‖ Block_(n−1) from Z_0 = Z (41_sponge.md R106). -/
def squeezeBlocks (rate : Nat) : Nat → Lanes → List Byte
  | 0, _ => []
  | n + 1, Z => ratePart rate Z ++ squeezeBlocks rate n (keccakF Z)

/-- ceil(a / b). -/
def ceilDiv (a b : Nat) : Nat := (a + b - 1) / b

/-- Squeeze(Z_0, L) (41_sponge.md R106). -/
def squeeze (rate : Nat) (Z : Lanes) (L : Nat) : List Byte := (squeezeBlocks rate (ceilDiv L rate) Z).take L

/-- Digest(S, BUF, BLEN, L) (41_sponge.md R107). -/
def digest (rate : Nat) (suffix : Byte) (A : Lanes) (t : List Byte) (L : Nat) : List Byte :=
  squeeze rate (finalState rate suffix A t) L

/-- KeccakF calls of a FINALIZE of length L (41_sponge.md R108). -/
def finalizeCalls (rate L : Nat) : Nat := 1 + (ceilDiv L rate - 1)

end Sys2Proof.Machine
end

