-- ==== Sys2Proof/Machine/Ops.lean ====
section
/-! DEFINITION. The named operations the meanings share: answering a command, raising an error (60_exceptions.md R143),
KP's edges (40_permutation.md R92 to R95), clearing, staging and emitting bytes. -/

namespace Sys2Proof.Machine

/-! ### Responses -/

/-- Present `w` as the response (43_sponge_fsm.md R133: load RSPR, PH <- RSP). -/
def present (w : Word128) (s : State) : State := { s with rspr := w, ph := .rsp }

/-- The one OK response word of a command with no output bytes (30_encoding.md R73). -/
def respondOk (op : Nibble) (value : Word32) (s : State) : State :=
  present (responseWord op statusOk 0 true value 0) s

/-- `raise ERR_X`: one response word with the status, nothing else (60_exceptions.md R143). There are no traps, so
this is the machine's whole error mechanism (R142, R152). -/
def raise (op status : Nibble) (s : State) : Result := .next (present (responseWord op status 0 true 0 0) s)

/-- A command's step: first the checks in their order, the first that fails being the one error; otherwise the
command's own rule `k` (42_commands.md R114, 60_exceptions.md R146). -/
def checked (op n : Nibble) (rate sufx : Byte) (s : State) (k : State → State) : Result :=
  match firstError s.cfgValid op n rate sufx with
  | some status => raise op status s
  | none => .next (k s)

/-! ### KP -/

/-- The input handshake: KA <- the state, KRND <- 0, KPH <- RUN (40_permutation.md R92). -/
def Kp.load (A : Lanes) : Kp := ⟨A, 0, .run⟩

/-- The round cycle of phase RUN (40_permutation.md R93). -/
def Kp.roundEdge (k : Kp) : Kp :=
  if k.krnd = 23 then ⟨round k.ka k.krnd.toNat, 0, .done⟩ else ⟨round k.ka k.krnd.toNat, k.krnd + 1, .run⟩

/-- `n` rounds at one edge, fewer when the last one is reached: with `n` = 1 the round cycle of the reference design
(40_permutation.md R93), with another `n` another KP_LATENCY (00_scope.md R9, notes/assumptions/9.md). -/
def Kp.roundEdges : Nat → Kp → Kp
  | 0, k => k
  | n + 1, k => if k.kph = .run then Kp.roundEdges n k.roundEdge else k

/-- The output handshake: KPH <- IDLE, KA keeps its value (40_permutation.md R95). -/
def Kp.take (k : Kp) : Kp := { k with kph := .idle }

/-- KRND is a value KP may hold in RUN (10_state.md R23, 93_implementation_defined.md U16). -/
def Kp.krndLegal (k : Kp) : Bool := decide (k.krnd.toNat < Config.rounds)

/-- A whole KP computation of SF in one step, from input to output handshake (40_permutation.md R94). -/
def kpCall (A : Lanes) (s : State) : State :=
  { s with kp := ⟨keccakF A, 0, .idle⟩, kpStarts := s.kpStarts + 1 }

/-- SF drives KP with `A` and waits for it; while KP is not ready SF holds (43_sponge_fsm.md R134, R135). -/
def kpRequest (A : Lanes) (s : State) : State :=
  if s.kp.kph = .idle then { s with kp := Kp.load A, ph := .waitKp, kpStarts := s.kpStarts + 1 } else s

/-! ### The absorbing state -/

/-- S <- 0, BUF <- 0, BLEN <- 0 (42_commands.md R116, R124). -/
def clearMessage (s : State) : State := { s with sponge := zeroLanes, buf := zeroBuffer, blen := 0 }

/-- BUF[BLEN] <- b and the two counts advance (41_sponge.md R100, 43_sponge_fsm.md R134). -/
def putByte (b : Byte) (s : State) : State :=
  { s with buf := s.buf.setIfInBounds s.blen.toNat b, blen := s.blen + 1, ipos := s.ipos + 1 }

/-- The permuted block goes to S and the buffer empties (41_sponge.md R100). -/
def finishBlock (s : State) : State := { s with sponge := s.kp.ka, buf := zeroBuffer, blen := 0 }

/-- XorBlock(S, BUF[0..RATE−1]), what SF gives KP for a full block (41_sponge.md R98, R99). -/
def blockInput (s : State) : Lanes := xorBlock s.sponge (stagedBlock s)

/-- StageByte (41_sponge.md R100), with the KP computation in one step. -/
def stageByte (s : State) (b : Byte) : State :=
  let t := putByte b s
  if t.blen = t.rate then finishBlock (kpCall (blockInput t) t) else t

/-- AbsorbBytes (41_sponge.md R101). -/
def absorbBytes (m : List Byte) (s : State) : State := m.foldl stageByte s

/-! ### The snapshot -/

/-- XorBlock(S, Pad(BUF[0..BLEN−1])), what SF gives KP first in a FINALIZE (41_sponge.md R105). -/
def padInput (s : State) : Lanes := xorBlock s.sponge (pad s.rate.toNat s.suffix (stagedTail s))

/-- Z <- KP's result, ZPOS <- 0 (43_sponge_fsm.md R135). -/
def loadZ (s : State) : State := { s with z := s.kp.ka, zpos := 0 }

/-- A FINALIZE response word with no byte yet; VALUE is the total length (30_encoding.md R73). -/
def emptyWord (total : Word32) : Word128 := responseWord 0x3 statusOk 0 false total 0

/-- OTOT <- L, OPOS <- 0, and an empty word to build (43_sponge_fsm.md R135, notes/assumptions/7.md). -/
def beginOutput (total : Word32) (s : State) : State :=
  { s with otot := total, opos := 0, started := true, rspr := emptyWord total }

/-- Put byte `b` at DATA byte NB of the word being built (30_encoding.md R59, 20_memory.md R43). -/
def pushByte (r : Word128) (b : Byte) : Word128 :=
  responseWord (rspOp r) (rspStatus r) (rspNb r + 1) (rspLast r) (rspValue r)
    (rspData r ||| (b.setWidth 64 <<< (8 * (rspNb r).toNat)))

/-- Take StateByte(Z, ZPOS) into the word; ZPOS and OPOS advance (43_sponge_fsm.md R135). -/
def emitByte (s : State) : State :=
  { s with rspr := pushByte s.rspr (stateByte s.z s.zpos.toNat), zpos := s.zpos + 1, opos := s.opos + 1 }

/-- Re-permute Z when its rate prefix is used up, in one step (41_sponge.md R106, 43_sponge_fsm.md R135). -/
def refillZ (s : State) : State := if s.zpos = s.rate then loadZ (kpCall s.z s) else s

/-- Emit up to `n` bytes, stopping at the total length (43_sponge_fsm.md R135). -/
def emitBytes : Nat → State → State
  | 0, s => s
  | n + 1, s => if s.opos = s.otot then s else emitBytes n (emitByte (refillZ s))

/-- The word is built: LAST = 1 when OPOS = OTOT; present it (43_sponge_fsm.md R135). -/
def presentOutput (s : State) : State :=
  present (responseWord (rspOp s.rspr) (rspStatus s.rspr) (rspNb s.rspr) (decide (s.opos = s.otot)) (rspValue s.rspr)
    (rspData s.rspr)) s

/-- The next response word of a FINALIZE: the next min(8, OTOT − OPOS) bytes (43_sponge_fsm.md R135). -/
def outputWord (s : State) : State := presentOutput (emitBytes Config.beatBytes s)

/-- The response words of a FINALIZE whose output is `out` (42_commands.md R122). -/
def outputWords (out : List Byte) : List Word128 :=
  let words := max 1 (ceilDiv out.length 8)
  (List.range words).map fun b =>
    let chunk := (out.drop (8 * b)).take 8
    responseWord 0x3 statusOk (BitVec.ofNat 4 chunk.length) (decide (b + 1 = words)) (BitVec.ofNat 32 out.length)
      (packBytes chunk)

end Sys2Proof.Machine
end

