-- ==== Sys2Proof/Machine/Absorb.lean ====
section
/-! DEFINITION. ABSORB (42_commands.md R120, 60_exceptions.md R149). -/

namespace Sys2Proof.Machine

/-- ABSORB of `n` bytes of DATA (42_commands.md R120): unconfigured and bad counts are errors, otherwise the bytes are
staged in order and the answer's VALUE is the count. -/
def absorbCommand (n : Nibble) (data : Lane) (s : State) : Result :=
  checked 0x2 n 0 0 s fun s =>
    respondOk 0x2 (n.setWidth 32) (absorbBytes (messageBytes n.toNat data) { s with ipos := 0, started := true })

/-- ABSORB with N = 0 (42_commands.md R120). -/
def execAbsorb0 (s : State) : Result := absorbCommand 0 0 s

/-- ABSORB with N = 1 (42_commands.md R120). -/
def execAbsorb1 (data : Lane) (s : State) : Result := absorbCommand 1 data s

/-- ABSORB with N = 2 (42_commands.md R120). -/
def execAbsorb2 (data : Lane) (s : State) : Result := absorbCommand 2 data s

/-- ABSORB with N = 3 (42_commands.md R120). -/
def execAbsorb3 (data : Lane) (s : State) : Result := absorbCommand 3 data s

/-- ABSORB with N = 4 (42_commands.md R120). -/
def execAbsorb4 (data : Lane) (s : State) : Result := absorbCommand 4 data s

/-- ABSORB with N = 5 (42_commands.md R120). -/
def execAbsorb5 (data : Lane) (s : State) : Result := absorbCommand 5 data s

/-- ABSORB with N = 6 (42_commands.md R120). -/
def execAbsorb6 (data : Lane) (s : State) : Result := absorbCommand 6 data s

/-- ABSORB with N = 7 (42_commands.md R120). -/
def execAbsorb7 (data : Lane) (s : State) : Result := absorbCommand 7 data s

/-- ABSORB with N = 8 (42_commands.md R120). -/
def execAbsorb8 (data : Lane) (s : State) : Result := absorbCommand 8 data s

/-- ABSORB with N = 9 (60_exceptions.md R149). -/
def execAbsorbBad9 (s : State) : Result := absorbCommand 9 0 s

/-- ABSORB with N = 10 (60_exceptions.md R149). -/
def execAbsorbBad10 (s : State) : Result := absorbCommand 10 0 s

/-- ABSORB with N = 11 (60_exceptions.md R149). -/
def execAbsorbBad11 (s : State) : Result := absorbCommand 11 0 s

/-- ABSORB with N = 12 (60_exceptions.md R149). -/
def execAbsorbBad12 (s : State) : Result := absorbCommand 12 0 s

/-- ABSORB with N = 13 (60_exceptions.md R149). -/
def execAbsorbBad13 (s : State) : Result := absorbCommand 13 0 s

/-- ABSORB with N = 14 (60_exceptions.md R149). -/
def execAbsorbBad14 (s : State) : Result := absorbCommand 14 0 s

/-- ABSORB with N = 15 (60_exceptions.md R149). -/
def execAbsorbBad15 (s : State) : Result := absorbCommand 15 0 s

end Sys2Proof.Machine
end

