-- ==== Sys2Proof/Machine/Construct.lean ====
section
/-! DEFINITION. CONFIG (42_commands.md R116 to R119): the shared operation and one meaning per family code. -/

namespace Sys2Proof.Machine

/-- An accepted CONFIG: the configuration registers are written, the message is cleared, the answer's VALUE is RATE
(42_commands.md R116 to R118). -/
def construct (fc : Nibble) (rate suffix : Byte) (xof : Bool) (outlen : Word32) (s : State) : State :=
  respondOk 0x1 (rate.setWidth 32)
    { clearMessage s with cfgValid := true, fam := fc, rate := rate, suffix := suffix, xof := xof, outlen := outlen }

/-- CONFIG with family code `fc` and fields RATE, SUFX and LEN (42_commands.md R116 to R119). -/
def configCommand (fc : Nibble) (rate sufx : Byte) (len : Word32) (s : State) : Result :=
  checked 0x1 fc rate sufx s fun s =>
    match presetOf fc with
    | some p => construct fc p.rate p.suffix p.xof (if p.xof then len else p.digest) s
    | none => construct fc rate sufx (fc == 0xF) len s

/-- CONFIG FC 0x0, Sha3_224 (42_commands.md R116). -/
def execConfigSha3_224 (s : State) : Result := configCommand 0x0 0 0 0 s

/-- CONFIG FC 0x1, Sha3_256 (42_commands.md R116). -/
def execConfigSha3_256 (s : State) : Result := configCommand 0x1 0 0 0 s

/-- CONFIG FC 0x2, Sha3_384 (42_commands.md R116). -/
def execConfigSha3_384 (s : State) : Result := configCommand 0x2 0 0 0 s

/-- CONFIG FC 0x3, Sha3_512 (42_commands.md R116). -/
def execConfigSha3_512 (s : State) : Result := configCommand 0x3 0 0 0 s

/-- CONFIG FC 0x4, Keccak_224 (42_commands.md R116). -/
def execConfigKeccak_224 (s : State) : Result := configCommand 0x4 0 0 0 s

/-- CONFIG FC 0x5, Keccak_256 (42_commands.md R116). -/
def execConfigKeccak_256 (s : State) : Result := configCommand 0x5 0 0 0 s

/-- CONFIG FC 0x6, Keccak_384 (42_commands.md R116). -/
def execConfigKeccak_384 (s : State) : Result := configCommand 0x6 0 0 0 s

/-- CONFIG FC 0x7, Keccak_512 (42_commands.md R116). -/
def execConfigKeccak_512 (s : State) : Result := configCommand 0x7 0 0 0 s

/-- CONFIG FC 0x8, Shake128 (42_commands.md R116). -/
def execConfigShake128 (len : Word32) (s : State) : Result := configCommand 0x8 0 0 len s

/-- CONFIG FC 0x9, Shake256 (42_commands.md R116). -/
def execConfigShake256 (len : Word32) (s : State) : Result := configCommand 0x9 0 0 len s

/-- CONFIG FC 0xe, CustomFixed (42_commands.md R117). -/
def execConfigCustomFixed (rate suffix : Byte) (len : Word32) (s : State) : Result := configCommand 0xe rate suffix len s

/-- CONFIG FC 0xf, CustomXof (42_commands.md R118). -/
def execConfigCustomXof (rate suffix : Byte) (len : Word32) (s : State) : Result := configCommand 0xf rate suffix len s

/-- CONFIG FC 0xa, reserved code, always ERR_CONFIG (42_commands.md R119). -/
def execConfigReservedA (s : State) : Result := configCommand 0xa 0 0 0 s

/-- CONFIG FC 0xb, reserved code, always ERR_CONFIG (42_commands.md R119). -/
def execConfigReservedB (s : State) : Result := configCommand 0xb 0 0 0 s

/-- CONFIG FC 0xc, reserved code, always ERR_CONFIG (42_commands.md R119). -/
def execConfigReservedC (s : State) : Result := configCommand 0xc 0 0 0 s

/-- CONFIG FC 0xd, reserved code, always ERR_CONFIG (42_commands.md R119). -/
def execConfigReservedD (s : State) : Result := configCommand 0xd 0 0 0 s

end Sys2Proof.Machine
end

