-- ==== Sys2Proof/Machine/Control.lean ====
section
/-! DEFINITION. NOP (42_commands.md R115), RESET (R124) and the illegal opcodes (R130). -/

namespace Sys2Proof.Machine

/-- NOP (42_commands.md R115). -/
def execNop (s : State) : Result := .next (respondOk 0x0 0 s)

/-- RESET: the message is cleared, the configuration registers are kept (42_commands.md R124). -/
def execReset (s : State) : Result := checked 0x4 0 0 0 s fun s => respondOk 0x4 0 (clearMessage s)

/-- An illegal opcode is answered with ERR_ILLEGAL_OP in every state (42_commands.md R130, 60_exceptions.md R145). -/
def illegalCommand (op : Nibble) (s : State) : Result := raise op errIllegalOp s

/-- OP 0x6 (42_commands.md R130). -/
def execIllegalOp6 (s : State) : Result := illegalCommand 0x6 s

/-- OP 0x7 (42_commands.md R130). -/
def execIllegalOp7 (s : State) : Result := illegalCommand 0x7 s

/-- OP 0x8 (42_commands.md R130). -/
def execIllegalOp8 (s : State) : Result := illegalCommand 0x8 s

/-- OP 0x9 (42_commands.md R130). -/
def execIllegalOp9 (s : State) : Result := illegalCommand 0x9 s

/-- OP 0xa (42_commands.md R130). -/
def execIllegalOpA (s : State) : Result := illegalCommand 0xa s

/-- OP 0xb (42_commands.md R130). -/
def execIllegalOpB (s : State) : Result := illegalCommand 0xb s

/-- OP 0xc (42_commands.md R130). -/
def execIllegalOpC (s : State) : Result := illegalCommand 0xc s

/-- OP 0xd (42_commands.md R130). -/
def execIllegalOpD (s : State) : Result := illegalCommand 0xd s

/-- OP 0xe (42_commands.md R130). -/
def execIllegalOpE (s : State) : Result := illegalCommand 0xe s

/-- OP 0xf (42_commands.md R130). -/
def execIllegalOpF (s : State) : Result := illegalCommand 0xf s

end Sys2Proof.Machine
end

