-- ==== Sys2Proof/Machine/Finalize.lean ====
section
/-! DEFINITION. FINALIZE (42_commands.md R121 to R123). A FINALIZE pads and squeezes a copy in Z and presents its
first response word; each later word is built after the one before it has been taken (43_sponge_fsm.md R135, R137). -/

namespace Sys2Proof.Machine

/-- FINALIZE with output length `total` on a configured SF: Z is the permuted padding block, the first word is
presented; S, BUF and BLEN are not written (42_commands.md R122, 20_memory.md R55). -/
def finalizeTo (total : Word32) (s : State) : State :=
  outputWord (loadZ (kpCall (padInput s) (beginOutput total s)))

/-- FINALIZE with this USE_LEN and LEN (42_commands.md R122). -/
def finalizeCommand (useLen : Bool) (len : Word32) (s : State) : Result :=
  checked 0x3 0 0 0 s fun s => finalizeTo (outputLength useLen len s) s

/-- FINALIZE with USE_LEN = 0 (42_commands.md R121, R122). -/
def execFinalize (s : State) : Result := finalizeCommand false 0 s

/-- FINALIZE with USE_LEN = 1 (42_commands.md R121, R122). -/
def execFinalizeLen (len : Word32) (s : State) : Result := finalizeCommand true len s

end Sys2Proof.Machine
end

