-- ==== Sys2Proof/Machine/Permute.lean ====
section
/-! DEFINITION. PERMUTE, the input handshake of a KP used on its own (40_permutation.md R92). The rounds and the
output handshake that follow are KP's own edges (R93, R95), in Machine/Edge.lean. -/

namespace Sys2Proof.Machine

/-- PERMUTE with `p_in_state` = `bus`: taken when KPH = IDLE (40_permutation.md R92), without effect otherwise (R97). -/
def execPermute (bus : Bus) (s : State) : Result :=
  if s.alone.kph = .idle then .next { s with alone := Kp.load (unpackLanes bus) } else .next s

end Sys2Proof.Machine
end

