-- ==== Sys2Proof/Machine/Query.lean ====
section
/-! DEFINITION. QUERY (42_commands.md R125 to R129): introspection, no side effects. -/

namespace Sys2Proof.Machine

/-- The value a selector names (30_encoding.md R70); the checks leave only 0x0..0x3. -/
def queryValue (sel : Nibble) (s : State) : Word32 :=
  if sel = 0x0 then s.rate.setWidth 32
  else if sel = 0x1 then s.outlen
  else if sel = 0x2 then statusWord s
  else s.suffix.setWidth 32

/-- QUERY with selector `sel` (42_commands.md R125 to R129): only STATUS is legal while unconfigured. -/
def queryCommand (sel : Nibble) (s : State) : Result :=
  checked 0x5 sel 0 0 s fun s => respondOk 0x5 (queryValue sel s) s

/-- QUERY SEL 0x0 (42_commands.md R125). -/
def execQueryBsize (s : State) : Result := queryCommand 0x0 s

/-- QUERY SEL 0x1 (42_commands.md R126). -/
def execQueryOsize (s : State) : Result := queryCommand 0x1 s

/-- QUERY SEL 0x2 (42_commands.md R127). -/
def execQueryStatus (s : State) : Result := queryCommand 0x2 s

/-- QUERY SEL 0x3 (42_commands.md R128). -/
def execQuerySuffix (s : State) : Result := queryCommand 0x3 s

/-- QUERY SEL 0x4 (42_commands.md R129). -/
def execQueryBad4 (s : State) : Result := queryCommand 0x4 s

/-- QUERY SEL 0x5 (42_commands.md R129). -/
def execQueryBad5 (s : State) : Result := queryCommand 0x5 s

/-- QUERY SEL 0x6 (42_commands.md R129). -/
def execQueryBad6 (s : State) : Result := queryCommand 0x6 s

/-- QUERY SEL 0x7 (42_commands.md R129). -/
def execQueryBad7 (s : State) : Result := queryCommand 0x7 s

/-- QUERY SEL 0x8 (42_commands.md R129). -/
def execQueryBad8 (s : State) : Result := queryCommand 0x8 s

/-- QUERY SEL 0x9 (42_commands.md R129). -/
def execQueryBad9 (s : State) : Result := queryCommand 0x9 s

/-- QUERY SEL 0xa (42_commands.md R129). -/
def execQueryBadA (s : State) : Result := queryCommand 0xa s

/-- QUERY SEL 0xb (42_commands.md R129). -/
def execQueryBadB (s : State) : Result := queryCommand 0xb s

/-- QUERY SEL 0xc (42_commands.md R129). -/
def execQueryBadC (s : State) : Result := queryCommand 0xc s

/-- QUERY SEL 0xd (42_commands.md R129). -/
def execQueryBadD (s : State) : Result := queryCommand 0xd s

/-- QUERY SEL 0xe (42_commands.md R129). -/
def execQueryBadE (s : State) : Result := queryCommand 0xe s

/-- QUERY SEL 0xf (42_commands.md R129). -/
def execQueryBadF (s : State) : Result := queryCommand 0xf s

end Sys2Proof.Machine
end

