-- ==== Sys2Proof/Machine/Dispatch.lean ====
section
/-! DEFINITION. exec: one arm for each constructor of Instr, each a direct call of its meaning. -/

namespace Sys2Proof.Machine

def exec (i : Instr) (s : State) : Host.Outcome State Fault Refusal :=
  match i with
  | .nop => Sys2Proof.Machine.execNop s
  | .configSha3_224 => Sys2Proof.Machine.execConfigSha3_224 s
  | .configSha3_256 => Sys2Proof.Machine.execConfigSha3_256 s
  | .configSha3_384 => Sys2Proof.Machine.execConfigSha3_384 s
  | .configSha3_512 => Sys2Proof.Machine.execConfigSha3_512 s
  | .configKeccak_224 => Sys2Proof.Machine.execConfigKeccak_224 s
  | .configKeccak_256 => Sys2Proof.Machine.execConfigKeccak_256 s
  | .configKeccak_384 => Sys2Proof.Machine.execConfigKeccak_384 s
  | .configKeccak_512 => Sys2Proof.Machine.execConfigKeccak_512 s
  | .configShake128 len => Sys2Proof.Machine.execConfigShake128 len s
  | .configShake256 len => Sys2Proof.Machine.execConfigShake256 len s
  | .configCustomFixed rate suffix len => Sys2Proof.Machine.execConfigCustomFixed rate suffix len s
  | .configCustomXof rate suffix len => Sys2Proof.Machine.execConfigCustomXof rate suffix len s
  | .configReservedA => Sys2Proof.Machine.execConfigReservedA s
  | .configReservedB => Sys2Proof.Machine.execConfigReservedB s
  | .configReservedC => Sys2Proof.Machine.execConfigReservedC s
  | .configReservedD => Sys2Proof.Machine.execConfigReservedD s
  | .absorb0 => Sys2Proof.Machine.execAbsorb0 s
  | .absorb1 data => Sys2Proof.Machine.execAbsorb1 data s
  | .absorb2 data => Sys2Proof.Machine.execAbsorb2 data s
  | .absorb3 data => Sys2Proof.Machine.execAbsorb3 data s
  | .absorb4 data => Sys2Proof.Machine.execAbsorb4 data s
  | .absorb5 data => Sys2Proof.Machine.execAbsorb5 data s
  | .absorb6 data => Sys2Proof.Machine.execAbsorb6 data s
  | .absorb7 data => Sys2Proof.Machine.execAbsorb7 data s
  | .absorb8 data => Sys2Proof.Machine.execAbsorb8 data s
  | .absorbBad9 => Sys2Proof.Machine.execAbsorbBad9 s
  | .absorbBad10 => Sys2Proof.Machine.execAbsorbBad10 s
  | .absorbBad11 => Sys2Proof.Machine.execAbsorbBad11 s
  | .absorbBad12 => Sys2Proof.Machine.execAbsorbBad12 s
  | .absorbBad13 => Sys2Proof.Machine.execAbsorbBad13 s
  | .absorbBad14 => Sys2Proof.Machine.execAbsorbBad14 s
  | .absorbBad15 => Sys2Proof.Machine.execAbsorbBad15 s
  | .finalize => Sys2Proof.Machine.execFinalize s
  | .finalizeLen len => Sys2Proof.Machine.execFinalizeLen len s
  | .reset => Sys2Proof.Machine.execReset s
  | .queryBsize => Sys2Proof.Machine.execQueryBsize s
  | .queryOsize => Sys2Proof.Machine.execQueryOsize s
  | .queryStatus => Sys2Proof.Machine.execQueryStatus s
  | .querySuffix => Sys2Proof.Machine.execQuerySuffix s
  | .queryBad4 => Sys2Proof.Machine.execQueryBad4 s
  | .queryBad5 => Sys2Proof.Machine.execQueryBad5 s
  | .queryBad6 => Sys2Proof.Machine.execQueryBad6 s
  | .queryBad7 => Sys2Proof.Machine.execQueryBad7 s
  | .queryBad8 => Sys2Proof.Machine.execQueryBad8 s
  | .queryBad9 => Sys2Proof.Machine.execQueryBad9 s
  | .queryBadA => Sys2Proof.Machine.execQueryBadA s
  | .queryBadB => Sys2Proof.Machine.execQueryBadB s
  | .queryBadC => Sys2Proof.Machine.execQueryBadC s
  | .queryBadD => Sys2Proof.Machine.execQueryBadD s
  | .queryBadE => Sys2Proof.Machine.execQueryBadE s
  | .queryBadF => Sys2Proof.Machine.execQueryBadF s
  | .illegalOp6 => Sys2Proof.Machine.execIllegalOp6 s
  | .illegalOp7 => Sys2Proof.Machine.execIllegalOp7 s
  | .illegalOp8 => Sys2Proof.Machine.execIllegalOp8 s
  | .illegalOp9 => Sys2Proof.Machine.execIllegalOp9 s
  | .illegalOpA => Sys2Proof.Machine.execIllegalOpA s
  | .illegalOpB => Sys2Proof.Machine.execIllegalOpB s
  | .illegalOpC => Sys2Proof.Machine.execIllegalOpC s
  | .illegalOpD => Sys2Proof.Machine.execIllegalOpD s
  | .illegalOpE => Sys2Proof.Machine.execIllegalOpE s
  | .illegalOpF => Sys2Proof.Machine.execIllegalOpF s
  | .permute bus => Sys2Proof.Machine.execPermute bus s

end Sys2Proof.Machine
end

