-- ==== Sys2Proof/Machine/Ports.lean ====
section
/-! DEFINITION. The output ports, functions of the phases that hold no state (10_state.md R34). While `rst` is 1,
`cmd_ready`, `rsp_valid`, `p_in_ready` and `p_out_valid` are 0 (70_reset_and_hazards.md R160). -/

namespace Sys2Proof.Machine

/-- `cmd_ready` (10_state.md R34, 43_sponge_fsm.md R132). -/
def cmdReady (rst : Bool) (s : State) : Bool := !rst && s.ph == .idle

/-- `rsp_valid` (10_state.md R34, 43_sponge_fsm.md R137). -/
def rspValid (rst : Bool) (s : State) : Bool := !rst && s.ph == .rsp

/-- The wires of `rsp_word`. In RSP they are RSPR (43_sponge_fsm.md R137). DESIGN CHOICE: they are RSPR in every other
phase too, where the spec gives them no value (notes/assumptions/19.md). -/
def rspWord (s : State) : Word128 := s.rspr

/-- `p_in_ready` (40_permutation.md R91). -/
def Kp.inReady (rst : Bool) (k : Kp) : Bool := !rst && k.kph == .idle

/-- `p_out_valid` (40_permutation.md R91). -/
def Kp.outValid (rst : Bool) (k : Kp) : Bool := !rst && k.kph == .done

/-- The wires of `p_out_state`, pack(KA) in every phase (40_permutation.md R96). -/
def Kp.outBus (k : Kp) : Bus := packLanes k.ka

/-- The result a client may take from `p_out_state`, one only while `p_out_valid` is 1 (40_permutation.md R96,
70_reset_and_hazards.md R169). DESIGN CHOICE: none otherwise, outside DONE (93_implementation_defined.md U14) and in DONE
while `rst` is 1 alike (notes/assumptions/12.md). -/
def Kp.outState (rst : Bool) (k : Kp) : Option Bus := if Kp.outValid rst k then some k.outBus else none

/-- The state SF drives toward its KP in EXEC at the cycle level, if any: a full block of an ABSORB, the padding block
of a FINALIZE that begins, or a used up Z (43_sponge_fsm.md R134, R135). -/
def kpRequested (s : State) : Option Lanes :=
  if s.ph = .exec ∧ s.level = .cycle ∧ s.cfgValid then
    if cmdOp s.cmdr = 0x2 then (if s.blen = s.rate then some (blockInput s) else none)
    else if cmdOp s.cmdr = 0x3 then
      if !s.started then some (padInput s)
      else if s.opos = s.otot ∨ rspNb s.rspr = 8 then none
      else if s.zpos = s.rate then some s.z
      else none
    else none
  else none

/-- `kp_in_valid` at an edge with pins `p`, 1 when SF has a state to drive (43_sponge_fsm.md R131, R134, R135). DESIGN
CHOICE: it is 0 in WAIT_KP, where the spec gives it no value, and while `rst` is 1 (notes/assumptions/18.md), and at a
stalled edge, at which SF does not drive its request yet (notes/assumptions/9.md). -/
def kpInValid (p : SfPins) (s : State) : Bool := !p.rst && !p.stall && (kpRequested s).isSome

/-- `kp_in_state` at an edge with pins `p`, the packed state while `kp_in_valid` is 1 (43_sponge_fsm.md R131, R134, R135).
DESIGN CHOICE: while it is 0, for want of a state to drive, at a stalled edge or while `rst` is 1, the spec gives the
wires no value, and neither does the model (notes/assumptions/18.md). -/
def kpInState (p : SfPins) (s : State) : Option Bus :=
  if kpInValid p s then (kpRequested s).map packLanes else none

/-- `kp_out_ready`, 1 in WAIT_KP (43_sponge_fsm.md R131, R134). DESIGN CHOICE: it is 0 outside WAIT_KP, where the spec
gives it no value, and while `rst` is 1 (notes/assumptions/18.md). -/
def kpOutReady (rst : Bool) (s : State) : Bool := !rst && s.ph == .waitKp

/-- KPH's encoding (10_state.md R24). -/
def KpPhase.code : KpPhase → BitVec 2
  | .idle => 0
  | .run => 1
  | .done => 2

end Sys2Proof.Machine
end

