-- ==== Sys2Proof/Machine/Edge.lean ====
section
/-! DEFINITION. One rising clock edge of each unit: SF with its KP (43_sponge_fsm.md R132 to R137) and a KP used on its
own (40_permutation.md R92 to R97), with hardware reset (70_reset_and_hazards.md R160, R161). -/

namespace Sys2Proof.Machine

/-! ### Pins -/

/-- Every input of SF at 0, and the reference speed. -/
def SfPins.quiet : SfPins := ⟨false, false, 0, false, false, 1⟩

/-- A host that presents the command `w`. -/
def SfPins.command (w : Word128) : SfPins := { SfPins.quiet with cmdValid := true, cmdWord := w }

/-- A host that takes a response word. -/
def SfPins.taking : SfPins := { SfPins.quiet with rspReady := true }

/-- Every input of a stand-alone KP at 0, and the reference speed. -/
def KpPins.quiet : KpPins := ⟨false, false, 0, false, 1⟩

/-- A client that presents `bus`. -/
def KpPins.feeding (bus : Bus) : KpPins := { KpPins.quiet with pInValid := true, pInState := bus }

/-- A client that takes the result. -/
def KpPins.taking : KpPins := { KpPins.quiet with pOutReady := true }

/-! ### A KP at work -/

/-- One edge of a KP in RUN, of `n` rounds; KRND outside 0..23 is the model's fault (93_implementation_defined.md U16). -/
def kpRun (n : Nat) (k : Kp) (put : Kp → State) : Result :=
  if k.krndLegal then .next (put (k.roundEdges n)) else .fault .krndOutOfRange

/-! ### SF in EXEC and WAIT_KP -/

/-- An EXEC edge of an ABSORB at the cycle level: a full block goes to KP, a byte is staged, or the answer is loaded
(43_sponge_fsm.md R134, notes/assumptions/7.md). -/
def absorbEdge (s : State) : State :=
  if s.blen = s.rate then kpRequest (blockInput s) s
  else if s.ipos.toNat < (cmdN s.cmdr).toNat then putByte (dataByte (cmdData s.cmdr) s.ipos.toNat) s
  else respondOk 0x2 ((cmdN s.cmdr).setWidth 32) s

/-- The first EXEC edge of a FINALIZE at the cycle level: OTOT and OPOS are set and the padding block goes to KP
(43_sponge_fsm.md R135). -/
def finalizeStart (s : State) : State :=
  if s.kp.kph = .idle then
    kpRequest (padInput s) (beginOutput (outputLength ((cmdN s.cmdr).getLsbD 0) (cmdLen s.cmdr) s) s)
  else s

/-- A later EXEC edge of a FINALIZE at the cycle level: the built word is presented, Z goes to KP, or a byte is
emitted (43_sponge_fsm.md R135, notes/assumptions/7.md). -/
def finalizeEdge (s : State) : State :=
  if s.opos = s.otot ∨ rspNb s.rspr = 8 then presentOutput s
  else if s.zpos = s.rate then kpRequest s.z s
  else emitByte s

/-- The first EXEC edge of the latched command. At the transaction level, and for every command that is no legal
ABSORB or FINALIZE of a configured SF, it is the command's meaning (43_sponge_fsm.md R133, R139). -/
def beginCommand (s : State) : Result :=
  match s.level with
  | .transaction => exec (decodeCommand s.cmdr) s
  | .cycle =>
    if s.cfgValid && cmdOp s.cmdr == 0x2 && decide ((cmdN s.cmdr).toNat ≤ Config.beatBytes) then
      .next (absorbEdge { s with ipos := 0, started := true })
    else if s.cfgValid && cmdOp s.cmdr == 0x3 then .next (finalizeStart s)
    else exec (decodeCommand s.cmdr) s

/-- A later EXEC edge: ABSORB goes on with its bytes, FINALIZE with its next response word, built in one step at the
transaction level (43_sponge_fsm.md R134, R135, R137, R139). -/
def continueCommand (s : State) : State :=
  if cmdOp s.cmdr = 0x2 then absorbEdge s
  else
    match s.level with
    | .transaction => outputWord s
    | .cycle => finalizeEdge s

/-- KP's output handshake toward SF: the result goes to S for an ABSORB and to Z for a FINALIZE
(43_sponge_fsm.md R134, R135). -/
def takeKpResult (s : State) : State :=
  let t := { s with kp := s.kp.take, ph := .exec }
  if cmdOp t.cmdr = 0x2 then finishBlock t else loadZ t

/-- An edge of WAIT_KP, in which SF holds `kp_out_ready` = 1, so that the result is taken at the first edge at which KP
shows it (40_permutation.md R95, 43_sponge_fsm.md R134); KP applies `n` rounds while in RUN. -/
def waitEdge (n : Nat) (s : State) : Result :=
  match s.kp.kph with
  | .idle => .next s
  | .run => kpRun n s.kp fun k => { s with kp := k }
  | .done => .next (takeKpResult s)

/-! ### The edge of SF -/

/-- The registers of SF and its KP take their reset values, whatever was in progress (70_reset_and_hazards.md R160,
R161); the stand-alone KP and the model's record of the outside are no register of this unit. -/
def hardwareReset (s : State) : State :=
  { State.reset with alone := s.alone, level := s.level, inputs := s.inputs, offer := s.offer, received := s.received,
                     kpTaken := s.kpTaken, kpStarts := s.kpStarts }

/-- The host drops or changes a command it has raised before the transfer (70_reset_and_hazards.md R166). -/
def breaksOffer (p : SfPins) (s : State) : Bool :=
  match s.offer with
  | none => false
  | some w => !(p.cmdValid && p.cmdWord == w)

/-- The command still raised after this edge: one that is valid and does not transfer. -/
def offerAfter (p : SfPins) (s : State) : Option Word128 :=
  if p.cmdValid && !cmdReady p.rst s then some p.cmdWord else none

/-- The command is accepted: CMDR <- cmd_word, PH <- EXEC (43_sponge_fsm.md R132). -/
def acceptCommand (w : Word128) (s : State) : State := { s with cmdr := w, ph := .exec, started := false }

/-- The presented response word transfers: PH <- IDLE after the LAST word, EXEC after another, where the next word
starts empty (43_sponge_fsm.md R137). -/
def transferResponse (s : State) : State :=
  let t := { s with received := s.received ++ [rspWord s] }
  if rspLast s.rspr then { t with ph := .idle } else { t with ph := .exec, rspr := emptyWord s.otot }

/-- What the registers do at an edge without reset, by PH (43_sponge_fsm.md R132 to R137). A stalled edge is one of SF's
own cycles in EXEC (00_scope.md R9, notes/assumptions/9.md). -/
def sfWork (p : SfPins) (s : State) : Result :=
  match s.ph with
  | .idle => .next (if p.cmdValid then acceptCommand p.cmdWord s else s)
  | .exec => if p.stall then .next s else if s.started then .next (continueCommand s) else beginCommand s
  | .waitKp => waitEdge p.rounds s
  | .rsp => .next (if p.rspReady then transferResponse s else s)

/-- A rising edge of SF's clock with pins `p` (70_reset_and_hazards.md R160). -/
def sfEdge (p : SfPins) (s : State) : Result :=
  if p.rst then .next { hardwareReset s with offer := offerAfter p s }
  else if breaksOffer p s then .refused .hostChangedCommand
  else sfWork p { s with offer := offerAfter p s }

/-! ### The edge of a stand-alone KP -/

/-- The result is taken: KPH <- IDLE (40_permutation.md R95). -/
def takeKpOutput (s : State) : State :=
  { s with alone := s.alone.take, kpTaken := s.kpTaken ++ [s.alone.outBus] }

/-- A rising edge of a stand-alone KP's clock with pins `p` (40_permutation.md R92 to R97). -/
def kpEdge (p : KpPins) (s : State) : Result :=
  if p.rst then .next { s with alone := Kp.reset }
  else
    match s.alone.kph with
    | .idle => if p.pInValid then exec (.permute p.pInState) s else .next s
    | .run => kpRun p.rounds s.alone fun k => { s with alone := k }
    | .done => .next (if p.pOutReady then takeKpOutput s else s)

/-- One step of the machine: the next edge of the agenda. Once it is empty every input is 0, and a stand-alone KP in RUN
has its edges until it is DONE, so that its computation ends (00_scope.md R9), then SF has them
(notes/assumptions/2.md). -/
def stepInput (s : State) : Result :=
  match s.inputs with
  | [] => if s.alone.kph = .run then kpEdge KpPins.quiet s else sfEdge SfPins.quiet s
  | .sf p :: rest => sfEdge p { s with inputs := rest }
  | .kp p :: rest => kpEdge p { s with inputs := rest }

/-! ### Placing an instruction where the next step runs it -/

/-- The word stands in CMDR with PH = EXEC, nothing of it done, at the transaction level, and the next edge is SF's
with quiet pins (notes/assumptions/3.md). -/
def placeCommand (w : Word128) (s : State) : State :=
  { s with cmdr := w, ph := .exec, started := false, level := .transaction, offer := none,
           inputs := .sf SfPins.quiet :: s.inputs }

/-- The stand-alone KP is idle and its client presents `bus` at the next edge (notes/assumptions/3.md). -/
def placePermute (bus : Bus) (s : State) : State :=
  { s with alone := { s.alone with kph := .idle }, inputs := .kp (KpPins.feeding bus) :: s.inputs }

end Sys2Proof.Machine
end

