-- ==== Sys2Proof/Machine/Step.lean ====
section
/-! DEFINITION. The step function of the machine, and placing an instruction where the next step fetches it. -/

namespace Sys2Proof.Machine

/-- One rising clock edge of the unit that moves next. -/
def step (s : State) : Host.Outcome State Fault Refusal := stepInput s

/-- `s` with the instruction whose bits are `w` placed where the next step runs it: 1 to 128 bits are a command word,
more, or none, a KP input bus (notes/assumptions/3.md). -/
def State.withFetchWord (s : State) (nbits w : Nat) : State :=
  if nbits = 0 ∨ 128 < nbits then placePermute (BitVec.ofNat 1600 (w % 2 ^ nbits)) s
  else placeCommand (BitVec.ofNat 128 (w % 2 ^ nbits)) s

end Sys2Proof.Machine
end

