-- ==== Sys2Proof/Machine/Assembler.lean ====
section
/-! DEFINITION. The assembler's lines (30_encoding.md R76) and pseudo-commands (R77). They have no meaning of their own:
a line is a command word, a pseudo-command a list of lines. -/

namespace Sys2Proof.Machine

/-- A line, with the numbers as written. -/
inductive AsmLine where
  | nop
  /-- `CONFIG <FAMILY>`; `len` is written for the two SHAKE families only. -/
  | configPreset (fc : Fin 10) (len : Option Nat)
  /-- `CONFIG CUSTOM_FIXED rate=<r> suffix=<s> len=<L>`. -/
  | configFixed (rate suffix len : Nat)
  /-- `CONFIG CUSTOM_XOF rate=<r> suffix=<s> [len=<L>]`. -/
  | configXof (rate suffix : Nat) (len : Option Nat)
  /-- `ABSORB <n>, <data64>`. -/
  | absorb (n data : Nat)
  /-- `ABSORB [b0, ..., b(n−1)]`. -/
  | absorbList (bytes : List Nat)
  /-- `FINALIZE` or `FINALIZE len=<L>`. -/
  | finalize (len : Option Nat)
  | reset
  /-- `QUERY BSIZE`, `OSIZE`, `STATUS` or `SUFFIX`. -/
  | query (sel : Fin 4)
  /-- `.word <hex128>`. -/
  | word (w : Nat)
  deriving DecidableEq, Repr

/-- `v` in a field of `w` bits; a value that does not fit is an assembler error (30_encoding.md R76). -/
def asmField (w v : Nat) : Option (BitVec w) := if v < 2 ^ w then some (BitVec.ofNat w v) else none

/-- All the bytes, or an error when one does not fit. -/
def asmBytes : List Nat → Option (List Byte)
  | [] => some []
  | b :: bs =>
    match asmField 8 b, asmBytes bs with
    | some b, some bs => some (b :: bs)
    | _, _ => none

/-- A CONFIG line's word. -/
def asmConfig (fc rate suffix len : Nat) : Option Word128 :=
  match asmField 8 rate, asmField 8 suffix, asmField 32 len with
  | some r, some s, some l => some (commandWord 0x1 (BitVec.ofNat 4 fc) r s l 0)
  | _, _, _ => none

/-- An ABSORB line's word. -/
def asmAbsorb (n data : Nat) : Option Word128 :=
  match asmField 4 n, asmField 64 data with
  | some n, some d => some (commandWord 0x2 n 0 0 0 d)
  | _, _ => none

/-- The word of a line, none when it is an assembler error (30_encoding.md R76). -/
def assemble : AsmLine → Option Word128
  | .nop => some (commandWord 0x0 0 0 0 0 0)
  | .configPreset fc none => asmConfig fc.val 0 0 0
  | .configPreset fc (some len) => if 8 ≤ fc.val then asmConfig fc.val 0 0 len else none
  | .configFixed rate suffix len => asmConfig 0xE rate suffix len
  | .configXof rate suffix len => asmConfig 0xF rate suffix (len.getD 0)
  | .absorb n data => asmAbsorb n data
  | .absorbList bytes =>
    match asmBytes bytes with
    | some bs => if bs.length ≤ 8 then asmAbsorb bs.length (packBytes bs).toNat else none
    | none => none
  | .finalize none => some (commandWord 0x3 0 0 0 0 0)
  | .finalize (some len) => (asmField 32 len).map fun l => commandWord 0x3 1 0 0 l 0
  | .reset => some (commandWord 0x4 0 0 0 0 0)
  | .query sel => some (commandWord 0x5 (BitVec.ofNat 4 sel.val) 0 0 0 0)
  | .word w => asmField 128 w

/-- The pseudo-commands (30_encoding.md R77). -/
inductive Pseudo where
  | write (bytes : List Byte)
  | new (fc : Fin 10) (len : Option Nat)
  | sum (len : Option Nat)
  | blockSize
  | outputSize
  deriving DecidableEq, Repr

/-- The lines a pseudo-command stands for (30_encoding.md R77): WRITE is one ABSORB for each eight bytes, and the one
line `ABSORB 0, 0` for none. -/
def expand : Pseudo → List AsmLine
  | .write bytes =>
    if bytes = [] then [.absorb 0 0]
    else (List.range (ceilDiv bytes.length 8)).map fun c =>
      .absorbList (((bytes.drop (8 * c)).take 8).map BitVec.toNat)
  | .new fc len => [.configPreset fc len]
  | .sum len => [.finalize len]
  | .blockSize => [.query 0]
  | .outputSize => [.query 1]

end Sys2Proof.Machine
end

