-- ==== Sys2Proof/Safety.lean ====
section
/-! DEFINITION. The legal states: what the spec says holds between edges (10_state.md R23 to R33, 30_encoding.md R59,
43_sponge_fsm.md R132 to R137). `State.Inv` is all the clauses together. -/

namespace Sys2Proof.Machine

/-- A KP holds KRND in 0..23, and 0 outside RUN (10_state.md R23, 40_permutation.md R92, R93). -/
abbrev Kp.Ok (k : Kp) : Prop := k.krnd.toNat < Config.rounds ∧ (k.kph ≠ .run → k.krnd = 0)

/-- The registers of a construction (10_state.md R28, 30_encoding.md R66, R67, 60_exceptions.md R148). -/
abbrev State.LegalConstruction (s : State) : Prop :=
  1 ≤ s.rate.toNat ∧ s.rate.toNat ≤ Config.stateBytes ∧ s.suffix ≠ 0 ∧
    ((∃ p ∈ presetOf s.fam, s.rate = p.rate ∧ s.suffix = p.suffix ∧ s.xof = p.xof ∧
        (p.xof = false → s.outlen = p.digest)) ∨
      (s.fam = 0xE ∧ s.xof = false) ∨ (s.fam = 0xF ∧ s.xof = true))

/-- The configuration registers hold a legal construction, or their reset values (10_state.md R28). -/
abbrev State.ConfigOk (s : State) : Prop :=
  if s.cfgValid then s.LegalConstruction
  else s.fam = 0 ∧ s.rate = 0 ∧ s.suffix = 0 ∧ s.xof = false ∧ s.outlen = 0

/-- An ABSORB is at work at the cycle level, in EXEC or waiting for KP (43_sponge_fsm.md R134). -/
abbrev State.Absorbing (s : State) : Prop :=
  (s.ph = .exec ∨ s.ph = .waitKp) ∧ s.started = true ∧ cmdOp s.cmdr = 0x2

/-- BLEN < RATE, but for an ABSORB at work where it may reach RATE; while unconfigured the message is empty; BUF is 0
from BLEN on (10_state.md R26, R27). -/
abbrev State.StagingOk (s : State) : Prop :=
  (if s.cfgValid then s.blen.toNat < s.rate.toNat ∨ (s.Absorbing ∧ s.blen = s.rate)
   else s.blen = 0 ∧ s.sponge = zeroLanes) ∧
  ∀ k : Fin 200, s.blen.toNat ≤ k.val → s.buf[k] = 0

/-- A response word as 30_encoding.md R59, R71 allow it: RSVD 0, NB in 0..8, a produced STATUS, DATA 0 from byte NB. -/
abbrev LegalResponse (r : Word128) : Prop :=
  rspRsvd r = 0 ∧ (rspNb r).toNat ≤ 8 ∧ (rspStatus r).toNat ≤ 5 ∧
    ∀ j : Fin 8, (rspNb r).toNat ≤ j.val → dataByte (rspData r) j.val = 0

/-- A FINALIZE has started its output (43_sponge_fsm.md R135): in EXEC, or between two of its words. -/
abbrev State.Emitting (s : State) : Prop :=
  cmdOp s.cmdr = 0x3 ∧ ((s.ph = .exec ∧ s.started = true) ∨ (s.ph = .rsp ∧ rspLast s.rspr = false))

/-- While a FINALIZE emits, the output counters stay in range (10_state.md R32). -/
abbrev State.OutputOk (s : State) : Prop :=
  (s.Emitting → s.zpos.toNat ≤ s.rate.toNat) ∧
  (s.Emitting ∨ (cmdOp s.cmdr = 0x3 ∧ s.ph = .waitKp) → s.opos.toNat ≤ s.otot.toNat)

/-- The phases of SF and of its KP agree with the command in progress (43_sponge_fsm.md R132 to R135). -/
abbrev State.PhaseOk (s : State) : Prop :=
  (s.ph = .waitKp ↔ s.kp.kph ≠ .idle) ∧
  (s.ph = .waitKp → s.started = true) ∧
  ((s.ph = .exec ∨ s.ph = .waitKp) → s.started = true →
    s.cfgValid = true ∧
      ((cmdOp s.cmdr = 0x2 ∧ (cmdN s.cmdr).toNat ≤ Config.beatBytes ∧ s.ipos.toNat ≤ (cmdN s.cmdr).toNat) ∨
        (cmdOp s.cmdr = 0x3 ∧ LegalResponse s.rspr ∧ rspOp s.rspr = 0x3 ∧ rspStatus s.rspr = statusOk ∧
          rspLast s.rspr = false ∧ rspValue s.rspr = s.otot ∧
          (s.level = .transaction → s.rspr = emptyWord s.otot)))) ∧
  (s.ph = .rsp → LegalResponse s.rspr ∧ rspOp s.rspr = cmdOp s.cmdr ∧
    (rspLast s.rspr = false → s.cfgValid = true ∧ s.started = true ∧ cmdOp s.cmdr = 0x3))

/-- A legal state. -/
structure State.Inv (s : State) : Prop where
  kp : s.kp.Ok
  alone : s.alone.Ok
  config : s.ConfigOk
  staging : s.StagingOk
  output : s.OutputOk
  phase : s.PhaseOk

end Sys2Proof.Machine
end

