-- ==== Sys2Proof/Certificates/Slice0/Obligations.lean ====
section
/-! DEFINITION. The statements for the provers, in the order of OBLIGATIONS.json. The helpers under Sys2Proof.Claims
transcribe what a rule of the spec says where no definition of the machine does. -/

open Sys2Proof Sys2Proof.Machine

namespace Sys2Proof.Claims

/-- `n` steps of the machine. -/
abbrev run (n : Nat) (s : State) : Result := Host.Core.run Sys2Proof.core n s

/-- The state after one response word is presented and nothing else is done. -/
abbrev answered (r : Word128) (s : State) : State := { s with rspr := r, ph := .rsp }

/-- The state after an accepted CONFIG with these registers (42_commands.md R116 to R118). -/
def constructed (fam : Nibble) (rate suffix : Byte) (xof : Bool) (outlen : Word32) (s : State) : State :=
  { s with cfgValid := true, fam := fam, rate := rate, suffix := suffix, xof := xof, outlen := outlen,
           sponge := Vector.replicate 25 0, buf := Vector.replicate 200 0, blen := 0,
           rspr := responseWord 0x1 0x0 0 true (rate.setWidth 32) 0, ph := .rsp }

/-- A configured SF between commands: 1 ≤ RATE ≤ 200 and BLEN < RATE (10_state.md R27, R28). -/
abbrev Ready (s : State) : Prop :=
  s.cfgValid = true ∧ 1 ≤ s.rate.toNat ∧ s.rate.toNat ≤ 200 ∧ s.blen.toNat < s.rate.toNat

/-- The persistent state of SF (10_state.md R25 to R28). -/
abbrev SamePersistent (s t : State) : Prop :=
  t.sponge = s.sponge ∧ t.buf = s.buf ∧ t.blen = s.blen ∧ t.cfgValid = s.cfgValid ∧ t.fam = s.fam ∧ t.rate = s.rate ∧
    t.suffix = s.suffix ∧ t.xof = s.xof ∧ t.outlen = s.outlen

/-- The configuration registers (10_state.md R28). -/
abbrev SameConfig (s t : State) : Prop :=
  t.cfgValid = s.cfgValid ∧ t.fam = s.fam ∧ t.rate = s.rate ∧ t.suffix = s.suffix ∧ t.xof = s.xof ∧ t.outlen = s.outlen

/-- Commands executed one after another, with the first response word of each. -/
def execAll : List Word128 → State → Option (State × List Word128)
  | [], s => some (s, [])
  | w :: ws, s =>
    match exec (decodeCommand w) s with
    | .next t => (execAll ws t).map fun q => (q.1, t.rspr :: q.2)
    | _ => none

/-- The ABSORB word of a chunk of at most eight bytes (30_encoding.md R76). -/
def absorbWord (c : List Byte) : Word128 := commandWord 0x2 (BitVec.ofNat 4 c.length) 0 0 0 (packBytes c)

/-- The ABSORB rows of the table with a legal count, with their byte counts. -/
def absorbRows (d : Lane) : List (Instr × Nat) :=
  [(.absorb0, 0), (.absorb1 d, 1), (.absorb2 d, 2), (.absorb3 d, 3), (.absorb4 d, 4), (.absorb5 d, 5), (.absorb6 d, 6),
   (.absorb7 d, 7), (.absorb8 d, 8)]

/-- The ABSORB rows with a bad count. -/
def absorbBadRows : List Instr :=
  [.absorbBad9, .absorbBad10, .absorbBad11, .absorbBad12, .absorbBad13, .absorbBad14, .absorbBad15]

/-- The QUERY rows with a bad selector. -/
def queryBadRows : List Instr :=
  [.queryBad4, .queryBad5, .queryBad6, .queryBad7, .queryBad8, .queryBad9, .queryBadA, .queryBadB, .queryBadC,
   .queryBadD, .queryBadE, .queryBadF]

/-- The rows with an illegal opcode, with their OP. -/
def illegalRows : List (Instr × Nibble) :=
  [(.illegalOp6, 0x6), (.illegalOp7, 0x7), (.illegalOp8, 0x8), (.illegalOp9, 0x9), (.illegalOpA, 0xA),
   (.illegalOpB, 0xB), (.illegalOpC, 0xC), (.illegalOpD, 0xD), (.illegalOpE, 0xE), (.illegalOpF, 0xF)]

/-- The next edge is a reset edge of SF. -/
abbrev ResetEdge (s : State) : Prop := ∃ p rest, s.inputs = .sf p :: rest ∧ p.rst = true

/-- The next edge is one of SF with these pins: the agenda's head, or a quiet one once the agenda is empty and no
stand-alone KP is in RUN. -/
abbrev SfEdgeNext (s : State) (p : SfPins) (rest : List Input) : Prop :=
  s.inputs = .sf p :: rest ∨ (s.inputs = [] ∧ s.alone.kph ≠ .run ∧ rest = [] ∧ p = SfPins.quiet)

/-- The next edge is one of the stand-alone KP with these pins: the agenda's head, or a quiet one once the agenda is
empty and that KP is in RUN. -/
abbrev KpEdgeNext (s : State) (p : KpPins) (rest : List Input) : Prop :=
  s.inputs = .kp p :: rest ∨ (s.inputs = [] ∧ s.alone.kph = .run ∧ rest = [] ∧ p = KpPins.quiet)

/-- A command raised before and not transferred (`o`) is still there at an edge with pins `p`
(70_reset_and_hazards.md R166). -/
abbrev Holds (o : Option Word128) (p : SfPins) : Prop := ∀ w, o = some w → p.cmdValid = true ∧ p.cmdWord = w

/-- The command raised at an edge at which none is accepted. -/
abbrev raised (p : SfPins) : Option Word128 := if p.cmdValid then some p.cmdWord else none

/-- A host that holds its commands over these edges, none of which accepts one. -/
def HoldsOver : Option Word128 → List SfPins → Prop
  | _, [] => True
  | o, p :: ps => Holds o p ∧ HoldsOver (raised p) ps

/-- A KP in RUN after an edge of `n` rounds. -/
def afterRounds (n : Nat) (k : Kp) : Kp :=
  if 24 ≤ k.krnd.toNat + n then { ka := roundsFrom k.krnd.toNat (24 - k.krnd.toNat) k.ka, krnd := 0, kph := .done }
  else { ka := roundsFrom k.krnd.toNat n k.ka, krnd := BitVec.ofNat 5 (k.krnd.toNat + n), kph := .run }

end Sys2Proof.Claims

open Sys2Proof.Claims

/-! ## Encoding -/

/-- 30_encoding.md sections 2 to 5: decoding an encoded well-formed instruction gives it back, for every operand. -/
def Obligations.DecodeOfEncodeGivesTheInstruction : Prop :=
  ∀ i : Instr, i.wellFormed = true → decode (encode i) = .ok i

/-- 30_encoding.md R74: every 128-bit word decodes, to a well-formed instruction whose own encoding has the word's OP,
RSVD 0, and decodes to the same instruction; bytes decode exactly when they are 16 or 200. -/
def Obligations.DecodingIsTotalAndCanonical : Prop :=
  (∀ w : Word128, (decodeCommand w).wellFormed = true ∧
    ∃ w', encodePacket (decodeCommand w) = .command w' ∧ cmdOp w' = cmdOp w ∧ cmdRsvd w' = 0 ∧
      decodeCommand w' = decodeCommand w) ∧
  ∀ bs : List Byte, (∃ i, decode bs = .ok i) ↔ bs.length = 16 ∨ bs.length = 200

/-- 30_encoding.md R65 with R61 to R64, R69: two words that agree on every field their command reads are the same
command in every state; a FINALIZE reads USE_LEN and LEN on an XOF construction only. -/
def Obligations.IgnoredFieldsChangeNothing : Prop :=
  ∀ (w w' : Word128) (s : State), cmdOp w = cmdOp w' →
    (cmdOp w = 0x1 → cmdN w = cmdN w' ∧
      (cmdN w = 0x8 ∨ cmdN w = 0x9 ∨ cmdN w = 0xE ∨ cmdN w = 0xF → cmdLen w = cmdLen w') ∧
      (cmdN w = 0xE ∨ cmdN w = 0xF → cmdRate w = cmdRate w' ∧ cmdSufx w = cmdSufx w')) →
    (cmdOp w = 0x2 → cmdN w = cmdN w' ∧
      ((cmdN w).toNat ≤ 8 → ∀ j, j < (cmdN w).toNat → dataByte (cmdData w) j = dataByte (cmdData w') j)) →
    (cmdOp w = 0x3 → s.xof = true → (cmdN w).getLsbD 0 = (cmdN w').getLsbD 0 ∧
      ((cmdN w).getLsbD 0 = true → cmdLen w = cmdLen w')) →
    (cmdOp w = 0x5 → cmdN w = cmdN w') →
    exec (decodeCommand w) s = exec (decodeCommand w') s

/-- 30_encoding.md R58, R60, R61, R65: words written out from the spec's encodings, one at least of each legal opcode and
one of an illegal one, decode to their instructions; NOP and RESET with every bit they ignore set, too. -/
def Obligations.SpecWordsDecode : Prop :=
  decodeCommand 0x00000000000000000000000000000011 = .configSha3_256 ∧
  decodeCommand 0x0000000000000000000000050006C8E1 = .configCustomFixed 200 6 5 ∧
  decodeCommand 0x000000000000000000000014001F07F1 = .configCustomXof 7 0x1F 20 ∧
  decodeCommand 0xFFFFFFFFFFFF62610000000000000022 = .absorb2 0x6261 ∧
  decodeCommand 0x00000000000000000000001000000013 = .finalizeLen 16 ∧
  decodeCommand 0xFFFFFFFFFFFFFFFFFFFFFFFF00FFFFF0 = .nop ∧
  decodeCommand 0xFFFFFFFFFFFFFFFFFFFFFFFFFFFFFFF0 = .nop ∧
  decodeCommand 0x00000000000000000000000000000004 = .reset ∧
  decodeCommand 0xFFFFFFFFFFFFFFFFFFFFFFFFFFFFFFF4 = .reset ∧
  decodeCommand 0x00000000000000000000000000000025 = .queryStatus ∧
  decodeCommand 0x000000000000000000000000000000FF = .illegalOpF

/-- 30_encoding.md R59: the fields of a response word stand at their bits and RSVD is 0. -/
def Obligations.ResponseFieldsStandAtTheirBits : Prop :=
  ∀ (op status nb : Nibble) (last : Bool) (value : Word32) (data : Lane),
    let r := responseWord op status nb last value data
    r.extractLsb' 0 4 = op ∧ r.extractLsb' 4 4 = status ∧ r.extractLsb' 8 4 = nb ∧ r.getLsbD 12 = last ∧
      r.extractLsb' 13 19 = 0 ∧ r.extractLsb' 32 32 = value ∧ r.extractLsb' 64 64 = data

/-! ## The permutation -/

/-- 40_permutation.md R82 to R86: each step mapping, lane by lane, as its rule writes it. -/
def Obligations.StepMappingsByLane : Prop :=
  ∀ (A : Lanes) (x y : Nat), x < 5 → y < 5 →
    let C := fun x => laneAt A x 0 ^^^ laneAt A x 1 ^^^ laneAt A x 2 ^^^ laneAt A x 3 ^^^ laneAt A x 4
    laneAt (theta A) x y = laneAt A x y ^^^ (C (x + 4) ^^^ (C (x + 1)).rotateLeft 1) ∧
    laneAt (rho A) x y = (laneAt A x y).rotateLeft (rhoOffset x y) ∧
    laneAt (pi A) y (2 * x + 3 * y) = laneAt A x y ∧
    laneAt (chi A) x y = laneAt A x y ^^^ (~~~(laneAt A (x + 1) y) &&& laneAt A (x + 2) y) ∧
    ∀ i, laneAt (iota A i) x y = if x = 0 ∧ y = 0 then laneAt A 0 0 ^^^ roundConstant i else laneAt A x y

/-- 40_permutation.md section 1: the rho offsets and the round constants are the ones their generation rules give, the table
of pi is the relabelling (x, y) → (y, 2x + 3y), and pi moves lanes by that table. -/
def Obligations.ConstantTablesAreGenerated : Prop :=
  (rhoOffset 0 0 = 0 ∧ (∀ p ∈ rhoWalk 24 0 1 0, rhoTable.getD p.1 0 = p.2) ∧
    ∀ i, 1 ≤ i → i < 25 → i ∈ (rhoWalk 24 0 1 0).map Prod.fst) ∧
  (∀ i : Fin 24, roundConstant i.val = generatedConstant i.val) ∧
  (∀ x y : Fin 5, piTable.getD (y.val + 5 * ((2 * x.val + 3 * y.val) % 5)) 0 = x.val + 5 * y.val) ∧
  ∀ (A : Lanes) (d : Fin 25), ∃ h : piTable.getD d.val 0 < 25, (pi A)[d] = A[piTable.getD d.val 0]

/-- 40_permutation.md R87, R88: KeccakF is the 24 rounds in increasing order, each theta, rho, pi, chi, iota. -/
def Obligations.KeccakFIsTwentyFourRounds : Prop :=
  ∀ A : Lanes, keccakF A = (List.range 24).foldl (fun B i => iota (chi (pi (rho (theta B)))) i) A

/-- 40_permutation.md R90: each step mapping, and so KeccakF, is a bijection of the 1600-bit states. -/
def Obligations.KeccakFIsBijective : Prop :=
  Function.Bijective theta ∧ Function.Bijective rho ∧ Function.Bijective pi ∧ Function.Bijective chi ∧
    (∀ i, Function.Bijective fun A => iota A i) ∧ Function.Bijective keccakF

/-! ## The KP block -/

/-- 40_permutation.md R92: the input handshake, as the instruction and as an edge. -/
def Obligations.PermuteLoadsAnIdleKp : Prop :=
  (∀ (s : State) (bus : Bus), s.alone.kph = .idle →
    exec (.permute bus) s = .next { s with alone := { ka := unpackLanes bus, krnd := 0, kph := .run } }) ∧
  ∀ (s : State) (p : KpPins) (rest : List Input), s.inputs = .kp p :: rest → p.rst = false → s.alone.kph = .idle →
    step s = .next (if p.pInValid
      then { s with inputs := rest, alone := { ka := unpackLanes p.pInState, krnd := 0, kph := .run } }
      else { s with inputs := rest })

/-- 40_permutation.md R97: while KPH ≠ IDLE an input is not accepted, and changes of `p_in_valid` and `p_in_state` have
no effect, for the instruction and at an edge. -/
def Obligations.BusyKpIgnoresItsInput : Prop :=
  ∀ (s : State) (bus : Bus), s.alone.kph ≠ .idle →
    exec (.permute bus) s = .next s ∧ Kp.inReady false s.alone = false ∧
    ∀ (p : KpPins) (b : Bool) (rest : List Input), p.rst = false →
      step { s with inputs := .kp { p with pInValid := b, pInState := bus } :: rest } =
        step { s with inputs := .kp p :: rest }

/-- 40_permutation.md, section The KP block: an edge of a KP in RUN. With one round an edge (`p.rounds` = 1, the
reference) it is the round cycle; the number of rounds is the model's own, for the other latencies of 00_scope.md
(notes/assumptions/9.md). -/
def Obligations.KpRoundCycle : Prop :=
  ∀ (s : State) (p : KpPins) (rest : List Input), KpEdgeNext s p rest → p.rst = false → s.alone.kph = .run →
    s.alone.krnd.toNat < 24 →
    step s = .next { s with inputs := rest, alone := afterRounds p.rounds s.alone } ∧
    (p.rounds = 0 → step s = .next { s with inputs := rest }) ∧
    (p.rounds = 1 → step s = .next { s with
      inputs := rest
      alone := if s.alone.krnd = 23 then { ka := round s.alone.ka 23, krnd := 0, kph := .done }
        else { ka := round s.alone.ka s.alone.krnd.toNat, krnd := s.alone.krnd + 1, kph := .run } })

/-- 40_permutation.md R94, 00_scope.md R9: from the input handshake, edges with 24 rounds among them, however they are
spread, leave KPH = DONE and KA = KeccakF of the input; and once the agenda is empty a KP in RUN finishes (the spread
is notes/assumptions/9.md, the empty agenda notes/assumptions/2.md). -/
def Obligations.TwentyFourRoundEdgesGiveKeccakF : Prop :=
  (∀ (s : State) (bus : Bus) (edges : List KpPins) (rest : List Input), s.alone.kph = .idle →
    (∀ p ∈ edges, p.rst = false ∧ p.pOutReady = false) → 24 ≤ (edges.map KpPins.rounds).sum →
    s.inputs = .kp (KpPins.feeding bus) :: edges.map Input.kp ++ rest →
    run (1 + edges.length) s =
      .next { s with inputs := rest, alone := { ka := keccakF (unpackLanes bus), krnd := 0, kph := .done } }) ∧
  ∀ s : State, s.inputs = [] → s.alone.kph = .run → s.alone.krnd.toNat < 24 →
    run (24 - s.alone.krnd.toNat) s = .next { s with alone :=
      { ka := roundsFrom s.alone.krnd.toNat (24 - s.alone.krnd.toNat) s.alone.ka, krnd := 0, kph := .done } }

/-- 40_permutation.md R95: in DONE the result is on the bus and no input is accepted; the output handshake returns KP to
IDLE with KA kept, and without `p_out_ready` it stays in DONE. -/
def Obligations.KpOutputHandshake : Prop :=
  ∀ (s : State) (p : KpPins) (rest : List Input), s.inputs = .kp p :: rest → p.rst = false → s.alone.kph = .done →
    Kp.outValid false s.alone = true ∧ Kp.outState false s.alone = some (packLanes s.alone.ka) ∧
    Kp.inReady false s.alone = false ∧
    step s = .next (if p.pOutReady
      then { s with inputs := rest, alone := { s.alone with kph := .idle }, kpTaken := s.kpTaken ++ [packLanes s.alone.ka] }
      else { s with inputs := rest })

/-- 20_memory.md R44: bit 64i + z of the bus is bit z of lane i, bus byte k is StateByte(A, k), and the packing loses
nothing. -/
def Obligations.BusPacking : Prop :=
  (∀ (A : Lanes) (i : Fin 25) (z : Nat), z < 64 → (packLanes A).getLsbD (64 * i.val + z) = A[i].getLsbD z) ∧
  (∀ (A : Lanes) (k : Nat), k < 200 → (packLanes A).extractLsb' (8 * k) 8 = stateByte A k) ∧
  (∀ A : Lanes, unpackLanes (packLanes A) = A) ∧ ∀ bus : Bus, packLanes (unpackLanes bus) = bus

/-! ## Bytes -/

/-- 20_memory.md R39: StateByte(A, k) is its eight bits of lane k div 8; writing it replaces exactly those. -/
def Obligations.StateByteReadAndWrite : Prop :=
  ∀ (A : Lanes) (k : Nat) (v : Byte), k < 200 →
    (∃ h : k / 8 < 25, stateByte A k = A[k / 8].extractLsb' (8 * (k % 8)) 8) ∧
    stateByte (setStateByte A k v) k = v ∧ ∀ j, j < 200 → j ≠ k → stateByte (setStateByte A k v) j = stateByte A j

/-- 20_memory.md R40: Bytes and Lanes are inverse to each other. -/
def Obligations.BytesAndLanesAreInverse : Prop :=
  (∀ A : Lanes, bytesLanes (stateBytes A) = A) ∧ ∀ s : List Byte, s.length = 200 → stateBytes (bytesLanes s) = s

/-! ## The sponge functions -/

/-- 41_sponge.md R98: XorBlock byte by byte, and word by word when the block is whole lanes. -/
def Obligations.XorBlockByBytesAndWords : Prop :=
  ∀ (A : Lanes) (blk : List Byte), blk.length ≤ 200 →
    (∀ k, k < 200 → stateByte (xorBlock A blk) k =
      if k < blk.length then stateByte A k ^^^ blk.getD k 0 else stateByte A k) ∧
    (blk.length % 8 = 0 → ∀ i : Fin 25, (xorBlock A blk)[i] =
      if i.val < blk.length / 8 then A[i] ^^^ packBytes ((blk.drop (8 * i.val)).take 8) else A[i])

/-- 41_sponge.md R103: the padded block. -/
def Obligations.PadIsOneBlock : Prop :=
  ∀ (rate : Nat) (suffix : Byte) (t : List Byte), t.length < rate →
    (pad rate suffix t).length = rate ∧
    (∀ j, j + 1 < rate → (pad rate suffix t).getD j 0 =
      if j < t.length then t.getD j 0 else if j = t.length then suffix else 0) ∧
    (pad rate suffix t).getD (rate - 1) 0 = (if t.length = rate - 1 then suffix else 0) ||| 0x80

/-- 41_sponge.md R106: Squeeze gives exactly L bytes, and byte j is byte j mod RATE of Z_(j div RATE). -/
def Obligations.SqueezeByteByByte : Prop :=
  ∀ (rate : Nat) (Z : Lanes) (L : Nat), 1 ≤ rate → (squeeze rate Z L).length = L ∧
    ∀ j, j < L → (squeeze rate Z L)[j]? = some (stateByte (keccakF^[j / rate] Z) (j % rate))

/-- 41_sponge.md R107, R113: a digest has exactly its length, and a shorter output is a prefix of a longer one. -/
def Obligations.DigestLengthAndPrefix : Prop :=
  ∀ (rate : Nat) (suffix : Byte) (A : Lanes) (t : List Byte) (L : Nat), 1 ≤ rate →
    (digest rate suffix A t L).length = L ∧
    ∀ L', L' ≤ L → digest rate suffix A t L' = (digest rate suffix A t L).take L'

/-! ## The commands -/

/-- 42_commands.md R115. -/
def Obligations.NopOnlyAnswers : Prop :=
  (∀ s : State, exec .nop s = .next (answered 0x00000000000000000000000000001000 s)) ∧
  ∀ w : Word128, cmdOp w = 0x0 → decodeCommand w = .nop

/-- 42_commands.md R116: the ten presets, with the words they are read from. -/
def Obligations.PresetConfigs : Prop :=
  (∀ (s : State) (len : Word32),
    exec .configSha3_224 s = .next (constructed 0x0 144 0x06 false 28 s) ∧
    exec .configSha3_256 s = .next (constructed 0x1 136 0x06 false 32 s) ∧
    exec .configSha3_384 s = .next (constructed 0x2 104 0x06 false 48 s) ∧
    exec .configSha3_512 s = .next (constructed 0x3 72 0x06 false 64 s) ∧
    exec .configKeccak_224 s = .next (constructed 0x4 144 0x01 false 28 s) ∧
    exec .configKeccak_256 s = .next (constructed 0x5 136 0x01 false 32 s) ∧
    exec .configKeccak_384 s = .next (constructed 0x6 104 0x01 false 48 s) ∧
    exec .configKeccak_512 s = .next (constructed 0x7 72 0x01 false 64 s) ∧
    exec (.configShake128 len) s = .next (constructed 0x8 168 0x1F true len s) ∧
    exec (.configShake256 len) s = .next (constructed 0x9 136 0x1F true len s)) ∧
  ∀ w : Word128, cmdOp w = 0x1 →
    (cmdN w = 0x0 → decodeCommand w = .configSha3_224) ∧
    (cmdN w = 0x1 → decodeCommand w = .configSha3_256) ∧
    (cmdN w = 0x2 → decodeCommand w = .configSha3_384) ∧
    (cmdN w = 0x3 → decodeCommand w = .configSha3_512) ∧
    (cmdN w = 0x4 → decodeCommand w = .configKeccak_224) ∧
    (cmdN w = 0x5 → decodeCommand w = .configKeccak_256) ∧
    (cmdN w = 0x6 → decodeCommand w = .configKeccak_384) ∧
    (cmdN w = 0x7 → decodeCommand w = .configKeccak_512) ∧
    (cmdN w = 0x8 → decodeCommand w = .configShake128 (cmdLen w)) ∧
    (cmdN w = 0x9 → decodeCommand w = .configShake256 (cmdLen w))

/-- 42_commands.md R117, R118: a custom construction, accepted when 1 ≤ RATE ≤ 200 and SUFX ≠ 0, refused otherwise
with no other effect, with the words it is read from. -/
def Obligations.CustomConfigs : Prop :=
  (∀ (s : State) (r x : Byte) (len : Word32),
    (1 ≤ r.toNat → r.toNat ≤ 200 → x ≠ 0 →
      exec (.configCustomFixed r x len) s = .next (constructed 0xE r x false len s) ∧
      exec (.configCustomXof r x len) s = .next (constructed 0xF r x true len s)) ∧
    (r = 0 ∨ 200 < r.toNat ∨ x = 0 →
      exec (.configCustomFixed r x len) s = .next (answered 0x00000000000000000000000000001031 s) ∧
      exec (.configCustomXof r x len) s = .next (answered 0x00000000000000000000000000001031 s))) ∧
  ∀ w : Word128, cmdOp w = 0x1 →
    (cmdN w = 0xE → decodeCommand w = .configCustomFixed (cmdRate w) (cmdSufx w) (cmdLen w)) ∧
    (cmdN w = 0xF → decodeCommand w = .configCustomXof (cmdRate w) (cmdSufx w) (cmdLen w))

/-- 42_commands.md R119, 30_encoding.md R68: the reserved family codes. -/
def Obligations.ReservedFamiliesAreRefused : Prop :=
  (∀ s : State, ∀ i ∈ [Instr.configReservedA, .configReservedB, .configReservedC, .configReservedD],
    exec i s = .next (answered 0x00000000000000000000000000001031 s)) ∧
  ∀ w : Word128, cmdOp w = 0x1 → (cmdN w = 0xA → decodeCommand w = .configReservedA) ∧
    (cmdN w = 0xB → decodeCommand w = .configReservedB) ∧ (cmdN w = 0xC → decodeCommand w = .configReservedC) ∧
    (cmdN w = 0xD → decodeCommand w = .configReservedD)

/-- 42_commands.md R120: an ABSORB is an error while unconfigured or with a bad count; otherwise it stages m_0..m_(n−1)
in order and answers VALUE = n, starts one KP computation for each block it completes, and writes nothing else. -/
def Obligations.AbsorbStagesItsBytes : Prop :=
  (∀ (s : State) (d : Lane),
    (s.cfgValid = false → ∀ i ∈ (absorbRows d).map Prod.fst ++ absorbBadRows,
      exec i s = .next (answered 0x00000000000000000000000000001022 s)) ∧
    (s.cfgValid = true → ∀ i ∈ absorbBadRows, exec i s = .next (answered 0x00000000000000000000000000001042 s)) ∧
    (Ready s → ∀ q ∈ absorbRows d, ∃ t, exec q.1 s = .next t ∧
      (t.sponge, stagedTail t) =
        ((List.range q.2).map fun j => d.extractLsb' (8 * j) 8).foldl (stagePair s.rate.toNat) (s.sponge, stagedTail s) ∧
      t.blen.toNat = (stagedTail t).length ∧ t.blen.toNat < s.rate.toNat ∧
      t.kpStarts = s.kpStarts + (s.blen.toNat + q.2) / s.rate.toNat ∧
      t = { s with sponge := t.sponge, buf := t.buf, blen := t.blen, ipos := BitVec.ofNat 4 q.2, started := true,
                   kp := t.kp, kpStarts := t.kpStarts, ph := .rsp,
                   rspr := responseWord 0x2 0x0 0 true (BitVec.ofNat 32 q.2) 0 })) ∧
  ∀ w : Word128, cmdOp w = 0x2 →
    ((cmdN w).toNat ≤ 8 → ∃ d, (decodeCommand w, (cmdN w).toNat) ∈ absorbRows d ∧
      ∀ j, j < (cmdN w).toNat → d.extractLsb' (8 * j) 8 = w.extractLsb' (64 + 8 * j) 8) ∧
    (8 < (cmdN w).toNat → decodeCommand w ∈ absorbBadRows)

/-- 60_exceptions.md, ERR_UNCONFIGURED: the commands that need a construction, on an unconfigured SF. -/
def Obligations.UnconfiguredCommandsAreRefused : Prop :=
  ∀ (s : State) (len : Word32), s.cfgValid = false →
    (∀ i ∈ [Instr.finalize, .finalizeLen len], exec i s = .next (answered 0x00000000000000000000000000001023 s)) ∧
    exec .reset s = .next (answered 0x00000000000000000000000000001024 s) ∧
    ∀ i ∈ [Instr.queryBsize, .queryOsize, .querySuffix] ++ queryBadRows,
      exec i s = .next (answered 0x00000000000000000000000000001025 s)

/-- 42_commands.md, section FINALIZE: on a configured SF it presents the first word of the digest of its length, and
leaves S, BUF, BLEN and the configuration as they are (later words are built edge by edge, notes/assumptions/1.md). -/
def Obligations.FinalizePresentsTheFirstWord : Prop :=
  ∀ (s : State) (len : Word32), Ready s →
    ∀ q ∈ [(Instr.finalize, s.outlen), (.finalizeLen len, if s.xof then len else s.outlen)], ∃ t,
      exec q.1 s = .next t ∧
      (outputWords (digest s.rate.toNat s.suffix s.sponge (stagedTail s) q.2.toNat))[0]? = some t.rspr ∧
      t = { s with rspr := t.rspr, ph := .rsp, started := true, z := t.z, otot := q.2, opos := t.opos, zpos := t.zpos,
                   kp := t.kp, kpStarts := t.kpStarts }

/-- 42_commands.md R121, R122: an unconfigured FINALIZE is an error; on a configured SF, with a host that takes every
word, it transfers exactly the words of its digest in order and ends in IDLE with the persistent state unchanged. It
starts 1 + max(0, ceil(L/RATE) − 1) KP computations (41_sponge.md R108). That a word takes two edges is the model's, of
its transaction level (notes/assumptions/1.md) and its agenda (notes/assumptions/2.md). -/
def Obligations.FinalizeTransfersTheDigest : Prop :=
  (∀ (s : State) (w : Word128), cmdOp w = 0x3 → s.cfgValid = false →
    exec (decodeCommand w) s = .next (answered 0x00000000000000000000000000001023 s)) ∧
  ∀ (s : State) (rest : List Input), Ready s → s.ph = .exec → s.started = false → s.level = .transaction →
    s.offer = none → cmdOp s.cmdr = 0x3 →
    let L := (if s.xof && (cmdN s.cmdr).getLsbD 0 then cmdLen s.cmdr else s.outlen).toNat
    let words := outputWords (digest s.rate.toNat s.suffix s.sponge (stagedTail s) L)
    s.inputs = List.replicate (2 * words.length) (.sf SfPins.taking) ++ rest →
    ∃ t, run (2 * words.length) s = .next t ∧ t.received = s.received ++ words ∧ t.ph = .idle ∧ SamePersistent s t ∧
      t.inputs = rest ∧ t.kpStarts = s.kpStarts + finalizeCalls s.rate.toNat L

/-- 42_commands.md R124: RESET is an error while unconfigured; otherwise it clears the message and keeps the
construction. -/
def Obligations.ResetClearsTheMessage : Prop :=
  (∀ s : State, exec .reset s = .next (if s.cfgValid
    then answered 0x00000000000000000000000000001004
      { s with sponge := Vector.replicate 25 0, buf := Vector.replicate 200 0, blen := 0 }
    else answered 0x00000000000000000000000000001024 s)) ∧
  ∀ w : Word128, cmdOp w = 0x4 → decodeCommand w = .reset

/-- 42_commands.md R125, R126, R128: QUERY BSIZE, OSIZE and SUFFIX. -/
def Obligations.QueriesOfTheConstruction : Prop :=
  (∀ s : State, s.cfgValid = true →
    exec .queryBsize s = .next (answered (responseWord 0x5 0x0 0 true (s.rate.setWidth 32) 0) s) ∧
    exec .queryOsize s = .next (answered (responseWord 0x5 0x0 0 true s.outlen 0) s) ∧
    exec .querySuffix s = .next (answered (responseWord 0x5 0x0 0 true (s.suffix.setWidth 32) 0) s)) ∧
  (∀ s : State, s.cfgValid = false → ∀ i ∈ [Instr.queryBsize, .queryOsize, .querySuffix],
    exec i s = .next (answered 0x00000000000000000000000000001025 s)) ∧
  ∀ w : Word128, cmdOp w = 0x5 → (cmdN w = 0x0 → decodeCommand w = .queryBsize) ∧
    (cmdN w = 0x1 → decodeCommand w = .queryOsize) ∧ (cmdN w = 0x3 → decodeCommand w = .querySuffix)

/-- 42_commands.md R127, 30_encoding.md R72: QUERY STATUS, configured or not; VALUE is 0 in every legal unconfigured
state. -/
def Obligations.QueryStatusReportsTheStatusWord : Prop :=
  (∀ s : State, ∃ v : Word32, exec .queryStatus s = .next (answered (responseWord 0x5 0x0 0 true v 0) s) ∧
    v.getLsbD 0 = s.cfgValid ∧ v.getLsbD 1 = s.xof ∧ v.extractLsb' 2 2 = 0 ∧ v.extractLsb' 4 4 = s.fam ∧
    v.extractLsb' 8 8 = s.blen ∧ v.extractLsb' 16 16 = 0 ∧ (s.Inv → s.cfgValid = false → v = 0)) ∧
  ∀ w : Word128, cmdOp w = 0x5 → cmdN w = 0x2 → decodeCommand w = .queryStatus

/-- 42_commands.md R129: a bad selector, configured or not. -/
def Obligations.BadSelectorsAreRefused : Prop :=
  (∀ s : State, ∀ i ∈ queryBadRows, exec i s = .next (answered (if s.cfgValid
    then 0x00000000000000000000000000001055 else 0x00000000000000000000000000001025) s)) ∧
  ∀ w : Word128, cmdOp w = 0x5 → 0x4 ≤ (cmdN w).toNat → decodeCommand w ∈ queryBadRows

/-- 42_commands.md R130: an illegal opcode, in every state. -/
def Obligations.IllegalOpcodesAreRefused : Prop :=
  (∀ s : State, ∀ q ∈ illegalRows, exec q.1 s = .next (answered (responseWord q.2 0x1 0 true 0 0) s)) ∧
  ∀ w : Word128, 0x6 ≤ (cmdOp w).toNat → (decodeCommand w, cmdOp w) ∈ illegalRows

/-- 60_exceptions.md R146: which error a word reports, in the order of the checks, or none. -/
def Obligations.CheckOrder : Prop :=
  ∀ (w : Word128) (s : State),
    let op := cmdOp w
    let n := cmdN w
    let illegal := 0x6 ≤ op.toNat
    let unconfigured := s.cfgValid = false ∧ (op = 0x2 ∨ op = 0x3 ∨ op = 0x4 ∨ (op = 0x5 ∧ n ≠ 0x2))
    let badConfig := op = 0x1 ∧ ((0xA ≤ n.toNat ∧ n.toNat ≤ 0xD) ∨
      ((n = 0xE ∨ n = 0xF) ∧ (cmdRate w = 0 ∨ 200 < (cmdRate w).toNat ∨ cmdSufx w = 0)))
    let badCount := op = 0x2 ∧ 8 < n.toNat
    let badQuery := op = 0x5 ∧ 3 < n.toNat
    let error := fun status => exec (decodeCommand w) s = .next (answered (responseWord op status 0 true 0 0) s)
    (illegal → error 0x1) ∧ (¬illegal → unconfigured → error 0x2) ∧
    (¬unconfigured → badConfig → error 0x3) ∧ (¬unconfigured → badCount → error 0x4) ∧
    (¬unconfigured → badQuery → error 0x5) ∧
    (¬illegal → ¬unconfigured → ¬badConfig → ¬badCount → ¬badQuery →
      ∃ t, exec (decodeCommand w) s = .next t ∧ rspStatus t.rspr = 0x0 ∧ rspOp t.rspr = op)

/-- 60_exceptions.md R143: a command whose response has a STATUS other than OK answers with that one word and has no
other effect, and SF accepts commands again once the word is taken. -/
def Obligations.ErrorsArePrecise : Prop :=
  ∀ (w : Word128) (s t : State), exec (decodeCommand w) s = .next t → rspStatus t.rspr ≠ 0x0 →
    t = answered (responseWord (cmdOp w) (rspStatus t.rspr) 0 true 0 0) s ∧
    ∀ rest, s.offer = none → ∃ u, step { t with inputs := .sf SfPins.taking :: rest } = .next u ∧
      u.received = s.received ++ [t.rspr] ∧ cmdReady false u = true ∧ SamePersistent s u

/-- 42_commands.md, the command step: the first response word of a command and the persistent state it leaves are
functions of the persistent state before it and of the word alone. -/
def Obligations.CommandsReadOnlyPersistentState : Prop :=
  ∀ (w : Word128) (s t : State), SamePersistent s t → ∃ s' t', exec (decodeCommand w) s = .next s' ∧
    exec (decodeCommand w) t = .next t' ∧ SamePersistent s' t' ∧ s'.rspr = t'.rspr

/-- Every command answers in every state, and touches neither CMDR, the stand-alone KP nor the agenda and records of
the outside (the frame the commands share). -/
def Obligations.EveryCommandAnswers : Prop :=
  ∀ (i : Instr) (s : State), (∀ bus, i ≠ .permute bus) → ∃ t, exec i s = .next t ∧ t.ph = .rsp ∧ t.cmdr = s.cmdr ∧
    t.alone = s.alone ∧ t.level = s.level ∧ t.inputs = s.inputs ∧ t.offer = s.offer ∧ t.received = s.received ∧
    t.kpTaken = s.kpTaken

/-- 10_state.md R29, 30_encoding.md R66: the capacity of each preset family in bits, by its code; RATE is
(1600 − capacity)/8, and the capacity of a fixed family is twice its digest size in bits. -/
def Obligations.PresetCapacities : Prop :=
  ∀ q ∈ [((0x0 : Nibble), 448), (0x1, 512), (0x2, 768), (0x3, 1024), (0x4, 448), (0x5, 512), (0x6, 768), (0x7, 1024),
      (0x8, 256), (0x9, 512)],
    ∃ p, presetOf q.1 = some p ∧ 8 * capacity p.rate = q.2 ∧ p.rate.toNat = (1600 - q.2) / 8 ∧
      (p.xof = true ↔ q.1 = 0x8 ∨ q.1 = 0x9) ∧ (p.xof = false → q.2 = 2 * (8 * p.digest.toNat))

/-! ## The laws of the sponge -/

/-- 41_sponge.md R102: the closed form of the absorbing state after any ABSORB commands from an empty message. -/
def Obligations.ClosedFormOfTheAbsorbingState : Prop :=
  ∀ (s : State) (chunks : List (List Byte)), Ready s → s.sponge = Vector.replicate 25 0 → s.blen = 0 →
    (∀ c ∈ chunks, c.length ≤ 8) →
    let M := chunks.flatten
    let q := M.length / s.rate.toNat
    ∃ t rs, execAll (chunks.map absorbWord) s = some (t, rs) ∧
      t.sponge = absorbedBlocks s.rate.toNat M (Vector.replicate 25 0) q ∧
      t.blen.toNat = M.length % s.rate.toNat ∧ stagedTail t = M.drop (q * s.rate.toNat)

/-- 41_sponge.md R109: however a message is split into chunks, S, BLEN and BUF[0..BLEN−1] end the same. The statement says
it of the whole of BUF: its bytes from BLEN on, which R109 leaves out and 10_state.md R26 leaves open, are the model's,
0 as the reference design's clear leaves them (notes/assumptions/11.md). -/
def Obligations.StreamingEquivalence : Prop :=
  ∀ (s : State) (cs ds : List (List Byte)), Ready s → (∀ k : Fin 200, s.blen.toNat ≤ k.val → s.buf[k] = 0) →
    (∀ c ∈ cs, c.length ≤ 8) → (∀ d ∈ ds, d.length ≤ 8) → cs.flatten = ds.flatten →
    ∃ t u rs qs, execAll (cs.map absorbWord) s = some (t, rs) ∧ execAll (ds.map absorbWord) s = some (u, qs) ∧
      SamePersistent t u

/-- 41_sponge.md R110: RESET after any message leaves the persistent state a CONFIG of the construction leaves, and
RESET twice is RESET once. -/
def Obligations.ResetEqualsFreshConfig : Prop :=
  ∀ (i : Instr) (s c d : State) (ws rs : List Word128), (∃ w, i = decodeCommand w ∧ cmdOp w = 0x1) →
    exec i s = .next c → rspStatus c.rspr = 0x0 → (∀ w ∈ ws, cmdOp w ≠ 0x1) → execAll ws c = some (d, rs) →
    ∃ t u, exec .reset d = .next t ∧ SamePersistent c t ∧ exec .reset t = .next u ∧ u = t

/-- 41_sponge.md R111, 20_memory.md R55: FINALIZE between two parts of a message changes nothing of the message. -/
def Obligations.FinalizeDoesNotDisturbTheMessage : Prop :=
  ∀ (s t u : State) (fin : Word128) (ws vs rs qs : List Word128), cmdOp fin = 0x3 →
    (∀ w ∈ vs, cmdOp w = 0x2) →
    execAll (ws ++ fin :: vs) s = some (t, rs) → execAll (ws ++ vs) s = some (u, qs) → SamePersistent t u

/-- 30_encoding.md R77: WRITE of m bytes is max(1, ceil(m/8)) ABSORB commands, command c of bytes 8c to 8c + 7; they
absorb exactly its bytes, and their VALUEs add up to their number. -/
def Obligations.WriteAbsorbsItsBytes : Prop :=
  ∀ bytes : List Byte,
    let ws := (List.range (max 1 (ceilDiv bytes.length 8))).map fun c => absorbWord ((bytes.drop (8 * c)).take 8)
    (expand (.write bytes)).mapM assemble = some ws ∧ (∀ w ∈ ws, cmdOp w = 0x2) ∧
    ∀ s : State, Ready s → ∃ t rs, execAll ws s = some (t, rs) ∧
      (t.sponge, stagedTail t) = bytes.foldl (stagePair s.rate.toNat) (s.sponge, stagedTail s) ∧
      (rs.map fun r => (rspValue r).toNat).sum = bytes.length

/-- 30_encoding.md R76: the fields each assembler line sets, and that a value that does not fit its field is an error. -/
def Obligations.AssemblerLinesSetTheirFields : Prop :=
  (∀ (r x len : Nat) (l : AsmLine) (fc : Nibble),
    (l, fc) ∈ [(AsmLine.configFixed r x len, (0xE : Nibble)), (.configXof r x (some len), 0xF)] →
    (assemble l = none ↔ 256 ≤ r ∨ 256 ≤ x ∨ 2 ^ 32 ≤ len) ∧
    ∀ w, assemble l = some w → cmdOp w = 0x1 ∧ cmdN w = fc ∧ (cmdRate w).toNat = r ∧ (cmdSufx w).toNat = x ∧
      cmdRsvd w = 0 ∧ (cmdLen w).toNat = len ∧ cmdData w = 0) ∧
  (∀ fc : Fin 10, ∃ w, assemble (.configPreset fc none) = some w ∧ cmdOp w = 0x1 ∧ (cmdN w).toNat = fc.val ∧
    w.extractLsb' 8 120 = 0) ∧
  (∀ (fc : Fin 10) (len : Nat), 8 ≤ fc.val → (assemble (.configPreset fc (some len)) = none ↔ 2 ^ 32 ≤ len) ∧
    ∀ w, assemble (.configPreset fc (some len)) = some w → cmdOp w = 0x1 ∧ (cmdN w).toNat = fc.val ∧
      (cmdLen w).toNat = len ∧ w.extractLsb' 8 24 = 0 ∧ cmdData w = 0) ∧
  (∀ n data : Nat, (assemble (.absorb n data) = none ↔ 16 ≤ n ∨ 2 ^ 64 ≤ data) ∧
    ∀ w, assemble (.absorb n data) = some w → cmdOp w = 0x2 ∧ (cmdN w).toNat = n ∧ (cmdData w).toNat = data ∧
      w.extractLsb' 8 56 = 0) ∧
  (∀ bs : List Nat, (assemble (.absorbList bs) = none ↔ (∃ b ∈ bs, 256 ≤ b) ∨ 8 < bs.length) ∧
    ∀ w, assemble (.absorbList bs) = some w → cmdOp w = 0x2 ∧ (cmdN w).toNat = bs.length ∧
      w.extractLsb' 8 56 = 0 ∧ ∀ j, j < 8 → (dataByte (cmdData w) j).toNat = bs.getD j 0) ∧
  (∀ len : Nat, (assemble (.finalize (some len)) = none ↔ 2 ^ 32 ≤ len) ∧
    ∀ w, assemble (.finalize (some len)) = some w → cmdOp w = 0x3 ∧ cmdN w = 0x1 ∧ (cmdLen w).toNat = len ∧
      w.extractLsb' 8 24 = 0 ∧ cmdData w = 0) ∧
  assemble .nop = some 0x0 ∧ (∀ r x : Nat, assemble (.configXof r x none) = assemble (.configXof r x (some 0))) ∧
  assemble (.finalize none) = some 0x3 ∧ assemble .reset = some 0x4 ∧
  (∀ sel : Fin 4, assemble (.query sel) = some (BitVec.ofNat 128 (0x5 + 16 * sel.val))) ∧
  ∀ v : Nat, assemble (.word v) = if v < 2 ^ 128 then some (BitVec.ofNat 128 v) else none

/-! ## Edges -/

/-- A step in EXEC at the transaction level runs the decoded instruction; `withFetchWord` places one there
(notes/assumptions/3.md). -/
def Obligations.AStepRunsTheDecodedInstruction : Prop :=
  (∀ (s : State) (p : SfPins) (rest : List Input), SfEdgeNext s p rest → p.rst = false → p.stall = false →
    Holds s.offer p → s.ph = .exec → s.started = false → s.level = .transaction →
    step s = exec (decodeCommand s.cmdr) { s with inputs := rest, offer := raised p }) ∧
  (∀ (s : State) (p : KpPins) (rest : List Input), s.inputs = .kp p :: rest → p.rst = false → p.pInValid = true →
    s.alone.kph = .idle → step s = exec (.permute p.pInState) { s with inputs := rest }) ∧
  ∀ (s : State) (nbits w : Nat) (i : Instr), decodeTableWord nbits w = some i →
    ∃ t, step (s.withFetchWord nbits w) = exec i t ∧
      (∀ bus, i = .permute bus → t = { s with alone := { s.alone with kph := .idle } }) ∧
      ((∀ bus, i ≠ .permute bus) → ∃ c, i = decodeCommand c ∧
        t = { s with cmdr := c, ph := .exec, started := false, level := .transaction, offer := none })

/-- 43_sponge_fsm.md R132: `cmd_ready` is PH = IDLE; a command is accepted exactly at an edge with PH = IDLE and
`cmd_valid` = 1, and PH returns to IDLE only when the LAST response word transfers (or at a reset edge). -/
def Obligations.CommandAcceptance : Prop :=
  (∀ s : State, cmdReady false s = true ↔ s.ph = .idle) ∧
  (∀ (s : State) (p : SfPins) (rest : List Input), s.inputs = .sf p :: rest → p.rst = false → s.ph = .idle →
    p.cmdValid = true → (∀ w, s.offer = some w → p.cmdWord = w) →
    step s = .next { s with inputs := rest, cmdr := p.cmdWord, ph := .exec, started := false, offer := none }) ∧
  (∀ (s : State) (p : SfPins) (rest : List Input), SfEdgeNext s p rest → p.rst = false → s.ph = .idle →
    p.cmdValid = false → s.offer = none → step s = .next { s with inputs := rest }) ∧
  (∀ s t : State, step s = .next t → ¬ResetEdge s → t.cmdr ≠ s.cmdr → s.ph = .idle ∧ t.ph = .exec) ∧
  ∀ s t : State, step s = .next t → ¬ResetEdge s → s.ph ≠ .idle → t.ph = .idle →
    s.ph = .rsp ∧ rspLast s.rspr = true ∧ t.received = s.received ++ [s.rspr]

/-- 43_sponge_fsm.md R137: while PH = RSP the response word is RSPR; it transfers at an edge with `rsp_ready`, and SF
holds everything at an edge without, for any number of edges. -/
def Obligations.ResponseHandshake : Prop :=
  (∀ s : State, (rspValid false s = true ↔ s.ph = .rsp) ∧ (s.ph = .rsp → rspWord s = s.rspr)) ∧
  (∀ (s : State) (p : SfPins) (rest : List Input), s.inputs = .sf p :: rest → p.rst = false → s.ph = .rsp →
    Holds s.offer p →
    (p.rspReady = false → step s = .next { s with inputs := rest, offer := raised p }) ∧
    (p.rspReady = true → ∃ t, step s = .next t ∧ t.received = s.received ++ [s.rspr] ∧
      t.ph = (if rspLast s.rspr then .idle else .exec) ∧ SamePersistent s t)) ∧
  ∀ (n : Nat) (s : State) (rest : List Input), s.ph = .rsp → s.offer = none →
    s.inputs = List.replicate n (.sf SfPins.quiet) ++ rest → run n s = .next { s with inputs := rest }

/-- 43_sponge_fsm.md, EXEC for ABSORB and FINALIZE: from every legal state in EXEC at the cycle level, SF drives its KP
exactly when it has a state to drive, and the KP takes that state at the same edge; at a stalled edge SF drives nothing
and nothing changes, at either level (that the handshake is at this edge is notes/assumptions/8.md, the pin `stall`
notes/assumptions/9.md, the wires where the spec gives them no value notes/assumptions/18.md). -/
def Obligations.KpTakesWhatSfDrives : Prop :=
  (∀ (s : State) (p : SfPins) (rest : List Input), SfEdgeNext s p rest → p.rst = false → p.stall = true →
    Holds s.offer p → s.ph = .exec →
    kpInValid p s = false ∧ kpInState p s = none ∧ step s = .next { s with inputs := rest, offer := raised p }) ∧
  ∀ (s : State) (p : SfPins) (rest : List Input), s.Inv → SfEdgeNext s p rest → p.rst = false → p.stall = false →
    Holds s.offer p → s.ph = .exec → s.level = .cycle →
    kpOutReady false s = false ∧ Kp.inReady false s.kp = true ∧ kpInValid p s = (kpRequested s).isSome ∧
    ∃ t, step s = .next t ∧ kpOutReady false t = (kpRequested s).isSome ∧
      match kpInState p s with
      | some bus => t.kp = { ka := unpackLanes bus, krnd := 0, kph := .run } ∧ t.ph = .waitKp
      | none => t.kp = s.kp

/-- 43_sponge_fsm.md, EXEC for ABSORB and FINALIZE: in WAIT_KP SF holds `kp_out_ready`, whatever its pin `stall`; while
KP is in RUN it applies the rounds of the edge, and at the first edge at which it is DONE the result goes to S for an
ABSORB, with the buffer emptied, and to Z for a FINALIZE (the rounds of an edge are notes/assumptions/9.md). -/
def Obligations.KpResultReachesItsRegister : Prop :=
  ∀ (s : State) (p : SfPins) (rest : List Input), SfEdgeNext s p rest → p.rst = false → Holds s.offer p →
    s.ph = .waitKp → kpOutReady false s = true ∧
    (s.kp.kph = .run → s.kp.krnd.toNat < 24 →
      step s = .next { s with inputs := rest, offer := raised p, kp := afterRounds p.rounds s.kp } ∧
      (p.rounds = 0 → step s = .next { s with inputs := rest, offer := raised p })) ∧
    (s.kp.kph = .done → Kp.outValid false s.kp = true ∧
      (cmdOp s.cmdr = 0x2 → step s = .next { s with
        inputs := rest, offer := raised p, ph := .exec, kp := { s.kp with kph := .idle }, sponge := s.kp.ka,
        buf := Vector.replicate 200 0, blen := 0 }) ∧
      (cmdOp s.cmdr = 0x3 → step s = .next { s with
        inputs := rest, offer := raised p, ph := .exec, kp := { s.kp with kph := .idle }, z := s.kp.ka, zpos := 0 }))

/-- 43_sponge_fsm.md R139, 20_memory.md R53: a command with one response word, from acceptance to the transfer. -/
def Obligations.OneWordTransaction : Prop :=
  ∀ (s t : State) (w : Word128) (rest : List Input), s.ph = .idle → s.level = .transaction → s.offer = none →
    s.inputs = .sf (SfPins.command w) :: .sf SfPins.quiet :: .sf SfPins.taking :: rest →
    exec (decodeCommand w) { s with inputs := .sf SfPins.taking :: rest, cmdr := w, ph := .exec, started := false } =
      .next t → rspLast t.rspr = true →
    run 3 s = .next { t with inputs := rest, received := s.received ++ [t.rspr], ph := .idle }

/-- 10_state.md R37, 70_reset_and_hazards.md R160 to R162: a reset edge, whatever was in progress; while `rst` is 1 no
handshake output is, and after the edge SF is ready. That a reset edge of one unit leaves the other, and the records of
the outside, is the model's (notes/assumptions/2.md, notes/assumptions/4.md, notes/assumptions/14.md). -/
def Obligations.HardwareResetFromEveryState : Prop :=
  (∀ s : State, cmdReady true s = false ∧ rspValid true s = false ∧ Kp.inReady true s.alone = false ∧
    Kp.outValid true s.alone = false) ∧
  (∀ (s : State) (p : SfPins) (rest : List Input), s.inputs = .sf p :: rest → p.rst = true → ∃ t, step s = .next t ∧
    (∀ i : Fin 25, t.kp.ka[i] = 0 ∧ t.sponge[i] = 0 ∧ t.z[i] = 0) ∧ t.kp.krnd = 0 ∧ t.kp.kph = .idle ∧
    (∀ k : Fin 200, t.buf[k] = 0) ∧ t.blen = 0 ∧ t.cfgValid = false ∧ t.fam = 0 ∧ t.rate = 0 ∧ t.suffix = 0 ∧
    t.xof = false ∧ t.outlen = 0 ∧ t.otot = 0 ∧ t.opos = 0 ∧ t.zpos = 0 ∧ t.ipos = 0 ∧ t.ph = .idle ∧ t.cmdr = 0 ∧
    t.rspr = 0 ∧ t.received = s.received ∧ t.alone = s.alone ∧ cmdReady false t = true) ∧
  ∀ (s : State) (p : KpPins) (rest : List Input), s.inputs = .kp p :: rest → p.rst = true →
    step s = .next { s with inputs := rest, alone := { ka := Vector.replicate 25 0, krnd := 0, kph := .idle } }

/-- 10_state.md R37: the machine after reset. -/
def Obligations.ResetState : Prop :=
  State.reset.kp = { ka := Vector.replicate 25 0, krnd := 0, kph := .idle } ∧
  State.reset.alone = { ka := Vector.replicate 25 0, krnd := 0, kph := .idle } ∧
  State.reset.sponge = Vector.replicate 25 0 ∧ State.reset.buf = Vector.replicate 200 0 ∧ State.reset.blen = 0 ∧
  State.reset.cfgValid = false ∧ State.reset.fam = 0 ∧ State.reset.rate = 0 ∧ State.reset.suffix = 0 ∧
  State.reset.xof = false ∧ State.reset.outlen = 0 ∧ State.reset.z = Vector.replicate 25 0 ∧ State.reset.otot = 0 ∧
  State.reset.opos = 0 ∧ State.reset.zpos = 0 ∧ State.reset.ipos = 0 ∧ State.reset.ph = .idle ∧
  State.reset.cmdr = 0 ∧ State.reset.rspr = 0

/-- 70_reset_and_hazards.md R166, 93_implementation_defined.md U17: a step is refused exactly when the host breaks
command stability. -/
def Obligations.RefusedExactlyWhenTheHostBreaksStability : Prop :=
  ∀ (s : State) (r : Refusal), step s = .refused r ↔ r = .hostChangedCommand ∧
    ∃ p rest w, SfEdgeNext s p rest ∧ p.rst = false ∧ s.offer = some w ∧ ¬(p.cmdValid = true ∧ p.cmdWord = w)

/-- 60_exceptions.md R159: an idle SF and an idle KP hold their registers. -/
def Obligations.IdleHolds : Prop :=
  (∀ (s : State) (p : SfPins) (rest : List Input), SfEdgeNext s p rest → p.rst = false → p.cmdValid = false →
    s.offer = none → s.ph = .idle → step s = .next { s with inputs := rest }) ∧
  ∀ (s : State) (p : KpPins) (rest : List Input), s.inputs = .kp p :: rest → p.rst = false → p.pInValid = false →
    s.alone.kph = .idle → step s = .next { s with inputs := rest }

/-- 42_commands.md R114, 10_state.md R25, R28, R36: but for a reset edge, only a CONFIG writes the configuration
registers, and only CONFIG, ABSORB and RESET write S, BUF and BLEN. -/
def Obligations.OnlyTheseCommandsWritePersistentState : Prop :=
  ∀ s t : State, step s = .next t → ¬ResetEdge s →
    (SameConfig s t ∨ (s.ph = .exec ∧ cmdOp s.cmdr = 0x1)) ∧
    ((t.sponge = s.sponge ∧ t.buf = s.buf ∧ t.blen = s.blen) ∨
      ((s.ph = .exec ∨ s.ph = .waitKp) ∧ (cmdOp s.cmdr = 0x1 ∨ cmdOp s.cmdr = 0x2 ∨ cmdOp s.cmdr = 0x4)))

/-! ## Invariants and levels -/

/-- The legal states include the machine after reset. -/
def Obligations.ResetIsLegal : Prop := State.reset.Inv

/-- Every step from a legal state ends in a legal state, at either rule level. -/
def Obligations.StepsKeepTheInvariant : Prop := ∀ s t : State, s.Inv → step s = .next t → t.Inv

/-- 93_implementation_defined.md U16: from a legal state no step faults. -/
def Obligations.LegalStatesDoNotFault : Prop := ∀ (s : State) (r : Fault), s.Inv → step s ≠ .fault r

/-- 43_sponge_fsm.md R139 with R133 to R135, 00_scope.md R9: from every legal state in EXEC, at the start of a command or
of a further response word, and over every agenda of edges of SF without reset, with a host that holds its commands and
enough edges that are not stalled, the clock-by-clock design presents the same response word and leaves the same
registers as the one step of the transaction level. (The two levels are notes/assumptions/1.md, the work of a cycle
notes/assumptions/7.md, the speed of an edge notes/assumptions/9.md.) -/
def Obligations.CycleLevelRefinesTransactionLevel : Prop :=
  ∀ (s u : State), s.Inv → s.ph = .exec → s.level = .cycle →
    (s.started = true → cmdOp s.cmdr = 0x3 ∧ s.rspr = emptyWord s.otot) →
    step { s with level := .transaction, offer := none, inputs := [.sf SfPins.quiet] } = .next u →
    ∃ N, ∀ (edges : List SfPins) (rest : List Input), (∀ p ∈ edges, p.rst = false) → HoldsOver s.offer edges →
      N ≤ (edges.filter fun p => !p.stall && decide (0 < p.rounds)).length →
      ∃ n o, n ≤ edges.length ∧ run n { s with inputs := edges.map Input.sf ++ rest } =
        .next { u with level := .cycle, offer := o, inputs := (edges.drop n).map Input.sf ++ rest }
end

