-- ==== Sys2Proof/Laws/State.lean ====
section
/-! SUPPORT. What each named update leaves in each field of State, so that no proof unfolds a record update. -/

namespace Sys2Proof.Machine

@[simp] theorem present_fields (w : Word128) (s : State) :
    (present w s).kp = s.kp ∧ (present w s).sponge = s.sponge ∧ (present w s).buf = s.buf ∧
    (present w s).blen = s.blen ∧ (present w s).cfgValid = s.cfgValid ∧ (present w s).fam = s.fam ∧
    (present w s).rate = s.rate ∧ (present w s).suffix = s.suffix ∧ (present w s).xof = s.xof ∧
    (present w s).outlen = s.outlen ∧ (present w s).z = s.z ∧ (present w s).otot = s.otot ∧
    (present w s).opos = s.opos ∧ (present w s).zpos = s.zpos ∧ (present w s).ipos = s.ipos ∧
    (present w s).ph = .rsp ∧ (present w s).cmdr = s.cmdr ∧ (present w s).rspr = w ∧
    (present w s).alone = s.alone ∧ (present w s).started = s.started ∧ (present w s).level = s.level ∧
    (present w s).inputs = s.inputs ∧ (present w s).offer = s.offer ∧ (present w s).received = s.received ∧
    (present w s).kpTaken = s.kpTaken ∧ (present w s).kpStarts = s.kpStarts := by
  and_intros <;> rfl

@[simp] theorem clearMessage_fields (s : State) :
    (clearMessage s).kp = s.kp ∧ (clearMessage s).sponge = zeroLanes ∧ (clearMessage s).buf = zeroBuffer ∧
    (clearMessage s).blen = 0 ∧ (clearMessage s).cfgValid = s.cfgValid ∧ (clearMessage s).fam = s.fam ∧
    (clearMessage s).rate = s.rate ∧ (clearMessage s).suffix = s.suffix ∧ (clearMessage s).xof = s.xof ∧
    (clearMessage s).outlen = s.outlen ∧ (clearMessage s).z = s.z ∧ (clearMessage s).otot = s.otot ∧
    (clearMessage s).opos = s.opos ∧ (clearMessage s).zpos = s.zpos ∧ (clearMessage s).ipos = s.ipos ∧
    (clearMessage s).ph = s.ph ∧ (clearMessage s).cmdr = s.cmdr ∧ (clearMessage s).rspr = s.rspr ∧
    (clearMessage s).alone = s.alone ∧ (clearMessage s).started = s.started ∧ (clearMessage s).level = s.level ∧
    (clearMessage s).inputs = s.inputs ∧ (clearMessage s).offer = s.offer ∧
    (clearMessage s).received = s.received ∧ (clearMessage s).kpTaken = s.kpTaken ∧
    (clearMessage s).kpStarts = s.kpStarts := by
  and_intros <;> rfl

@[simp] theorem kpCall_fields (A : Lanes) (s : State) :
    (kpCall A s).kp = ⟨keccakF A, 0, .idle⟩ ∧ (kpCall A s).sponge = s.sponge ∧ (kpCall A s).buf = s.buf ∧
    (kpCall A s).blen = s.blen ∧ (kpCall A s).cfgValid = s.cfgValid ∧ (kpCall A s).fam = s.fam ∧
    (kpCall A s).rate = s.rate ∧ (kpCall A s).suffix = s.suffix ∧ (kpCall A s).xof = s.xof ∧
    (kpCall A s).outlen = s.outlen ∧ (kpCall A s).z = s.z ∧ (kpCall A s).otot = s.otot ∧
    (kpCall A s).opos = s.opos ∧ (kpCall A s).zpos = s.zpos ∧ (kpCall A s).ipos = s.ipos ∧ (kpCall A s).ph = s.ph ∧
    (kpCall A s).cmdr = s.cmdr ∧ (kpCall A s).rspr = s.rspr ∧ (kpCall A s).alone = s.alone ∧
    (kpCall A s).started = s.started ∧ (kpCall A s).level = s.level ∧ (kpCall A s).inputs = s.inputs ∧
    (kpCall A s).offer = s.offer ∧ (kpCall A s).received = s.received ∧ (kpCall A s).kpTaken = s.kpTaken ∧
    (kpCall A s).kpStarts = s.kpStarts + 1 := by
  and_intros <;> rfl

@[simp] theorem putByte_fields (b : Byte) (s : State) :
    (putByte b s).kp = s.kp ∧ (putByte b s).sponge = s.sponge ∧
    (putByte b s).buf = s.buf.setIfInBounds s.blen.toNat b ∧ (putByte b s).blen = s.blen + 1 ∧
    (putByte b s).cfgValid = s.cfgValid ∧ (putByte b s).fam = s.fam ∧ (putByte b s).rate = s.rate ∧
    (putByte b s).suffix = s.suffix ∧ (putByte b s).xof = s.xof ∧ (putByte b s).outlen = s.outlen ∧
    (putByte b s).z = s.z ∧ (putByte b s).otot = s.otot ∧ (putByte b s).opos = s.opos ∧
    (putByte b s).zpos = s.zpos ∧ (putByte b s).ipos = s.ipos + 1 ∧ (putByte b s).ph = s.ph ∧
    (putByte b s).cmdr = s.cmdr ∧ (putByte b s).rspr = s.rspr ∧ (putByte b s).alone = s.alone ∧
    (putByte b s).started = s.started ∧ (putByte b s).level = s.level ∧ (putByte b s).inputs = s.inputs ∧
    (putByte b s).offer = s.offer ∧ (putByte b s).received = s.received ∧ (putByte b s).kpTaken = s.kpTaken ∧
    (putByte b s).kpStarts = s.kpStarts := by
  and_intros <;> rfl

@[simp] theorem finishBlock_fields (s : State) :
    (finishBlock s).kp = s.kp ∧ (finishBlock s).sponge = s.kp.ka ∧ (finishBlock s).buf = zeroBuffer ∧
    (finishBlock s).blen = 0 ∧ (finishBlock s).cfgValid = s.cfgValid ∧ (finishBlock s).fam = s.fam ∧
    (finishBlock s).rate = s.rate ∧ (finishBlock s).suffix = s.suffix ∧ (finishBlock s).xof = s.xof ∧
    (finishBlock s).outlen = s.outlen ∧ (finishBlock s).z = s.z ∧ (finishBlock s).otot = s.otot ∧
    (finishBlock s).opos = s.opos ∧ (finishBlock s).zpos = s.zpos ∧ (finishBlock s).ipos = s.ipos ∧
    (finishBlock s).ph = s.ph ∧ (finishBlock s).cmdr = s.cmdr ∧ (finishBlock s).rspr = s.rspr ∧
    (finishBlock s).alone = s.alone ∧ (finishBlock s).started = s.started ∧ (finishBlock s).level = s.level ∧
    (finishBlock s).inputs = s.inputs ∧ (finishBlock s).offer = s.offer ∧ (finishBlock s).received = s.received ∧
    (finishBlock s).kpTaken = s.kpTaken ∧ (finishBlock s).kpStarts = s.kpStarts := by
  and_intros <;> rfl

@[simp] theorem loadZ_fields (s : State) :
    (loadZ s).kp = s.kp ∧ (loadZ s).sponge = s.sponge ∧ (loadZ s).buf = s.buf ∧ (loadZ s).blen = s.blen ∧
    (loadZ s).cfgValid = s.cfgValid ∧ (loadZ s).fam = s.fam ∧ (loadZ s).rate = s.rate ∧
    (loadZ s).suffix = s.suffix ∧ (loadZ s).xof = s.xof ∧ (loadZ s).outlen = s.outlen ∧ (loadZ s).z = s.kp.ka ∧
    (loadZ s).otot = s.otot ∧ (loadZ s).opos = s.opos ∧ (loadZ s).zpos = 0 ∧ (loadZ s).ipos = s.ipos ∧
    (loadZ s).ph = s.ph ∧ (loadZ s).cmdr = s.cmdr ∧ (loadZ s).rspr = s.rspr ∧ (loadZ s).alone = s.alone ∧
    (loadZ s).started = s.started ∧ (loadZ s).level = s.level ∧ (loadZ s).inputs = s.inputs ∧
    (loadZ s).offer = s.offer ∧ (loadZ s).received = s.received ∧ (loadZ s).kpTaken = s.kpTaken ∧
    (loadZ s).kpStarts = s.kpStarts := by
  and_intros <;> rfl

@[simp] theorem beginOutput_fields (L : Word32) (s : State) :
    (beginOutput L s).kp = s.kp ∧ (beginOutput L s).sponge = s.sponge ∧ (beginOutput L s).buf = s.buf ∧
    (beginOutput L s).blen = s.blen ∧ (beginOutput L s).cfgValid = s.cfgValid ∧ (beginOutput L s).fam = s.fam ∧
    (beginOutput L s).rate = s.rate ∧ (beginOutput L s).suffix = s.suffix ∧ (beginOutput L s).xof = s.xof ∧
    (beginOutput L s).outlen = s.outlen ∧ (beginOutput L s).z = s.z ∧ (beginOutput L s).otot = L ∧
    (beginOutput L s).opos = 0 ∧ (beginOutput L s).zpos = s.zpos ∧ (beginOutput L s).ipos = s.ipos ∧
    (beginOutput L s).ph = s.ph ∧ (beginOutput L s).cmdr = s.cmdr ∧ (beginOutput L s).rspr = emptyWord L ∧
    (beginOutput L s).alone = s.alone ∧ (beginOutput L s).started = true ∧ (beginOutput L s).level = s.level ∧
    (beginOutput L s).inputs = s.inputs ∧ (beginOutput L s).offer = s.offer ∧
    (beginOutput L s).received = s.received ∧ (beginOutput L s).kpTaken = s.kpTaken ∧
    (beginOutput L s).kpStarts = s.kpStarts := by
  and_intros <;> rfl

@[simp] theorem emitByte_fields (s : State) :
    (emitByte s).kp = s.kp ∧ (emitByte s).sponge = s.sponge ∧ (emitByte s).buf = s.buf ∧
    (emitByte s).blen = s.blen ∧ (emitByte s).cfgValid = s.cfgValid ∧ (emitByte s).fam = s.fam ∧
    (emitByte s).rate = s.rate ∧ (emitByte s).suffix = s.suffix ∧ (emitByte s).xof = s.xof ∧
    (emitByte s).outlen = s.outlen ∧ (emitByte s).z = s.z ∧ (emitByte s).otot = s.otot ∧
    (emitByte s).opos = s.opos + 1 ∧ (emitByte s).zpos = s.zpos + 1 ∧ (emitByte s).ipos = s.ipos ∧
    (emitByte s).ph = s.ph ∧ (emitByte s).cmdr = s.cmdr ∧
    (emitByte s).rspr = pushByte s.rspr (stateByte s.z s.zpos.toNat) ∧ (emitByte s).alone = s.alone ∧
    (emitByte s).started = s.started ∧ (emitByte s).level = s.level ∧ (emitByte s).inputs = s.inputs ∧
    (emitByte s).offer = s.offer ∧ (emitByte s).received = s.received ∧ (emitByte s).kpTaken = s.kpTaken ∧
    (emitByte s).kpStarts = s.kpStarts := by
  and_intros <;> rfl

@[simp] theorem acceptCommand_fields (w : Word128) (s : State) :
    (acceptCommand w s).kp = s.kp ∧ (acceptCommand w s).sponge = s.sponge ∧ (acceptCommand w s).buf = s.buf ∧
    (acceptCommand w s).blen = s.blen ∧ (acceptCommand w s).cfgValid = s.cfgValid ∧
    (acceptCommand w s).fam = s.fam ∧ (acceptCommand w s).rate = s.rate ∧ (acceptCommand w s).suffix = s.suffix ∧
    (acceptCommand w s).xof = s.xof ∧ (acceptCommand w s).outlen = s.outlen ∧ (acceptCommand w s).z = s.z ∧
    (acceptCommand w s).otot = s.otot ∧ (acceptCommand w s).opos = s.opos ∧ (acceptCommand w s).zpos = s.zpos ∧
    (acceptCommand w s).ipos = s.ipos ∧ (acceptCommand w s).ph = .exec ∧ (acceptCommand w s).cmdr = w ∧
    (acceptCommand w s).rspr = s.rspr ∧ (acceptCommand w s).alone = s.alone ∧ (acceptCommand w s).started = false ∧
    (acceptCommand w s).level = s.level ∧ (acceptCommand w s).inputs = s.inputs ∧
    (acceptCommand w s).offer = s.offer ∧ (acceptCommand w s).received = s.received ∧
    (acceptCommand w s).kpTaken = s.kpTaken ∧ (acceptCommand w s).kpStarts = s.kpStarts := by
  and_intros <;> rfl

@[simp] theorem takeKpOutput_fields (s : State) :
    (takeKpOutput s).kp = s.kp ∧ (takeKpOutput s).sponge = s.sponge ∧ (takeKpOutput s).buf = s.buf ∧
    (takeKpOutput s).blen = s.blen ∧ (takeKpOutput s).cfgValid = s.cfgValid ∧ (takeKpOutput s).fam = s.fam ∧
    (takeKpOutput s).rate = s.rate ∧ (takeKpOutput s).suffix = s.suffix ∧ (takeKpOutput s).xof = s.xof ∧
    (takeKpOutput s).outlen = s.outlen ∧ (takeKpOutput s).z = s.z ∧ (takeKpOutput s).otot = s.otot ∧
    (takeKpOutput s).opos = s.opos ∧ (takeKpOutput s).zpos = s.zpos ∧ (takeKpOutput s).ipos = s.ipos ∧
    (takeKpOutput s).ph = s.ph ∧ (takeKpOutput s).cmdr = s.cmdr ∧ (takeKpOutput s).rspr = s.rspr ∧
    (takeKpOutput s).alone = s.alone.take ∧ (takeKpOutput s).started = s.started ∧
    (takeKpOutput s).level = s.level ∧ (takeKpOutput s).inputs = s.inputs ∧ (takeKpOutput s).offer = s.offer ∧
    (takeKpOutput s).received = s.received ∧ (takeKpOutput s).kpTaken = s.kpTaken ++ [s.alone.outBus] ∧
    (takeKpOutput s).kpStarts = s.kpStarts := by
  and_intros <;> rfl

end Sys2Proof.Machine
end

