-- ==== Sys2Proof/Laws/Absorb.lean ====
section
/-! SUPPORT. What the checks and the staging of bytes can do, said once. -/

namespace Sys2Proof.Machine

/-- The outcomes of a check: the one error of the first failing check, or the command's own rule. -/
theorem checked_cases (op n : Nibble) (rate sufx : Byte) (s : State) (k : State → State) :
    (∃ e, firstError s.cfgValid op n rate sufx = some e ∧
      checked op n rate sufx s k = .next (present (responseWord op e 0 true 0 0) s)) ∨
    (firstError s.cfgValid op n rate sufx = none ∧ checked op n rate sufx s k = .next (k s)) := by
  unfold checked raise
  cases firstError s.cfgValid op n rate sufx with
  | none => exact .inr ⟨rfl, rfl⟩
  | some e => exact .inl ⟨e, rfl, rfl⟩

/-- A failing check names one of the five error codes. -/
theorem firstError_some {c : Bool} {op n : Nibble} {rate sufx : Byte} {e : Nibble}
    (h : firstError c op n rate sufx = some e) : 1 ≤ e.toNat ∧ e.toNat ≤ 5 := by
  unfold firstError at h
  repeat' split at h
  all_goals first | (cases h; decide) | exact absurd h (by simp)

/-- What StageByte does to a state with room for a byte: it writes these fields only. -/
theorem stageByte_frame (s : State) (b : Byte) : ∃ sp bf bl kp n, stageByte s b =
    { s with sponge := sp, buf := bf, blen := bl, ipos := s.ipos + 1, kp := kp, kpStarts := n } := by
  unfold stageByte
  simp only
  split
  · exact ⟨_, _, _, _, _, rfl⟩
  · exact ⟨_, _, _, _, _, rfl⟩

theorem toNat_add_one {b : Byte} (h : b.toNat < 200) : (b + 1).toNat = b.toNat + 1 := by
  rw [BitVec.toNat_add]; simp; omega

/-- The bytes staged after one more byte, before any flush. -/
theorem take_putByte (buf : Buffer) (n : Nat) (b : Byte) (h : n < 200) :
    (buf.setIfInBounds n b).toList.take (n + 1) = buf.toList.take n ++ [b] := by
  apply List.ext_getElem
  · simp; omega
  · intro i h1 h2
    simp only [List.getElem_take, Vector.getElem_toList, Vector.getElem_setIfInBounds, List.getElem_append]
    simp at h1 h2
    grind

/-- StageByte on the absorbing state (41_sponge.md R100). -/
theorem stageByte_spec (s : State) (b : Byte) (h1 : s.rate.toNat ≤ 200) (h2 : s.blen.toNat < s.rate.toNat) :
    let T := stagedTail s ++ [b]
    let full := s.blen.toNat + 1 = s.rate.toNat
    (stageByte s b).sponge = (if full then absorbBlock s.sponge T else s.sponge) ∧
    stagedTail (stageByte s b) = (if full then [] else T) ∧
    (stageByte s b).blen.toNat = (if full then 0 else s.blen.toNat + 1) ∧
    (stageByte s b).kpStarts = (if full then s.kpStarts + 1 else s.kpStarts) ∧
    (stageByte s b).kp = (if full then ⟨absorbBlock s.sponge T, 0, .idle⟩ else s.kp) ∧
    (stageByte s b).buf = (if full then zeroBuffer else s.buf.setIfInBounds s.blen.toNat b) := by
  have e : (s.blen + 1 : Byte).toNat = s.blen.toNat + 1 := toNat_add_one (by omega)
  have iff : (s.blen + 1 = s.rate) ↔ s.blen.toNat + 1 = s.rate.toNat := by
    rw [← BitVec.toNat_inj, e]
  have tk := take_putByte s.buf s.blen.toNat b (by omega)
  intro T full
  by_cases hf : full
  · have hb : s.blen + 1 = s.rate := iff.2 hf
    have hbi : blockInput (putByte b s) = xorBlock s.sponge T := by
      simp only [blockInput, stagedBlock, putByte_fields, T, stagedTail]
      rw [← hf, tk]
    simp only [stageByte, putByte_fields, hb, if_true, finishBlock_fields, kpCall_fields, hbi, if_pos hf,
      absorbBlock, stagedTail]
    simp
  · have hb : ¬(s.blen + 1 = s.rate) := fun h => hf (iff.1 h)
    simp only [stageByte, putByte_fields, hb, if_false, if_neg hf, T, stagedTail, e, tk]
    simp

theorem stagedTail_length (s : State) (h : s.blen.toNat ≤ 200) : (stagedTail s).length = s.blen.toNat := by
  simp [stagedTail]; omega


/-- AbsorbBytes writes these fields only. -/
theorem absorbBytes_frame (m : List Byte) (s : State) : ∃ sp bf bl kp n, absorbBytes m s =
    { s with sponge := sp, buf := bf, blen := bl, ipos := s.ipos + BitVec.ofNat 4 m.length, kp := kp, kpStarts := n } := by
  induction m generalizing s with
  | nil => exact ⟨s.sponge, s.buf, s.blen, s.kp, s.kpStarts, by simp [absorbBytes]⟩
  | cons b m ih =>
    obtain ⟨_, _, _, _, _, e⟩ := stageByte_frame s b
    obtain ⟨sp, bf, bl, kp, n, e'⟩ := ih (stageByte s b)
    have : s.ipos + 1 + BitVec.ofNat 4 m.length = s.ipos + BitVec.ofNat 4 (m.length + 1) := by
      rw [Nat.add_comm m.length 1, BitVec.ofNat_add, BitVec.add_assoc]; rfl
    refine ⟨sp, bf, bl, kp, n, ?_⟩
    show absorbBytes m (stageByte s b) = _
    rw [e', e]
    simp only [this, List.length_cons]

/-- AbsorbBytes on the absorbing state (41_sponge.md R101): the bytes are staged in order, BLEN stays below RATE and one
KP computation is started for each completed block. -/
theorem absorbBytes_spec (m : List Byte) (s : State) (h1 : s.rate.toNat ≤ 200) (h2 : s.blen.toNat < s.rate.toNat) :
    ((absorbBytes m s).sponge, stagedTail (absorbBytes m s)) = m.foldl (stagePair s.rate.toNat) (s.sponge, stagedTail s) ∧
    (absorbBytes m s).blen.toNat = (s.blen.toNat + m.length) % s.rate.toNat ∧
    (absorbBytes m s).kpStarts = s.kpStarts + (s.blen.toNat + m.length) / s.rate.toNat := by
  induction m generalizing s with
  | nil => simp [absorbBytes, Nat.mod_eq_of_lt h2, Nat.div_eq_of_lt h2]
  | cons b m ih =>
    obtain ⟨_, _, _, _, _, e⟩ := stageByte_frame s b
    have hr : (stageByte s b).rate = s.rate := by rw [e]
    obtain ⟨p1, p2, p3, p4, -, -⟩ := stageByte_spec s b h1 h2
    have hb : (stageByte s b).blen.toNat < s.rate.toNat := by rw [p3]; split <;> omega
    obtain ⟨i1, i2, i3⟩ := ih (stageByte s b) (by rw [hr]; exact h1) (by rw [hr]; exact hb)
    rw [hr] at i1 i2 i3
    have hl := stagedTail_length s (by omega)
    have ea : absorbBytes (b :: m) s = absorbBytes m (stageByte s b) := rfl
    rw [ea, i1, i2, i3, p3, p4, p2, p1, List.foldl_cons, stagePair, hl, List.length_cons]
    by_cases hf : s.blen.toNat + 1 = s.rate.toNat
    · simp only [if_pos hf]
      have : s.blen.toNat + (m.length + 1) = m.length + s.rate.toNat := by omega
      rw [this, Nat.add_mod_right, Nat.add_div_right _ (by omega)]
      simp only [Nat.zero_add, true_and]; omega
    · simp only [if_neg hf, true_and]
      have : s.blen.toNat + 1 + m.length = s.blen.toNat + (m.length + 1) := by omega
      rw [this]; exact ⟨rfl, rfl⟩

/-- BUF is 0 from BLEN on. -/
abbrev BufZero (s : State) : Prop := ∀ k : Fin 200, s.blen.toNat ≤ k.val → s.buf[k] = 0

theorem stageByte_bufZero (s : State) (b : Byte) (h1 : s.rate.toNat ≤ 200) (h2 : s.blen.toNat < s.rate.toNat) (hz : BufZero s) :
    BufZero (stageByte s b) := by
  obtain ⟨-, -, p3, -, -, p6⟩ := stageByte_spec s b h1 h2
  intro k hk
  rw [p3] at hk
  simp only [p6]
  split at hk <;> rename_i hf
  · simp only [if_pos hf]; simp [zeroBuffer]
  · simp only [if_neg hf]
    have := hz k (by omega)
    rw [Fin.getElem_fin, Vector.getElem_setIfInBounds, if_neg (by omega)]
    exact this

theorem absorbBytes_bufZero (m : List Byte) (s : State) (h1 : s.rate.toNat ≤ 200) (h2 : s.blen.toNat < s.rate.toNat) (hz : BufZero s) :
    BufZero (absorbBytes m s) := by
  induction m generalizing s with
  | nil => exact hz
  | cons b m ih =>
    obtain ⟨_, _, _, _, _, e⟩ := stageByte_frame s b
    have hr : (stageByte s b).rate = s.rate := by rw [e]
    obtain ⟨-, -, p3, -, -, -⟩ := stageByte_spec s b h1 h2
    exact ih _ (by rw [hr]; exact h1) (by rw [hr, p3]; split <;> omega) (stageByte_bufZero s b h1 h2 hz)

end Sys2Proof.Machine
end

