-- ==== Sys2Proof/Laws/Decode.lean ====
section
/-! SUPPORT. The fields of command and response words, and bytes read back from a packet. -/

namespace Sys2Proof

section CommandWord
variable (op n : Nibble) (rate sufx : Byte) (len : Word32) (data : Lane)

/-- Each bit of a command word comes from the field that owns it (30_encoding.md R58). -/
theorem commandWord_getLsbD (i : Nat) : (commandWord op n rate sufx len data).getLsbD i =
    if i < 4 then op.getLsbD i else if i < 8 then n.getLsbD (i - 4) else if i < 16 then rate.getLsbD (i - 8)
    else if i < 24 then sufx.getLsbD (i - 16) else if i < 32 then false else if i < 64 then len.getLsbD (i - 32)
    else data.getLsbD (i - 64) := by
  show (data ++ len ++ (0 : Byte) ++ sufx ++ rate ++ n ++ op).getLsbD i = _
  simp only [BitVec.getLsbD_append]
  repeat' split
  all_goals first | omega | rfl | simp

@[simp] theorem cmdOp_commandWord : cmdOp (commandWord op n rate sufx len data) = op := by
  ext i hi; simp only [cmdOp, BitVec.getElem_extractLsb', commandWord_getLsbD]; grind

@[simp] theorem cmdN_commandWord : cmdN (commandWord op n rate sufx len data) = n := by
  ext i hi; simp only [cmdN, BitVec.getElem_extractLsb', commandWord_getLsbD]; grind

@[simp] theorem cmdRate_commandWord : cmdRate (commandWord op n rate sufx len data) = rate := by
  ext i hi; simp only [cmdRate, BitVec.getElem_extractLsb', commandWord_getLsbD]; grind

@[simp] theorem cmdSufx_commandWord : cmdSufx (commandWord op n rate sufx len data) = sufx := by
  ext i hi; simp only [cmdSufx, BitVec.getElem_extractLsb', commandWord_getLsbD]; grind

@[simp] theorem cmdRsvd_commandWord : cmdRsvd (commandWord op n rate sufx len data) = 0 := by
  ext i hi; simp only [cmdRsvd, BitVec.getElem_extractLsb', commandWord_getLsbD]
  rw [if_neg (by omega), if_neg (by omega), if_neg (by omega), if_neg (by omega), if_pos (by omega)]
  simp

@[simp] theorem cmdLen_commandWord : cmdLen (commandWord op n rate sufx len data) = len := by
  ext i hi; simp only [cmdLen, BitVec.getElem_extractLsb', commandWord_getLsbD]; grind

@[simp] theorem cmdData_commandWord : cmdData (commandWord op n rate sufx len data) = data := by
  ext i hi; simp only [cmdData, BitVec.getElem_extractLsb', commandWord_getLsbD]; grind

end CommandWord

/-- An operand that holds no ignored byte survives the decoder's dropping of them. -/
theorem keepBytes_of_fits {n : Nat} {data : Lane} (h : dataFits n data = true) : keepBytes n data = data := by
  have h : data.toNat < 2 ^ (8 * n) := by simpa [dataFits] using h
  apply BitVec.eq_of_toNat_eq
  simp only [keepBytes, BitVec.toNat_setWidth, Nat.mod_eq_of_lt h]
  exact Nat.mod_eq_of_lt data.isLt

/-- What the decoder keeps of DATA holds no ignored byte. -/
theorem keepBytes_fits (n : Nat) (data : Lane) : dataFits n (keepBytes n data) = true := by
  simp only [dataFits, keepBytes, BitVec.toNat_setWidth, decide_eq_true_eq]
  exact lt_of_le_of_lt (Nat.mod_le _ _) (Nat.mod_lt _ (by positivity))

/-! ### Bytes of packets -/

@[simp] theorem natBytes_length (n v : Nat) : (natBytes n v).length = n := by
  induction n generalizing v with
  | zero => rfl
  | succ n ih => simp [natBytes, ih]

/-- The bytes of a number read back. -/
theorem bytesNat_natBytes (n v : Nat) : bytesNat (natBytes n v) = v % 256 ^ n := by
  induction n generalizing v with
  | zero => simp [natBytes, bytesNat, Nat.mod_one]
  | succ n ih =>
    have e : (256 : Nat) ^ (n + 1) = 256 * 256 ^ n := by ring
    rw [natBytes, bytesNat, ih, BitVec.toNat_ofNat, e, Nat.mod_mul]

/-- A packet's bytes hold that packet. -/
theorem packetOfBytes_packetBytes (p : Packet) : packetOfBytes (packetBytes p) = .ok p := by
  cases p with
  | command w =>
    have h : w.toNat < 256 ^ 16 := w.isLt
    have e : bytesNat (natBytes 16 w.toNat) = w.toNat := by rw [bytesNat_natBytes, Nat.mod_eq_of_lt h]
    simp only [packetOfBytes, packetBytes, natBytes_length, if_true, e, BitVec.ofNat_toNat, BitVec.setWidth_eq]
  | kpInput bus =>
    have h : bus.toNat < 256 ^ 200 := by
      have := bus.isLt
      rwa [show (256 : Nat) ^ 200 = 2 ^ 1600 by rw [show (256 : Nat) = 2 ^ 8 by rfl, ← pow_mul]]
    have e : bytesNat (natBytes 200 bus.toNat) = bus.toNat := by rw [bytesNat_natBytes, Nat.mod_eq_of_lt h]
    simp only [packetOfBytes, packetBytes, natBytes_length, if_true, e, BitVec.ofNat_toNat, BitVec.setWidth_eq]
    rfl

end Sys2Proof

namespace Sys2Proof.Machine

section ResponseWord
variable (op status nb : Nibble) (last : Bool) (value : Word32) (data : Lane)

/-- Each bit of a response word comes from the field that owns it (30_encoding.md R59). -/
theorem responseWord_getLsbD (i : Nat) : (responseWord op status nb last value data).getLsbD i =
    if i < 4 then op.getLsbD i else if i < 8 then status.getLsbD (i - 4) else if i < 12 then nb.getLsbD (i - 8)
    else if i < 13 then last else if i < 32 then false else if i < 64 then value.getLsbD (i - 32)
    else data.getLsbD (i - 64) := by
  show (data ++ value ++ (0 : BitVec 19) ++ BitVec.ofBool last ++ nb ++ status ++ op).getLsbD i = _
  simp only [BitVec.getLsbD_append]
  repeat' split
  all_goals first | omega | rfl | grind

@[simp] theorem rspOp_responseWord : rspOp (responseWord op status nb last value data) = op := by
  ext i hi; simp only [rspOp, BitVec.getElem_extractLsb', responseWord_getLsbD]; grind

@[simp] theorem rspStatus_responseWord : rspStatus (responseWord op status nb last value data) = status := by
  ext i hi; simp only [rspStatus, BitVec.getElem_extractLsb', responseWord_getLsbD]; grind

@[simp] theorem rspNb_responseWord : rspNb (responseWord op status nb last value data) = nb := by
  ext i hi; simp only [rspNb, BitVec.getElem_extractLsb', responseWord_getLsbD]; grind

@[simp] theorem rspLast_responseWord : rspLast (responseWord op status nb last value data) = last := by
  simp only [rspLast, responseWord_getLsbD]; simp

@[simp] theorem rspRsvd_responseWord : rspRsvd (responseWord op status nb last value data) = 0 := by
  ext i hi; simp only [rspRsvd, BitVec.getElem_extractLsb', responseWord_getLsbD]
  rw [if_neg (by omega), if_neg (by omega), if_neg (by omega), if_neg (by omega), if_pos (by omega)]
  simp

@[simp] theorem rspValue_responseWord : rspValue (responseWord op status nb last value data) = value := by
  ext i hi; simp only [rspValue, BitVec.getElem_extractLsb', responseWord_getLsbD]; grind

@[simp] theorem rspData_responseWord : rspData (responseWord op status nb last value data) = data := by
  ext i hi; simp only [rspData, BitVec.getElem_extractLsb', responseWord_getLsbD]; grind

end ResponseWord

end Sys2Proof.Machine
end

