-- ==== Sys2Proof/Laws/Emit.lean ====
section
/-! SUPPORT. What the building of a FINALIZE response word can do, said once (43_sponge_fsm.md R135). -/

namespace Sys2Proof.Machine

/-- Byte `j` of the output stream from Z_0 = Z (41_sponge.md R106). -/
def streamByte (rate : Nat) (Z : Lanes) (j : Nat) : Byte := stateByte (keccakF^[j / rate] Z) (j % rate)

theorem packBytes_append (c : List Byte) (b : Byte) :
    packBytes (c ++ [b]) = packBytes c ||| (b.setWidth 64 <<< (8 * c.length)) := by
  induction c with
  | nil => simp [packBytes]
  | cons x c ih =>
    have e : packBytes (x :: c ++ [b]) = (packBytes (c ++ [b]) <<< 8) ||| x.setWidth 64 := rfl
    have e' : packBytes (x :: c) = (packBytes c <<< 8) ||| x.setWidth 64 := rfl
    rw [e, e', ih, List.length_cons]
    have : (b.setWidth 64 : Lane) <<< (8 * (c.length + 1)) = (b.setWidth 64 <<< (8 * c.length)) <<< 8 := by
      rw [← BitVec.shiftLeft_add]; congr 1
    rw [this]
    ext i hi
    simp only [BitVec.getElem_or, BitVec.getElem_shiftLeft]
    grind

/-- A FINALIZE response word being built, with the bytes of `c` (30_encoding.md R59, R73). -/
abbrev partWord (total : Word32) (c : List Byte) : Word128 :=
  responseWord 0x3 statusOk (BitVec.ofNat 4 c.length) false total (packBytes c)

theorem pushByte_partWord (total : Word32) (c : List Byte) (b : Byte) (h : c.length < 8) :
    pushByte (partWord total c) b = partWord total (c ++ [b]) := by
  have e : (BitVec.ofNat 4 c.length).toNat = c.length := by simp; omega
  simp only [pushByte, partWord, rspOp_responseWord, rspStatus_responseWord, rspNb_responseWord, rspLast_responseWord,
    rspValue_responseWord, rspData_responseWord, packBytes_append, List.length_append, List.length_singleton, e,
    BitVec.ofNat_add]
  rfl

/-- A FINALIZE between two bytes of its output: Z is Z_m, and ZPOS bytes of Block_m are taken. `k` counts KP starts
from the padding permutation on. -/
structure Emits (Z : Lanes) (k : Nat) (s : State) : Prop where
  rate_pos : 1 ≤ s.rate.toNat
  rate_le : s.rate.toNat ≤ 200
  zpos_le : s.zpos.toNat ≤ s.rate.toNat
  opos_le : s.opos.toNat ≤ s.otot.toNat
  block : ∃ m, s.z = keccakF^[m] Z ∧ s.opos.toNat = m * s.rate.toNat + s.zpos.toNat ∧ s.kpStarts = k + m ∧
    (m = 0 ∨ 0 < s.zpos.toNat)

/-- Output bytes o, ..., o + n − 1 of the stream. -/
abbrev streamBytes (rate : Nat) (Z : Lanes) (o n : Nat) : List Byte := (List.range n).map fun j => streamByte rate Z (o + j)

theorem refillZ_frame (s : State) : ∃ kp n z zp, refillZ s = { s with kp := kp, kpStarts := n, z := z, zpos := zp } := by
  unfold refillZ; split
  · exact ⟨_, _, _, _, rfl⟩
  · exact ⟨s.kp, s.kpStarts, s.z, s.zpos, rfl⟩

/-- Refilling and emitting writes these fields only. -/
theorem emitBytes_frame (n : Nat) (s : State) : ∃ kp ks z zp op r, emitBytes n s =
    { s with kp := kp, kpStarts := ks, z := z, zpos := zp, opos := op, rspr := r } := by
  induction n generalizing s with
  | zero => exact ⟨s.kp, s.kpStarts, s.z, s.zpos, s.opos, s.rspr, rfl⟩
  | succ n ih =>
    unfold emitBytes; split
    · exact ⟨s.kp, s.kpStarts, s.z, s.zpos, s.opos, s.rspr, rfl⟩
    · obtain ⟨_, _, _, _, e⟩ := refillZ_frame s
      obtain ⟨kp, ks, z, zp, op, r, e'⟩ := ih (emitByte (refillZ s))
      refine ⟨kp, ks, z, zp, op, r, ?_⟩
      rw [e', e]; rfl

/-- One output byte (43_sponge_fsm.md R135): it is the next byte of the stream. -/
theorem emitByte_refillZ {Z : Lanes} {k : Nat} {s : State} (h : Emits Z k s) (ho : s.opos ≠ s.otot) :
    let t := emitByte (refillZ s)
    Emits Z k t ∧ t.opos.toNat = s.opos.toNat + 1 ∧ 0 < t.zpos.toNat ∧ t.otot = s.otot ∧ t.rate = s.rate ∧
      t.rspr = pushByte s.rspr (streamByte s.rate.toNat Z s.opos.toNat) := by
  obtain ⟨r1, r2, z1, o1, m, hz, hm, hk, h0⟩ := h
  have hlt : s.opos.toNat < s.otot.toNat := lt_of_le_of_ne o1 fun e => ho (BitVec.eq_of_toNat_eq e)
  have eo : (s.opos + 1 : Word32).toNat = s.opos.toNat + 1 := by
    have := s.otot.isLt
    rw [BitVec.toNat_add]; simp; omega
  intro t
  by_cases hf : s.zpos = s.rate
  · have ht : t = emitByte (loadZ (kpCall s.z s)) := by simp only [t, refillZ, if_pos hf]
    have hzr : s.zpos.toNat = s.rate.toNat := by rw [hf]
    have hmod : s.opos.toNat = (m + 1) * s.rate.toNat := by rw [hm, hzr]; ring
    have hd : s.opos.toNat / s.rate.toNat = m + 1 := by rw [hmod, Nat.mul_div_cancel _ (by omega)]
    have hmd : s.opos.toNat % s.rate.toNat = 0 := by rw [hmod, Nat.mul_mod_left]
    have hs : streamByte s.rate.toNat Z s.opos.toNat = stateByte (keccakF s.z) 0 := by
      rw [streamByte, hd, hmd, hz, Function.iterate_succ_apply']
    refine ⟨⟨?_, ?_, ?_, ?_, m + 1, ?_, ?_, ?_, ?_⟩, ?_, ?_, ?_, ?_, ?_⟩ <;> rw [ht] <;> simp [hs] <;> try omega
    · rw [hz, ← Function.iterate_succ_apply' keccakF m Z, Function.iterate_succ_apply]
  · have ht : t = emitByte s := by simp only [t, refillZ, if_neg hf]
    have hzr : s.zpos.toNat < s.rate.toNat := lt_of_le_of_ne z1 fun e => hf (BitVec.eq_of_toNat_eq e)
    have ez : (s.zpos + 1 : Byte).toNat = s.zpos.toNat + 1 := toNat_add_one (by omega)
    have hd : s.opos.toNat / s.rate.toNat = m := by
      rw [hm, Nat.add_comm, Nat.add_mul_div_right _ _ (by omega), Nat.div_eq_of_lt hzr, Nat.zero_add]
    have hmd : s.opos.toNat % s.rate.toNat = s.zpos.toNat := by
      rw [hm, Nat.add_comm, Nat.add_mul_mod_self_right, Nat.mod_eq_of_lt hzr]
    have hs : streamByte s.rate.toNat Z s.opos.toNat = stateByte s.z s.zpos.toNat := by
      rw [streamByte, hd, hmd, hz]
    refine ⟨⟨?_, ?_, ?_, ?_, m, ?_, ?_, ?_, ?_⟩, ?_, ?_, ?_, ?_, ?_⟩ <;> rw [ht] <;> simp only [emitByte_fields, eo, ez, hs, hz] <;> omega

/-- Up to `n` output bytes (43_sponge_fsm.md R135): the next bytes of the stream go into the word in order. -/
theorem emitBytes_spec {Z : Lanes} {k : Nat} (n : Nat) (s : State) (c : List Byte) (h : Emits Z k s)
    (hw : s.rspr = partWord s.otot c) (hc : c.length + n ≤ 8) :
    let t := emitBytes n s
    let j := min n (s.otot.toNat - s.opos.toNat)
    Emits Z k t ∧ t.opos.toNat = s.opos.toNat + j ∧ t.otot = s.otot ∧
      t.rspr = partWord s.otot (c ++ streamBytes s.rate.toNat Z s.opos.toNat j) := by
  induction n generalizing s c with
  | zero => simp [emitBytes, h, hw, streamBytes]
  | succ n ih =>
    intro t j
    by_cases ho : s.opos = s.otot
    · have : j = 0 := by simp [j, ho]
      simp only [t, emitBytes, if_pos ho, this]
      simp [h, hw, streamBytes]
    · obtain ⟨e1, e2, -, e3, e4, e5⟩ := emitByte_refillZ h ho
      have hlt : s.opos.toNat < s.otot.toNat := lt_of_le_of_ne h.opos_le fun e => ho (BitVec.eq_of_toNat_eq e)
      obtain ⟨i1, i2, i3, i4⟩ := ih (emitByte (refillZ s)) (c ++ [streamByte s.rate.toNat Z s.opos.toNat]) e1
        (by rw [e5, hw, e3, pushByte_partWord _ _ _ (by omega)]) (by simp; omega)
      have ht : t = emitBytes n (emitByte (refillZ s)) := by simp only [t, emitBytes, if_neg ho]
      have hj : j = min n (s.otot.toNat - (s.opos.toNat + 1)) + 1 := by simp only [j]; omega
      rw [e2, e3] at i2; rw [e3] at i3; rw [e2, e3, e4] at i4
      rw [ht]
      refine ⟨i1, by rw [i2, hj]; omega, i3, ?_⟩
      rw [i4, hj, List.append_assoc]
      congr 1
      simp only [streamBytes, List.range_succ_eq_map, List.map_cons, List.map_map, Nat.add_zero]
      simp only [List.cons_append, List.nil_append, Function.comp_def, Nat.succ_eq_add_one]
      congr 2
      exact List.map_congr_left fun j _ => by congr 1; omega

theorem outputWord_spec {Z : Lanes} {k : Nat} {s : State} (h : Emits Z k s) (hw : s.rspr = partWord s.otot []) :
    let t := outputWord s
    let j := min 8 (s.otot.toNat - s.opos.toNat)
    Emits Z k t ∧ t.opos.toNat = s.opos.toNat + j ∧ t.otot = s.otot ∧
      t.rspr = responseWord 0x3 statusOk (BitVec.ofNat 4 j) (decide (s.opos.toNat + j = s.otot.toNat)) s.otot
        (packBytes (streamBytes s.rate.toNat Z s.opos.toNat j)) := by
  obtain ⟨e1, e2, e3, e4⟩ := emitBytes_spec 8 s [] h hw (by simp)
  intro t j
  have ht : t = presentOutput (emitBytes 8 s) := rfl
  rw [ht]
  unfold presentOutput
  refine ⟨⟨e1.1, e1.2, e1.3, e1.4, e1.5⟩, e2, e3, ?_⟩
  simp only [present_fields, e4, rspOp_responseWord, rspStatus_responseWord, rspNb_responseWord, 
    rspValue_responseWord, rspData_responseWord, ← BitVec.toNat_inj, e2, e3]
  simp [j, streamBytes]

theorem outputWord_frame (s : State) : ∃ kp ks z zp op r, outputWord s =
    { s with kp := kp, kpStarts := ks, z := z, zpos := zp, opos := op, rspr := r, ph := .rsp } := by
  obtain ⟨kp, ks, z, zp, op, r, e⟩ := emitBytes_frame 8 s
  refine ⟨kp, ks, z, zp, op, (presentOutput (emitBytes 8 s)).rspr, ?_⟩
  show presentOutput (emitBytes 8 s) = _
  rw [e]; rfl

theorem emits_start (s : State) (A : Lanes) (L : Word32) (h1 : 1 ≤ s.rate.toNat) (h2 : s.rate.toNat ≤ 200) :
    Emits (keccakF A) (s.kpStarts + 1) (loadZ (kpCall A (beginOutput L s))) := by
  refine ⟨h1, h2, by simp, by simp, 0, ?_⟩
  simp

theorem finalizeTo_spec (s : State) (L : Word32) (h1 : 1 ≤ s.rate.toNat) (h2 : s.rate.toNat ≤ 200) :
    let Z := finalState s.rate.toNat s.suffix s.sponge (stagedTail s)
    let t := finalizeTo L s
    Emits Z (s.kpStarts + 1) t ∧ t.opos.toNat = min 8 L.toNat ∧ 
    t.rspr = responseWord 0x3 statusOk (BitVec.ofNat 4 (min 8 L.toNat)) (decide (min 8 L.toNat = L.toNat)) L
        (packBytes (streamBytes s.rate.toNat Z 0 (min 8 L.toNat))) := by
  have e := emits_start s (padInput s) L h1 h2
  have o := outputWord_spec e rfl
  obtain ⟨a, b, -, c⟩ := o
  refine ⟨a, ?_, ?_⟩
  · exact b.trans (by simp)
  · exact c.trans (by simp; rfl)

theorem finalizeTo_frame (s : State) (L : Word32) : ∃ kp ks z zp op r, finalizeTo L s =
    { s with kp := kp, kpStarts := ks, z := z, zpos := zp, opos := op, rspr := r, ph := .rsp, otot := L, started := true } := by
  obtain ⟨kp, ks, z, zp, op, r, e⟩ := outputWord_frame (loadZ (kpCall (padInput s) (beginOutput L s)))
  exact ⟨kp, ks, z, zp, op, r, e⟩


end Sys2Proof.Machine
end

