-- ==== Sys2Proof/Laws/Commands.lean ====
section
/-! SUPPORT. Every command word is its checks in order, then one rule (42_commands.md R114, 60_exceptions.md R146). -/

namespace Sys2Proof.Machine

/-- What the word's command does once every check has passed (42_commands.md R115 to R128). -/
def ruleOf (w : Word128) (s : State) : State :=
  if cmdOp w = 0x1 then
    match presetOf (cmdN w) with
    | some p => construct (cmdN w) p.rate p.suffix p.xof (if p.xof then cmdLen w else p.digest) s
    | none => construct (cmdN w) (cmdRate w) (cmdSufx w) (cmdN w == 0xF) (cmdLen w) s
  else if cmdOp w = 0x2 then
    respondOk 0x2 ((cmdN w).setWidth 32)
      (absorbBytes (messageBytes (cmdN w).toNat (cmdData w)) { s with ipos := 0, started := true })
  else if cmdOp w = 0x3 then finalizeTo (outputLength ((cmdN w).getLsbD 0) (cmdLen w) s) s
  else if cmdOp w = 0x4 then respondOk 0x4 0 (clearMessage s)
  else if cmdOp w = 0x5 then respondOk 0x5 (queryValue (cmdN w) s) s
  else respondOk (cmdOp w) 0 s

theorem dataByte_keepBytes {n j : Nat} (d : Lane) (h : j < n) : dataByte (keepBytes n d) j = dataByte d j := by
  ext i hi
  simp only [dataByte, keepBytes, BitVec.getElem_extractLsb', BitVec.getLsbD_setWidth]
  by_cases h64 : 8 * j + i < 64
  · have : 8 * j + i < 8 * n := by omega
    simp [h64, this]
  · simp [h64, BitVec.getLsbD_of_ge d _ (Nat.le_of_not_lt h64)]

theorem messageBytes_keepBytes (n : Nat) (d : Lane) : messageBytes n (keepBytes n d) = messageBytes n d :=
  List.map_congr_left fun _ hj => dataByte_keepBytes d (List.mem_range.1 hj)

theorem checked_congr {op n : Nibble} {r x r' x' : Byte} {n' : Nibble} {s : State} {k k' : State → State}
    (h : firstError s.cfgValid op n r x = firstError s.cfgValid op n' r' x')
    (hk : firstError s.cfgValid op n r x = none → k s = k' s) :
    checked op n r x s k = checked op n' r' x' s k' := by
  unfold checked
  rw [← h]
  cases e : firstError s.cfgValid op n r x with
  | none => simp only [hk e]
  | some _ => rfl

theorem firstError_preset (c : Bool) (n : Nibble) (h : n.toNat < 0xE) (r x : Byte) :
    firstError c 1 n r x = firstError c 1 n 0 0 := by
  have : configLegal n r x = configLegal n 0 0 := by
    unfold configLegal; simp only [h, if_true]
  unfold firstError; rw [this]


theorem config_fixed (n : Nibble) (h : n.toNat < 8) (r x : Byte) (len : Word32) (s : State) :
    configCommand n 0 0 0 s = configCommand n r x len s := by
  unfold configCommand
  refine checked_congr (firstError_preset _ _ (by omega) r x).symm fun _ => ?_
  have : ∀ n : Nibble, n.toNat < 8 → ∃ p, presetOf n = some p ∧ p.xof = false := by decide
  obtain ⟨p, e, hx⟩ := this n h
  simp only [e, hx]; rfl

theorem config_shake (n : Nibble) (h : n.toNat = 8 ∨ n.toNat = 9) (r x : Byte) (len : Word32) (s : State) :
    configCommand n 0 0 len s = configCommand n r x len s := by
  unfold configCommand
  refine checked_congr (firstError_preset _ _ (by omega) r x).symm fun _ => ?_
  have : ∀ n : Nibble, n.toNat = 8 ∨ n.toNat = 9 → (presetOf n).isSome := by decide
  obtain ⟨p, e⟩ := Option.isSome_iff_exists.1 (this n h)
  simp only [e]

theorem config_reserved (n : Nibble) (h : 0xA ≤ n.toNat) (h' : n.toNat < 0xE) (r x : Byte) (len : Word32) (s : State) :
    configCommand n 0 0 0 s = configCommand n r x len s := by
  unfold configCommand
  refine checked_congr (firstError_preset _ _ (by omega) r x).symm fun e => ?_
  have : ∀ (c : Bool) (n : Nibble), 0xA ≤ n.toNat → n.toNat < 0xE → firstError c 1 n 0 0 ≠ none := by decide
  exact absurd e (this _ n h h')

theorem nibble_of {k : Nibble} {m : Nat} (h : k.toNat = m) (_ : m < 16) : k = BitVec.ofNat 4 m := by
  apply BitVec.eq_of_toNat_eq; simp; omega

/-- A nibble that is none of 0..14 is 15. -/
theorem nibble_15 {k : Nibble} (h0 : k.toNat ≠ 0) (h1 : k.toNat ≠ 1) (h2 : k.toNat ≠ 2) (h3 : k.toNat ≠ 3) (h4 : k.toNat ≠ 4)
    (h5 : k.toNat ≠ 5) (h6 : k.toNat ≠ 6) (h7 : k.toNat ≠ 7) (h8 : k.toNat ≠ 8) (h9 : k.toNat ≠ 9) (h10 : k.toNat ≠ 10)
    (h11 : k.toNat ≠ 11) (h12 : k.toNat ≠ 12) (h13 : k.toNat ≠ 13) (h14 : k.toNat ≠ 14) : k = 0xF := by
  apply BitVec.eq_of_toNat_eq
  have := k.isLt
  show _ = 15
  omega

theorem exec_decodeConfig (w : Word128) (s : State) :
    exec (decodeConfig w) s = configCommand (cmdN w) (cmdRate w) (cmdSufx w) (cmdLen w) s := by
  unfold decodeConfig
  split <;> rename_i e
  case h_1 | h_2 | h_3 | h_4 | h_5 | h_6 | h_7 | h_8 =>
    rw [nibble_of e (by decide), ← config_fixed _ (by decide)]; rfl
  case h_9 | h_10 => rw [nibble_of e (by decide), ← config_shake _ (by decide)]; rfl
  case h_11 | h_12 | h_13 | h_14 =>
    rw [nibble_of e (by decide), ← config_reserved _ (by decide) (by decide)]; rfl
  case h_15 => rw [nibble_of e (by decide)]; rfl
  case h_16 => rw [nibble_15 (k := cmdN w) ‹_› ‹_› ‹_› ‹_› ‹_› ‹_› ‹_› ‹_› ‹_› ‹_› ‹_› ‹_› ‹_› ‹_› ‹_›]; rfl

theorem absorb_keep (n : Nibble) (d : Lane) (s : State) : absorbCommand n (keepBytes n.toNat d) s = absorbCommand n d s := by
  unfold absorbCommand; rw [messageBytes_keepBytes]

theorem absorb_bad (n : Nibble) (h : 8 < n.toNat) (d : Lane) (s : State) : absorbCommand n 0 s = absorbCommand n d s := by
  unfold absorbCommand
  refine checked_congr rfl fun e => ?_
  have : ∀ (c : Bool) (n : Nibble), 8 < n.toNat → firstError c 2 n 0 0 ≠ none := by decide
  exact absurd e (this _ n h)

theorem exec_decodeAbsorb (w : Word128) (s : State) : exec (decodeAbsorb w) s = absorbCommand (cmdN w) (cmdData w) s := by
  unfold decodeAbsorb
  split <;> rename_i e
  case h_1 => rw [nibble_of e (by decide)]; rfl
  case h_2 | h_3 | h_4 | h_5 | h_6 | h_7 | h_8 | h_9 =>
    rw [nibble_of e (by decide), ← absorb_keep]; rfl
  case h_10 | h_11 | h_12 | h_13 | h_14 | h_15 =>
    rw [nibble_of e (by decide), ← absorb_bad _ (by decide)]; rfl
  case h_16 =>
    rw [nibble_15 (k := cmdN w) ‹_› ‹_› ‹_› ‹_› ‹_› ‹_› ‹_› ‹_› ‹_› ‹_› ‹_› ‹_› ‹_› ‹_› ‹_›, ← absorb_bad _ (by decide)]; rfl

theorem exec_decodeQuery (w : Word128) (s : State) : exec (decodeQuery w) s = queryCommand (cmdN w) s := by
  unfold decodeQuery
  split <;> rename_i e
  case h_16 => rw [nibble_15 (k := cmdN w) ‹_› ‹_› ‹_› ‹_› ‹_› ‹_› ‹_› ‹_› ‹_› ‹_› ‹_› ‹_› ‹_› ‹_› ‹_›]; rfl
  all_goals rw [nibble_of e (by decide)]; rfl

theorem exec_decodeFinalize (w : Word128) (s : State) :
    exec (decodeFinalize w) s = finalizeCommand ((cmdN w).getLsbD 0) (cmdLen w) s := by
  unfold decodeFinalize
  split <;> rename_i e <;> rw [e]
  · show finalizeCommand false 0 s = _
    unfold finalizeCommand outputLength
    simp
  · rfl

/-- A check that reads no RATE and no SUFX. -/
theorem firstError_other (c : Bool) (op n : Nibble) (h : op ≠ 1) (r x : Byte) : firstError c op n r x = firstError c op n 0 0 := by
  unfold firstError
  have : (op == 1) = false := by simpa using h
  simp only [this, Bool.false_and]

theorem firstError_noN (c : Bool) (op n : Nibble) (h : op = 0 ∨ op = 3 ∨ op = 4) : firstError c op n 0 0 = firstError c op 0 0 0 := by
  rcases h with rfl | rfl | rfl <;> cases c <;> revert n <;> decide

/-- Every command is its checks in order, then its rule. -/
theorem exec_decodeCommand (w : Word128) (s : State) :
    exec (decodeCommand w) s = checked (cmdOp w) (cmdN w) (cmdRate w) (cmdSufx w) s (ruleOf w) := by
  have ill : ∀ k : Nibble, 6 ≤ k.toNat → cmdOp w = k → illegalCommand k s = checked (cmdOp w) (cmdN w) (cmdRate w) (cmdSufx w) s (ruleOf w) := by
    intro k h e
    unfold checked firstError
    rw [e, if_pos h]; rfl
  unfold decodeCommand
  split <;> rename_i e
  case h_16 => exact ill 0xF (by decide) (nibble_15 (k := cmdOp w) ‹_› ‹_› ‹_› ‹_› ‹_› ‹_› ‹_› ‹_› ‹_› ‹_› ‹_› ‹_› ‹_› ‹_› ‹_›)
  case h_7 | h_8 | h_9 | h_10 | h_11 | h_12 | h_13 | h_14 | h_15 => exact ill _ (by decide) (nibble_of e (by decide))
  all_goals have ho := nibble_of e (by decide)
  case h_1 =>
    rw [ho]
    unfold checked; rw [firstError_other _ _ _ (by decide), firstError_noN _ _ _ (by decide)]
    have : firstError s.cfgValid (0#4) 0 0 0 = none := by cases s.cfgValid <;> decide
    rw [this]
    simp only [ruleOf, ho]; rfl
  case h_2 =>
    rw [exec_decodeConfig, ho]; unfold configCommand
    refine checked_congr rfl fun _ => ?_
    simp only [ruleOf, ho]; rfl
  case h_3 =>
    rw [exec_decodeAbsorb, ho]; unfold absorbCommand
    refine checked_congr (firstError_other _ _ _ (by decide) _ _).symm fun _ => ?_
    simp only [ruleOf, ho]; rfl
  case h_4 =>
    rw [exec_decodeFinalize, ho]; unfold finalizeCommand
    refine checked_congr ?_ fun _ => ?_
    · rw [firstError_other _ _ (cmdN w) (by decide)]; exact (firstError_noN _ _ _ (by decide)).symm
    · simp only [ruleOf, ho]; rfl
  case h_5 =>
    rw [ho]; show execReset s = _; unfold execReset
    refine checked_congr ?_ fun _ => ?_
    · rw [firstError_other _ _ (cmdN w) (by decide)]; exact (firstError_noN _ _ _ (by decide)).symm
    · simp only [ruleOf, ho]; rfl
  case h_6 =>
    rw [exec_decodeQuery, ho]; unfold queryCommand
    refine checked_congr (firstError_other _ _ _ (by decide) _ _).symm fun _ => ?_
    simp only [ruleOf, ho]; rfl

theorem pushByte_head (r : Word128) (b : Byte) : rspOp (pushByte r b) = rspOp r ∧ rspStatus (pushByte r b) = rspStatus r := by
  simp [pushByte]

theorem emitBytes_head (n : Nat) (s : State) :
    rspOp (emitBytes n s).rspr = rspOp s.rspr ∧ rspStatus (emitBytes n s).rspr = rspStatus s.rspr := by
  induction n generalizing s with
  | zero => exact ⟨rfl, rfl⟩
  | succ n ih =>
    unfold emitBytes; split
    · exact ⟨rfl, rfl⟩
    · obtain ⟨_, _, _, _, e⟩ := refillZ_frame s
      have hr : (refillZ s).rspr = s.rspr := by rw [e]
      obtain ⟨a, b⟩ := ih (emitByte (refillZ s))
      rw [a, b]
      simp [pushByte, hr]

theorem outputWord_head (s : State) : rspOp (outputWord s).rspr = rspOp s.rspr ∧ rspStatus (outputWord s).rspr = rspStatus s.rspr := by
  obtain ⟨a, b⟩ := emitBytes_head 8 s
  have : (outputWord s).rspr = responseWord (rspOp (emitBytes 8 s).rspr) (rspStatus (emitBytes 8 s).rspr) (rspNb (emitBytes 8 s).rspr) (decide ((emitBytes 8 s).opos = (emitBytes 8 s).otot)) (rspValue (emitBytes 8 s).rspr)
    (rspData (emitBytes 8 s).rspr) := rfl
  rw [this]; simp [a, b]

theorem ruleOf_head (w : Word128) (s : State) : rspStatus (ruleOf w s).rspr = 0 ∧ rspOp (ruleOf w s).rspr = cmdOp w := by
  unfold ruleOf
  split_ifs with h1 h2 h3 h4 h5
  · split <;> simp [construct, respondOk, h1, statusOk]
  · simp [respondOk, h2, statusOk]
  · obtain ⟨a, b⟩ := outputWord_head (loadZ (kpCall (padInput s) (beginOutput (outputLength ((cmdN w).getLsbD 0) (cmdLen w) s) s)))
    unfold finalizeTo
    rw [a, b, h3]
    simp [emptyWord, statusOk]
  · simp [respondOk, h4, statusOk]
  · simp [respondOk, h5, statusOk]
  · simp [respondOk, statusOk]

theorem ruleOf_frame (w : Word128) (s : State) : ∃ kp sp bf bl cv fam ra su xo ol z ot op zp ip r st n, ruleOf w s =
    { s with kp := kp, sponge := sp, buf := bf, blen := bl, cfgValid := cv, fam := fam, rate := ra, suffix := su, xof := xo,
             outlen := ol, z := z, otot := ot, opos := op, zpos := zp, ipos := ip, rspr := r, started := st, kpStarts := n, ph := .rsp } := by
  unfold ruleOf
  split_ifs with h1 h2 h3 h4 h5
  · split
    · exact ⟨_, _, _, _, _, _, _, _, _, _, _, _, _, _, _, _, _, _, rfl⟩
    · exact ⟨_, _, _, _, _, _, _, _, _, _, _, _, _, _, _, _, _, _, rfl⟩
  · obtain ⟨_, _, _, _, _, e⟩ := absorbBytes_frame (messageBytes (cmdN w).toNat (cmdData w)) { s with ipos := 0, started := true }
    rw [e]
    exact ⟨_, _, _, _, _, _, _, _, _, _, _, _, _, _, _, _, _, _, rfl⟩
  · obtain ⟨_, _, _, _, _, _, e⟩ := finalizeTo_frame s (outputLength ((cmdN w).getLsbD 0) (cmdLen w) s)
    rw [e]
    exact ⟨_, _, _, _, _, _, _, _, _, _, _, _, _, _, _, _, _, _, rfl⟩
  · exact ⟨_, _, _, _, _, _, _, _, _, _, _, _, _, _, _, _, _, _, rfl⟩
  · exact ⟨_, _, _, _, _, _, _, _, _, _, _, _, _, _, _, _, _, _, rfl⟩
  · exact ⟨_, _, _, _, _, _, _, _, _, _, _, _, _, _, _, _, _, _, rfl⟩

/-- The next state of a command: the answer of its error, or its rule's. -/
theorem exec_command_cases (w : Word128) (s : State) :
    (∃ e : Nibble, 1 ≤ e.toNat ∧ e.toNat ≤ 5 ∧ firstError s.cfgValid (cmdOp w) (cmdN w) (cmdRate w) (cmdSufx w) = some e ∧
      exec (decodeCommand w) s = .next (present (responseWord (cmdOp w) e 0 true 0 0) s)) ∨
    (firstError s.cfgValid (cmdOp w) (cmdN w) (cmdRate w) (cmdSufx w) = none ∧
      exec (decodeCommand w) s = .next (ruleOf w s)) := by
  rw [exec_decodeCommand]
  rcases checked_cases (cmdOp w) (cmdN w) (cmdRate w) (cmdSufx w) s (ruleOf w) with ⟨e, h, h'⟩ | h
  · exact .inl ⟨e, (firstError_some h).1, (firstError_some h).2, h, h'⟩
  · exact .inr h

end Sys2Proof.Machine
end

