-- ==== Sys2Proof/Laws/Step.lean ====
section
/-! SUPPORT. What one step can do, said once. -/

namespace Sys2Proof.Machine

theorem step_sf (s : State) (p : SfPins) (rest : List Input) (h : s.inputs = .sf p :: rest) :
    step s = sfEdge p { s with inputs := rest } := by
  unfold step stepInput; rw [h]

theorem step_work {s : State} {p : SfPins} {rest : List Input} (h : s.inputs = .sf p :: rest) (h1 : p.rst = false)
    (h2 : s.offer = none) (h3 : p.cmdValid = false) : step s = sfWork p { s with inputs := rest } := by
  rw [step_sf _ _ _ h]
  cases s; cases p
  simp only at h1 h2 h3
  subst h1 h2 h3
  rfl


/-- The state an edge works on: its own input is off the agenda, and the offer is what is still raised after it. -/
abbrev atEdge (p : SfPins) (rest : List Input) (s : State) : State :=
  { s with inputs := rest, offer := offerAfter p s }

/-- The next edge is one of SF, with these pins, and this is left of the agenda. -/
abbrev SfNext (s : State) (p : SfPins) (rest : List Input) : Prop :=
  s.inputs = .sf p :: rest ∨ (s.inputs = [] ∧ s.alone.kph ≠ .run ∧ rest = [] ∧ p = SfPins.quiet)

/-- The next edge is one of the KP used on its own, with these pins, and this is left of the agenda. -/
abbrev KpNext (s : State) (p : KpPins) (rest : List Input) : Prop :=
  s.inputs = .kp p :: rest ∨ (s.inputs = [] ∧ s.alone.kph = .run ∧ rest = [] ∧ p = KpPins.quiet)

/-- The edge the next step is: its pins, and what is left of the agenda. -/
theorem step_edge (s : State) :
    (∃ p rest, SfNext s p rest ∧
      step s = if p.rst then .next { hardwareReset { s with inputs := rest } with offer := offerAfter p s }
        else if breaksOffer p s then .refused .hostChangedCommand else sfWork p (atEdge p rest s)) ∨
    (∃ p rest, KpNext s p rest ∧ step s = kpEdge p { s with inputs := rest }) := by
  rcases s with ⟨_, _, _, _, _, _, _, _, _, _, _, _, _, _, _, _, _, _, alone, _, _, inputs, _, _, _, _⟩
  match inputs with
  | [] =>
    by_cases hk : alone.kph = .run
    · exact .inr ⟨KpPins.quiet, [], .inr ⟨rfl, hk, rfl, rfl⟩, by simp only [step, stepInput, if_pos hk]⟩
    · exact .inl ⟨SfPins.quiet, [], .inr ⟨rfl, hk, rfl, rfl⟩, by simp only [step, stepInput, if_neg hk]; rfl⟩
  | .sf p :: rest => exact .inl ⟨p, rest, .inl rfl, rfl⟩
  | .kp p :: rest => exact .inr ⟨p, rest, .inl rfl, rfl⟩

/-- What SF does at an edge without reset, by PH (43_sponge_fsm.md R132 to R137). -/
theorem sfWork_cases (p : SfPins) (a : State) :
    (a.ph = .idle ∧ p.cmdValid = true ∧ sfWork p a = .next (acceptCommand p.cmdWord a)) ∨
    sfWork p a = .next a ∨
    (a.ph = .exec ∧ a.started = true ∧ sfWork p a = .next (continueCommand a)) ∨
    (a.ph = .exec ∧ a.started = false ∧ sfWork p a = beginCommand a) ∨
    (a.ph = .waitKp ∧ sfWork p a = waitEdge p.rounds a) ∨
    (a.ph = .rsp ∧ p.rspReady = true ∧ sfWork p a = .next (transferResponse a)) := by
  unfold sfWork
  cases hp : a.ph <;> simp only
  · cases p.cmdValid <;> simp
  · cases p.stall <;> cases a.started <;> simp
  · simp
  · cases p.rspReady <;> simp

/-- The first EXEC edge: a legal ABSORB or FINALIZE at the cycle level, or the command's meaning. -/
theorem beginCommand_cases (a : State) :
    beginCommand a = exec (decodeCommand a.cmdr) a ∨
    (a.level = .cycle ∧ a.cfgValid = true ∧ cmdOp a.cmdr = 0x2 ∧ (cmdN a.cmdr).toNat ≤ 8 ∧
      beginCommand a = .next (absorbEdge { a with ipos := 0, started := true })) ∨
    (a.level = .cycle ∧ a.cfgValid = true ∧ cmdOp a.cmdr = 0x3 ∧ beginCommand a = .next (finalizeStart a)) := by
  unfold beginCommand
  cases a.level
  · exact .inl rfl
  · simp only
    split_ifs with h1 h2
    · simp only [Bool.and_eq_true, beq_iff_eq, decide_eq_true_eq] at h1
      exact .inr (.inl ⟨trivial, h1.1.1, h1.1.2, h1.2, rfl⟩)
    · simp only [Bool.and_eq_true, beq_iff_eq] at h2
      exact .inr (.inr ⟨trivial, h2.1, h2.2, rfl⟩)
    · exact .inl rfl

/-- An edge of a KP in RUN, of any number of rounds: it applies them, or the ones left and goes to DONE. -/
theorem roundEdges_spec (n : Nat) (k : Kp) (h : k.kph = .run) (hk : k.krnd.toNat < 24) : k.roundEdges n =
    if 24 ≤ k.krnd.toNat + n then ⟨roundsFrom k.krnd.toNat (24 - k.krnd.toNat) k.ka, 0, .done⟩
    else ⟨roundsFrom k.krnd.toNat n k.ka, BitVec.ofNat 5 (k.krnd.toNat + n), .run⟩ := by
  induction n generalizing k with
  | zero =>
    obtain ⟨ka, krnd, kph⟩ := k
    subst h
    rw [if_neg (by simpa using hk)]
    simp [Kp.roundEdges, roundsFrom]
  | succ n ih =>
    rw [Kp.roundEdges, if_pos h]
    by_cases h23 : k.krnd = 23
    · have e : k.krnd.toNat = 23 := by rw [h23]; rfl
      rw [if_pos (by omega), e]
      cases n <;> simp [Kp.roundEdge, Kp.roundEdges, h23, roundsFrom]
    · have e23 : k.krnd.toNat ≠ 23 := fun e => h23 (BitVec.eq_of_toNat_eq e)
      have e1 : (k.krnd + 1).toNat = k.krnd.toNat + 1 := by rw [BitVec.toNat_add]; simp; omega
      have er : k.roundEdge = ⟨round k.ka k.krnd.toNat, k.krnd + 1, .run⟩ := if_neg h23
      rw [er, ih _ rfl (by show (k.krnd + 1).toNat < 24; omega)]
      simp only [e1]
      have e2 : 24 - k.krnd.toNat = (24 - (k.krnd.toNat + 1)) + 1 := by omega
      have e3 : k.krnd.toNat + 1 + n = k.krnd.toNat + (n + 1) := by omega
      rw [e2, e3]; rfl

/-- An edge of WAIT_KP: KP idles, runs, or hands over its result. -/
theorem waitEdge_cases (n : Nat) (a : State) :
    waitEdge n a = .next a ∨
    (a.kp.kph = .run ∧ a.kp.krnd.toNat < 24 ∧ waitEdge n a = .next { a with kp := a.kp.roundEdges n }) ∨
    (a.kp.kph = .run ∧ 24 ≤ a.kp.krnd.toNat ∧ waitEdge n a = .fault .krndOutOfRange) ∨
    (a.kp.kph = .done ∧ waitEdge n a = .next (takeKpResult a)) := by
  unfold waitEdge
  cases h : a.kp.kph
  · exact .inl rfl
  · simp only [kpRun]
    by_cases hk : a.kp.krnd.toNat < 24
    · have : a.kp.krndLegal = true := decide_eq_true hk
      simp [this, hk]
    · have : a.kp.krndLegal = false := decide_eq_false hk
      simp [this]; omega
  · simp

/-- An edge of a KP used on its own (40_permutation.md R92 to R97) changes that KP and the record of its results only. -/
theorem kpEdge_cases (p : KpPins) (a : State) :
    (∃ k taken, kpEdge p a = .next { a with alone := k, kpTaken := taken } ∧
      (k = Kp.reset ∨ (∃ A, k = Kp.load A) ∨ k = a.alone ∨ (a.alone.kph = .run ∧ a.alone.krnd.toNat < 24 ∧
          k = a.alone.roundEdges p.rounds) ∨
        (a.alone.kph = .done ∧ k = a.alone.take))) ∨
    (a.alone.kph = .run ∧ 24 ≤ a.alone.krnd.toNat ∧ kpEdge p a = .fault .krndOutOfRange) := by
  unfold kpEdge
  split
  · exact .inl ⟨_, a.kpTaken, rfl, .inl rfl⟩
  · cases h : a.alone.kph <;> simp only
    · split
      · show (∃ k taken, execPermute p.pInState a = _ ∧ _) ∨ _
        simp only [execPermute, if_pos h]
        exact .inl ⟨_, a.kpTaken, rfl, .inr (.inl ⟨_, rfl⟩)⟩
      · exact .inl ⟨a.alone, a.kpTaken, rfl, .inr (.inr (.inl rfl))⟩
    · simp only [kpRun]
      by_cases hk : a.alone.krnd.toNat < 24
      · have : a.alone.krndLegal = true := decide_eq_true hk
        simp only [this, if_true]
        exact .inl ⟨_, a.kpTaken, rfl, .inr (.inr (.inr (.inl ⟨trivial, hk, rfl⟩)))⟩
      · have : a.alone.krndLegal = false := decide_eq_false hk
        simp only [this]
        exact .inr ⟨trivial, by omega, rfl⟩
    · split
      · exact .inl ⟨_, _, rfl, .inr (.inr (.inr (.inr ⟨trivial, rfl⟩)))⟩
      · exact .inl ⟨a.alone, a.kpTaken, rfl, .inr (.inr (.inl rfl))⟩

/-- What one edge of SF's work can do to a state, apart from its own input. -/
theorem sfWork_next {p : SfPins} {a t : State} (h : sfWork p a = .next t) :
    (a.ph = .idle ∧ p.cmdValid = true ∧ t = acceptCommand p.cmdWord a) ∨
    t = a ∨
    (a.ph = .exec ∧ a.started = true ∧ t = continueCommand a) ∨
    (a.ph = .exec ∧ a.started = false ∧ exec (decodeCommand a.cmdr) a = .next t) ∨
    (a.ph = .exec ∧ a.started = false ∧ a.level = .cycle ∧ a.cfgValid = true ∧ cmdOp a.cmdr = 0x2 ∧
      (cmdN a.cmdr).toNat ≤ 8 ∧ t = absorbEdge { a with ipos := 0, started := true }) ∨
    (a.ph = .exec ∧ a.started = false ∧ a.level = .cycle ∧ a.cfgValid = true ∧ cmdOp a.cmdr = 0x3 ∧ t = finalizeStart a) ∨
    (a.ph = .waitKp ∧ a.kp.kph = .run ∧ a.kp.krnd.toNat < 24 ∧ t = { a with kp := a.kp.roundEdges p.rounds }) ∨
    (a.ph = .waitKp ∧ a.kp.kph = .done ∧ t = takeKpResult a) ∨
    (a.ph = .rsp ∧ p.rspReady = true ∧ t = transferResponse a) := by
  rcases sfWork_cases p a with ⟨h1, h2, h3⟩ | h3 | ⟨h1, h2, h3⟩ | ⟨h1, h2, h3⟩ | ⟨h1, h3⟩ | ⟨h1, h2, h3⟩ <;> rw [h3] at h
  · cases h; exact .inl ⟨h1, h2, rfl⟩
  · cases h; exact .inr (.inl rfl)
  · cases h; exact .inr (.inr (.inl ⟨h1, h2, rfl⟩))
  · rcases beginCommand_cases a with e | ⟨l, c, o, n, e⟩ | ⟨l, c, o, e⟩ <;> rw [e] at h
    · exact .inr (.inr (.inr (.inl ⟨h1, h2, h⟩)))
    · cases h; exact .inr (.inr (.inr (.inr (.inl ⟨h1, h2, l, c, o, n, rfl⟩))))
    · cases h; exact .inr (.inr (.inr (.inr (.inr (.inl ⟨h1, h2, l, c, o, rfl⟩)))))
  · rcases waitEdge_cases p.rounds a with e | ⟨k, n, e⟩ | ⟨k, n, e⟩ | ⟨k, e⟩ <;> rw [e] at h <;> cases h
    · exact .inr (.inl rfl)
    · exact .inr (.inr (.inr (.inr (.inr (.inr (.inl ⟨h1, k, n, rfl⟩))))))
    · exact .inr (.inr (.inr (.inr (.inr (.inr (.inr (.inl ⟨h1, k, rfl⟩)))))))
  · cases h; exact .inr (.inr (.inr (.inr (.inr (.inr (.inr (.inr ⟨h1, h2, rfl⟩)))))))

/-- What one step that answers a next state has done: a reset edge of SF, other work of SF, or an edge of the KP used on
its own. -/
theorem step_next_cases {s t : State} (h : step s = .next t) :
    (∃ p rest, s.inputs = .sf p :: rest ∧ p.rst = true ∧
      t = { hardwareReset { s with inputs := rest } with offer := offerAfter p s }) ∨
    (∃ p rest, SfNext s p rest ∧ p.rst = false ∧
      breaksOffer p s = false ∧ sfWork p (atEdge p rest s) = .next t) ∨
    (∃ p rest k taken, KpNext s p rest ∧ t = { s with inputs := rest, alone := k, kpTaken := taken } ∧
      (k = Kp.reset ∨ (∃ A, k = Kp.load A) ∨ k = s.alone ∨
        (s.alone.kph = .run ∧ s.alone.krnd.toNat < 24 ∧ k = s.alone.roundEdges p.rounds) ∨
        (s.alone.kph = .done ∧ k = s.alone.take))) := by
  rcases step_edge s with ⟨p, rest, hi, e⟩ | ⟨p, rest, hi, e⟩ <;> rw [e] at h
  · split_ifs at h with h1 h2
    · rcases hi with hi | ⟨-, -, -, rfl⟩
      · cases h; exact .inl ⟨p, rest, hi, h1, rfl⟩
      · exact absurd h1 (by decide)
    · exact .inr (.inl ⟨p, rest, hi, by simpa using h1, by simpa using h2, h⟩)
  · rcases kpEdge_cases p { s with inputs := rest } with ⟨k, taken, e', hk⟩ | ⟨_, _, e'⟩ <;> rw [e'] at h <;> cases h
    exact .inr (.inr ⟨p, rest, k, taken, hi, rfl, hk⟩)

/-- An EXEC edge of an ABSORB writes these fields only, and never ends in IDLE. -/
theorem absorbEdge_frame (a : State) : ∃ kp ph n bf bl ip r, (ph = a.ph ∨ ph = .waitKp ∨ ph = .rsp) ∧ absorbEdge a =
    { a with kp := kp, ph := ph, kpStarts := n, buf := bf, blen := bl, ipos := ip, rspr := r } := by
  unfold absorbEdge
  split_ifs
  · unfold kpRequest
    split_ifs
    · exact ⟨_, _, _, _, _, _, _, .inr (.inl rfl), rfl⟩
    · exact ⟨a.kp, a.ph, a.kpStarts, a.buf, a.blen, a.ipos, a.rspr, .inl rfl, rfl⟩
  · exact ⟨_, _, _, _, _, _, _, .inl rfl, rfl⟩
  · exact ⟨_, _, _, _, _, _, _, .inr (.inr rfl), rfl⟩

/-- The first EXEC edge of a FINALIZE writes these fields only. -/
theorem finalizeStart_frame (a : State) : ∃ kp ph n ot op st r, (ph = a.ph ∨ ph = .waitKp) ∧ finalizeStart a =
    { a with kp := kp, ph := ph, kpStarts := n, otot := ot, opos := op, started := st, rspr := r } := by
  unfold finalizeStart kpRequest
  split_ifs with h h'
  · exact ⟨_, _, _, _, _, _, _, .inr rfl, rfl⟩
  · exact absurd h h'
  · exact ⟨a.kp, a.ph, a.kpStarts, a.otot, a.opos, a.started, a.rspr, .inl rfl, rfl⟩

/-- A later EXEC edge of a FINALIZE writes these fields only. -/
theorem finalizeEdge_frame (a : State) : ∃ kp ph n zp op r, (ph = a.ph ∨ ph = .waitKp ∨ ph = .rsp) ∧ finalizeEdge a =
    { a with kp := kp, ph := ph, kpStarts := n, zpos := zp, opos := op, rspr := r } := by
  unfold finalizeEdge
  split_ifs
  · exact ⟨_, _, _, _, _, _, .inr (.inr rfl), rfl⟩
  · unfold kpRequest
    split_ifs
    · exact ⟨_, _, _, _, _, _, .inr (.inl rfl), rfl⟩
    · exact ⟨a.kp, a.ph, a.kpStarts, a.zpos, a.opos, a.rspr, .inl rfl, rfl⟩
  · exact ⟨_, _, _, _, _, _, .inl rfl, rfl⟩

end Sys2Proof.Machine
end

