-- ==== Sys2Proof/Laws/Inv.lean ====
section
/-! SUPPORT. What each operation and each kind of edge does to the legality of a state, said once. -/

namespace Sys2Proof.Machine

/-- A one-word response without output bytes is legal. -/
theorem legal_simple (op st : Nibble) (h : st.toNat ≤ 5) (l : Bool) (v : Word32)
    : LegalResponse (responseWord op st 0 l v 0) := by
  refine ⟨by simp, by simp, by simpa using h, ?_⟩
  intro j _
  simp [dataByte]

/-- A packed word is 0 from its length on. -/
theorem dataByte_packBytes_ge (c : List Byte) (j : Nat) (h : c.length ≤ j) : dataByte (packBytes c) j = 0 := by
  induction c generalizing j with
  | nil => simp [packBytes, dataByte]
  | cons b c ih =>
    simp only [List.length_cons] at h
    obtain ⟨j, rfl⟩ : ∃ k, j = k + 1 := ⟨j - 1, by omega⟩
    have := ih j (by omega)
    have e : packBytes (b :: c) = (packBytes c <<< 8) ||| b.setWidth 64 := rfl
    rw [e]
    ext i hi
    have t := congrArg (fun v : Byte => v.getLsbD i) this
    simp only [dataByte, BitVec.getLsbD_extractLsb', hi, decide_true, Bool.true_and] at t
    simp only [dataByte, BitVec.getElem_extractLsb', BitVec.getLsbD_or, BitVec.getLsbD_shiftLeft, BitVec.getLsbD_setWidth]
    have q2 : ¬ (8 * (j + 1) + i < 8) := by omega
    have q3 : 8 * (j + 1) + i - 8 = 8 * j + i := by omega
    have : b.getLsbD (8 * (j+1) + i) = false := BitVec.getLsbD_of_ge _ _ (by omega)
    simp only [q2, q3, t, this]
    simp

/-- A FINALIZE response word is legal (42_commands.md R122). -/
theorem legal_word (c : List Byte) (h : c.length ≤ 8) (l : Bool) (v : Word32) :
    LegalResponse (responseWord 0x3 statusOk (BitVec.ofNat 4 c.length) l v (packBytes c)) := by
  have e : (BitVec.ofNat 4 c.length).toNat = c.length := by simp; omega
  refine ⟨by simp, by simp; omega, by simp [statusOk], ?_⟩
  intro j hj
  simp only [rspNb_responseWord, e] at hj
  simp only [rspData_responseWord]
  exact dataByte_packBytes_ge c j hj

/-- One more byte keeps the word being built legal. -/
theorem legal_push (r : Word128) (b : Byte) (h : LegalResponse r) (h8 : (rspNb r).toNat ≠ 8)
    : LegalResponse (pushByte r b) := by
  obtain ⟨h1, h2, h3, h4⟩ := h
  have en : (rspNb r + 1).toNat = (rspNb r).toNat + 1 := by rw [BitVec.toNat_add]; simp; omega
  refine ⟨by simp [pushByte], by simp only [pushByte, rspNb_responseWord, en]; omega, by simpa [pushByte] using h3, ?_⟩
  intro j hj
  simp only [pushByte, rspNb_responseWord, en, rspData_responseWord] at hj ⊢
  have := h4 j (by omega)
  ext i hi
  have t := congrArg (fun v : Byte => v.getLsbD i) this
  simp only [dataByte, BitVec.getLsbD_extractLsb', hi, decide_true, Bool.true_and] at t
  simp only [dataByte, BitVec.getElem_extractLsb', BitVec.getLsbD_or, BitVec.getLsbD_shiftLeft, BitVec.getLsbD_setWidth, t]
  have : b.getLsbD (8 * j.val + i - 8 * (rspNb r).toNat) = false := BitVec.getLsbD_of_ge _ _ (by omega)
  simp [this]

/-- Setting LAST keeps a word legal. -/
theorem legal_last (r : Word128) (l : Bool) (h : LegalResponse r) : LegalResponse (responseWord (rspOp r)
    (rspStatus r) (rspNb r) l (rspValue r) (rspData r)) := by
  obtain ⟨h1, h2, h3, h4⟩ := h
  exact ⟨by simp, by simpa using h2, by simpa using h3, by simpa using h4⟩

/-- A round edge keeps a KP legal. -/
theorem ok_round (k : Kp) (h : k.krnd.toNat < 24) : k.roundEdge.Ok := by
  unfold Kp.roundEdge
  split_ifs with h23
  · exact ⟨by simp [Config.rounds], fun _ => rfl⟩
  · have : (k.krnd + 1).toNat = k.krnd.toNat + 1 := by
      rw [BitVec.toNat_add]; simp; omega
    refine ⟨?_, fun h => absurd rfl h⟩
    show (k.krnd + 1).toNat < 24
    have : k.krnd.toNat ≠ 23 := fun e => h23 (BitVec.eq_of_toNat_eq e)
    omega

/-- An idle KP is legal. -/
theorem ok_idle (A : Lanes) : Kp.Ok ⟨A, 0, .idle⟩ := ⟨by simp [Config.rounds], fun _ => rfl⟩

/-- A KP that has taken an input is legal. -/
theorem ok_load (A : Lanes) : (Kp.load A).Ok := ⟨by simp [Kp.load, Config.rounds], fun h => absurd rfl h⟩

/-- A KP whose result is taken is legal. -/
theorem ok_take (k : Kp) (h : k.Ok) (hd : k.kph = .done) : k.take.Ok := ⟨h.1, fun _ => h.2 (by rw [hd]; decide)⟩

/-- A round edge never leads to IDLE. -/
theorem ok_roundKph (k : Kp) : k.roundEdge.kph ≠ .idle := by
  unfold Kp.roundEdge; split_ifs <;> simp

/-- An edge of any number of rounds keeps a KP legal, and never leads to IDLE. -/
theorem ok_rounds (n : Nat) (k : Kp) (h : k.Ok) (h' : k.kph ≠ .idle) :
    (k.roundEdges n).Ok ∧ (k.roundEdges n).kph ≠ .idle := by
  induction n generalizing k with
  | zero => exact ⟨h, h'⟩
  | succ n ih =>
    unfold Kp.roundEdges
    split
    · exact ih _ (ok_round k h.1) (ok_roundKph k)
    · exact ⟨h, h'⟩

/-- RATE of a legal construction. -/
theorem configOk_rate (s : State) (h : s.ConfigOk) (hc : s.cfgValid = true)
    : 1 ≤ s.rate.toNat ∧ s.rate.toNat ≤ 200 := by
  unfold State.ConfigOk at h; rw [if_pos hc] at h; exact ⟨h.1, h.2.1⟩

/-- A legal configured state between commands has room for a byte. -/
theorem inv_ready (s : State) (h : s.Inv) (hc : s.cfgValid = true) (hn : ¬s.Absorbing) :
    s.cfgValid = true ∧ 1 ≤ s.rate.toNat ∧ s.rate.toNat ≤ 200 ∧ s.blen.toNat < s.rate.toNat := by
  obtain ⟨a, b⟩ := configOk_rate s h.config hc
  have := h.staging.1
  rw [if_pos hc] at this
  rcases this with h' | ⟨h', _⟩
  · exact ⟨hc, a, b, h'⟩
  · exact absurd h' hn

/-- A cleared buffer reads 0. -/
theorem zeroBuffer_get (k : Fin 200) : zeroBuffer[k] = 0 := by simp [zeroBuffer]

/-- A state that has just presented a LAST word is legal when its registers are. -/
theorem inv_answer (t : State) (hk : t.kp.Ok) (hi : t.kp.kph = .idle) (ha : t.alone.Ok) (hc : t.ConfigOk)
    (hs : if t.cfgValid then t.blen.toNat < t.rate.toNat else t.blen = 0 ∧ t.sponge = zeroLanes)
    (hb : ∀ k : Fin 200, t.blen.toNat ≤ k.val → t.buf[k] = 0)
    (hp : t.ph = .rsp) (hl : LegalResponse t.rspr) (hlast : rspLast t.rspr = true) (ho : rspOp t.rspr = cmdOp t.cmdr) : t.Inv := by
  refine ⟨hk, ha, hc, ⟨?_, hb⟩, ⟨?_, ?_⟩, ?_, ?_, ?_, ?_⟩
  · split_ifs with h <;> simp only [h] at hs
    · exact .inl hs
    · exact hs
  · rintro ⟨_, h | h⟩
    · rw [hp] at h; cases h.1
    · rw [hlast] at h; cases h.2
  · rintro (⟨_, h | h⟩ | h)
    · rw [hp] at h; cases h.1
    · rw [hlast] at h; cases h.2
    · rw [hp] at h; cases h.2
  · rw [hp, hi]; simp
  · rw [hp]; intro h; cases h
  · rw [hp]; intro h; rcases h with h | h <;> cases h
  · intro _; exact ⟨hl, ho, fun h => by rw [hlast] at h; cases h⟩

/-- BLEN of a legal state with no ABSORB at work. -/
theorem staging_of (s : State) (h : s.Inv) (hn : ¬s.Absorbing)
    : if s.cfgValid then s.blen.toNat < s.rate.toNat else s.blen = 0 ∧ s.sponge = zeroLanes := by
  have := h.staging.1
  split_ifs at this ⊢
  · rcases this with h | h
    · exact h
    · exact absurd h.1 hn
  · exact this

/-- Presenting a LAST word keeps a state legal. -/
theorem inv_present (s : State) (h : s.Inv) (hn : ¬s.Absorbing) (hi : s.kp.kph = .idle) (w : Word128)
    (hl : LegalResponse w) (hlast : rspLast w = true) (ho : rspOp w = cmdOp s.cmdr) :
    (present w s).Inv :=
  inv_answer _ h.kp hi h.alone h.config (staging_of s h hn) h.staging.2 rfl hl hlast ho

/-- An accepted CONFIG leaves a legal state. -/
theorem legal_construct (s : State) (fc : Nibble) (r x : Byte) (xof : Bool) (ol : Word32) (hp : s.kp.Ok)
    (hk : s.kp.kph = .idle) (ha : s.alone.Ok) (ho : cmdOp s.cmdr = 1)
   (hl : ({ s with fam := fc, rate := r, suffix := x, xof := xof, outlen := ol } : State).LegalConstruction) : (construct fc r x xof ol s).Inv := by
  refine inv_answer _ hp hk ha ?_ ?_ ?_ rfl (legal_simple _ _ (by decide) _ _) (by simp [construct, respondOk]) (by simp [construct, respondOk, ho])
  · show if true = true then _ else _
    rw [if_pos rfl]; exact hl
  · show if true = true then _ else _
    rw [if_pos rfl]; exact hl.1
  · intro k _; exact zeroBuffer_get k

/-- StageByte leaves KP legal and idle. -/
theorem stage_kp (s : State) (b : Byte) (h : s.kp.Ok ∧ s.kp.kph = .idle)
    : (stageByte s b).kp.Ok ∧ (stageByte s b).kp.kph = .idle := by
  unfold stageByte; simp only; split
  · exact ⟨ok_idle _, rfl⟩
  · exact h

/-- Staging bytes leaves KP legal and idle. -/
theorem absorb_kp (m : List Byte) (s : State) (h : s.kp.Ok ∧ s.kp.kph = .idle)
    : (absorbBytes m s).kp.Ok ∧ (absorbBytes m s).kp.kph = .idle := by
  induction m generalizing s with
  | nil => exact h
  | cons b m ih => exact ih _ (stage_kp s b h)

/-- Re-permuting Z leaves KP legal and idle. -/
theorem refill_kp (s : State) (h : s.kp.Ok ∧ s.kp.kph = .idle) : (refillZ s).kp.Ok ∧ (refillZ s).kp.kph = .idle := by
  unfold refillZ; split
  · exact ⟨ok_idle _, rfl⟩
  · exact h

/-- Emitting bytes leaves KP legal and idle. -/
theorem emit_kp (n : Nat) (s : State) (h : s.kp.Ok ∧ s.kp.kph = .idle)
    : (emitBytes n s).kp.Ok ∧ (emitBytes n s).kp.kph = .idle := by
  induction n generalizing s with
  | zero => exact h
  | succ n ih => 
    unfold emitBytes; split
    · exact h
    · exact ih _ (refill_kp s h)

/-- Presenting a word of a FINALIZE leaves a legal state. -/
theorem inv_outputWord (s : State) (Z : Lanes) (k : Nat) (he : Emits Z k s) (hr : s.rspr = emptyWord s.otot)
    (hk : s.kp.Ok ∧ s.kp.kph = .idle) (ha : s.alone.Ok) (hc : s.ConfigOk)
    (hv : s.cfgValid = true) (hb : s.blen.toNat < s.rate.toNat) (hz : ∀ k : Fin 200, s.blen.toNat ≤ k.val → s.buf[k] = 0) (hst : s.started = true) (ho : cmdOp s.cmdr = 3) :
    (outputWord s).Inv := by
  have hkp := emit_kp 8 s hk
  obtain ⟨e1, e2, e3, e4⟩ := outputWord_spec he hr
  obtain ⟨kp, ks, z, zp, op, r, hf⟩ := outputWord_frame s
  have hkp' : (outputWord s).kp = (emitBytes 8 s).kp := rfl
  rw [← hkp'] at hkp
  set t := outputWord s
  have hph : t.ph = .rsp := by rw [hf]
  refine ⟨hkp.1, by rw [hf]; exact ha, by rw [hf]; exact hc, ⟨?_, by rw [hf]; exact hz⟩, ⟨fun _ => e1.3, fun _ => e1.4⟩, ?_, ?_, ?_, ?_⟩
  · have : t.cfgValid = true := by rw [hf]; exact hv
    rw [if_pos this]; left; rw [hf]; exact hb
  · rw [hph, hkp.2]; simp
  · rw [hph]; intro h; cases h
  · rw [hph]; intro h; rcases h with h | h <;> cases h
  · intro _
    refine ⟨?_, ?_, fun _ => ⟨by rw [hf]; exact hv, by rw [hf]; exact hst, by rw [hf]; exact ho⟩⟩
    · rw [e4]
      have := legal_word (streamBytes s.rate.toNat Z s.opos.toNat (min 8 (s.otot.toNat - s.opos.toNat))) (by simp) (decide (s.opos.toNat + (min 8 (s.otot.toNat - s.opos.toNat)) = s.otot.toNat)) s.otot
      simpa using this
    · rw [e4]; rw [hf]; simp [ho]

/-- The rule of a command that passes its checks leaves a legal state. -/
theorem inv_rule (w : Word128) (s : State) (h : s.Inv) (hw : w = s.cmdr) (hp : s.ph = .exec) (hst : s.started = false)
   (he : firstError s.cfgValid (cmdOp w) (cmdN w) (cmdRate w) (cmdSufx w) = none) : (ruleOf w s).Inv := by
  have hn : ¬s.Absorbing := fun h => by have := h.2.1; rw [hst] at this; cases this
  have hi : s.kp.kph = .idle := by
    by_contra hc
    have := h.phase.1.2 hc
    rw [hp] at this; cases this
  subst hw
  unfold ruleOf
  split_ifs with o1 o2 o3 o4 o5
  · -- CONFIG
    have hleg : configLegal (cmdN s.cmdr) (cmdRate s.cmdr) (cmdSufx s.cmdr) = true := by
      rw [o1] at he
      unfold firstError at he
      cases hc : configLegal (cmdN s.cmdr) (cmdRate s.cmdr) (cmdSufx s.cmdr)
      · rw [hc] at he
        simp at he
        exfalso; split at he <;> cases he
      · rfl
    cases hps : presetOf (cmdN s.cmdr) with
    | some p =>
      simp only
      have hlt : ∀ n p, presetOf n = some p → 1 ≤ p.rate.toNat ∧ p.rate.toNat ≤ 200 ∧ p.suffix ≠ 0 := by
        intro n p hp
        have hm : p ∈ presetTable := List.mem_of_getElem? hp
        have : ∀ p ∈ presetTable, 1 ≤ p.rate.toNat ∧ p.rate.toNat ≤ 200 ∧ p.suffix ≠ 0 := by decide
        exact this p hm
      obtain ⟨a, b, c⟩ := hlt _ _ hps
      refine legal_construct s _ _ _ _ _ h.kp hi h.alone o1 ⟨a, b, c, .inl ⟨p, hps, rfl, rfl, rfl, fun hx => ?_⟩⟩
      show (if p.xof = true then _ else _) = _
      have hx : p.xof = false := hx
      rw [hx]; rfl
    | none =>
      simp only
      have hge : ∀ n, presetOf n = none → 10 ≤ n.toNat := by
        intro n hn
        have := List.getElem?_eq_none_iff.1 hn
        exact this
      have h10 := hge _ hps
      unfold configLegal Config.stateBytes at hleg
      rw [if_neg (by omega)] at hleg
      split_ifs at hleg with h14
      simp only [Bool.and_eq_true, decide_eq_true_eq] at hleg
      refine legal_construct s _ _ _ _ _ h.kp hi h.alone o1 ⟨hleg.1.1, hleg.1.2, hleg.2, .inr ?_⟩
      have : (cmdN s.cmdr).toNat = 14 ∨ (cmdN s.cmdr).toNat = 15 := by have := (cmdN s.cmdr).isLt; omega
      rcases this with e | e
      · have e : cmdN s.cmdr = 0xE := BitVec.eq_of_toNat_eq e
        exact .inl ⟨e, by show (_ == _) = _; rw [e]; rfl⟩
      · have e : cmdN s.cmdr = 0xF := BitVec.eq_of_toNat_eq e
        exact .inr ⟨e, by show (_ == _) = _; rw [e]; rfl⟩
  · -- ABSORB
    have hv : s.cfgValid = true := by
      by_contra hc
      have hc : s.cfgValid = false := by simpa using hc
      rw [o2, hc] at he; simp [firstError, needsConfig] at he
    obtain ⟨_, h1, h2, h3⟩ := inv_ready s h hv hn
    set m := messageBytes (cmdN s.cmdr).toNat (cmdData s.cmdr)
    obtain ⟨-, p2, -⟩ := absorbBytes_spec m { s with ipos := 0, started := true } h2 h3
    obtain ⟨_, _, _, _, _, hf⟩ := absorbBytes_frame m { s with ipos := 0, started := true }
    have hz := absorbBytes_bufZero m { s with ipos := 0, started := true } h2 h3 h.staging.2
    have hkp := absorb_kp m { s with ipos := 0, started := true } ⟨h.kp, hi⟩
    set a := absorbBytes m { s with ipos := 0, started := true }
    refine inv_answer _ hkp.1 hkp.2 (by rw [hf]; exact h.alone) (by rw [hf]; exact h.config) ?_ hz rfl (legal_simple _ _ (by decide) _ _) (by simp [respondOk]) ?_
    · have : (respondOk 2 ((cmdN s.cmdr).setWidth 32) a).cfgValid = true := by rw [hf]; exact hv
      rw [if_pos this]
      show a.blen.toNat < a.rate.toNat
      have : a.rate = s.rate := by rw [hf]
      rw [p2, this]; exact Nat.mod_lt _ (by show 0 < s.rate.toNat; omega)
    · rw [hf]; simp [respondOk, o2]
  · -- FINALIZE
    have hv : s.cfgValid = true := by
      by_contra hc
      have hc : s.cfgValid = false := by simpa using hc
      rw [o3, hc] at he; simp [firstError, needsConfig] at he
    obtain ⟨_, h1, h2, h3⟩ := inv_ready s h hv hn
    exact inv_outputWord _ _ _ (emits_start s (padInput s) _ h1 h2) rfl ⟨ok_idle _, rfl⟩ h.alone h.config hv h3 h.staging.2 rfl o3
  · -- RESET
    have hv : s.cfgValid = true := by
      by_contra hc
      have hc : s.cfgValid = false := by simpa using hc
      rw [o4, hc] at he; simp [firstError, needsConfig] at he
    refine inv_answer _ h.kp hi h.alone h.config ?_ (fun k _ => zeroBuffer_get k) rfl (legal_simple _ _ (by decide) _ _) (by simp [respondOk]) (by simp [respondOk, o4])
    show if s.cfgValid = true then _ else _
    rw [if_pos hv]; exact (configOk_rate s h.config hv).1
  · exact inv_present s h hn hi _ (legal_simple _ _ (by decide) _ _) (by simp) (by simp [o5])
  · exact inv_present s h hn hi _ (legal_simple _ _ (by decide) _ _) (by simp) (by simp)

/-- The agenda and the offer are no part of legality. -/
theorem inv_atEdge (s : State) (h : s.Inv) (inp off) : ({ s with inputs := inp, offer := off } : State).Inv :=
  ⟨h.kp, h.alone, h.config, h.staging, h.output, h.phase⟩

/-- In EXEC the KP of a legal state is idle. -/
theorem idle_of_exec (a : State) (h : a.Inv) (hp : a.ph = .exec) : a.kp.kph = .idle := by
  by_contra hc
  have := h.phase.1.2 hc
  rw [hp] at this; cases this

/-- An EXEC edge of an ABSORB keeps a state legal (43_sponge_fsm.md R134). -/
theorem inv_absorbEdge (a : State) (h : a.Inv) (hp : a.ph = .exec) (hs : a.started = true)
    (ho : cmdOp a.cmdr = 2) : (absorbEdge a).Inv := by
  obtain ⟨hv, hd⟩ := h.phase.2.2.1 (.inl hp) hs
  rcases hd with ⟨_, hn, hip⟩ | ⟨hx, _⟩
  swap
  · exact absurd (ho.symm.trans hx) (by decide)
  have hi := idle_of_exec a h hp
  have hst := h.staging.1
  rw [if_pos hv] at hst
  obtain ⟨r1, r2⟩ := configOk_rate a h.config hv
  have n3 : cmdOp a.cmdr ≠ 3 := by rw [ho]; decide
  unfold absorbEdge kpRequest
  split_ifs with h1 h2
  · refine ⟨ok_load _, h.alone, h.config, ⟨?_, h.staging.2⟩, ⟨fun he => absurd he.1 n3, fun he => ?_⟩, ?_, fun _ => hs, fun _ _ => ⟨hv, .inl ⟨ho, hn, hip⟩⟩, fun hh => by cases hh⟩
    · show if a.cfgValid = true then _ else _
      rw [if_pos hv]; exact .inr ⟨⟨.inr rfl, hs, ho⟩, h1⟩
    · rcases he with he | he <;> exact absurd he.1 n3
    · simp [Kp.load]
  · have hlt : a.blen.toNat < a.rate.toNat := hst.resolve_right fun hh => h1 hh.2
    have eb : (a.blen + 1).toNat = a.blen.toNat + 1 := toNat_add_one (by omega)
    have hip' : (a.ipos + 1).toNat = a.ipos.toNat + 1 := by
      have : Config.beatBytes = 8 := rfl
      rw [BitVec.toNat_add]; simp; omega
    refine ⟨h.kp, h.alone, h.config, ⟨?_, ?_⟩, ⟨fun he => absurd he.1 n3, fun he => ?_⟩, h.phase.1, h.phase.2.1, fun _ _ => ⟨hv, .inl ⟨ho, hn, ?_⟩⟩, fun hh => by rw [show (putByte _ a).ph = a.ph from rfl, hp] at hh; cases hh⟩
    · show if a.cfgValid = true then _ else _
      rw [if_pos hv]
      show (a.blen + 1).toNat < a.rate.toNat ∨ _
      by_cases hq : (a.blen + 1).toNat < a.rate.toNat
      · exact .inl hq
      · right
        exact ⟨⟨.inl hp, hs, ho⟩, BitVec.eq_of_toNat_eq (by show (a.blen + 1).toNat = a.rate.toNat; omega)⟩
    · intro k hk
      have hk : (a.blen + 1).toNat ≤ k.val := hk
      show (a.buf.setIfInBounds a.blen.toNat _)[k] = 0
      rw [Fin.getElem_fin, Vector.getElem_setIfInBounds, if_neg (by omega)]
      exact h.staging.2 k (by omega)
    · rcases he with he | he <;> exact absurd he.1 n3
    · show (a.ipos + 1).toNat ≤ _
      rw [hip']; exact h2
  · have hlt : a.blen.toNat < a.rate.toNat := hst.resolve_right fun hh => h1 hh.2
    exact inv_answer _ h.kp hi h.alone h.config (by show if a.cfgValid = true then _ else _; rw [if_pos hv]; exact hlt) h.staging.2 rfl (legal_simple _ _ (by decide) _ _) (by simp [respondOk]) (by simp [respondOk, ho])

/-- Beginning an ABSORB keeps a state legal. -/
theorem inv_beginAbsorb (a : State) (h : a.Inv) (hp : a.ph = .exec) (hs : a.started = false)
    (ho : cmdOp a.cmdr = 2) (hv : a.cfgValid = true) (hn : (cmdN a.cmdr).toNat ≤ 8) :
    ({ a with ipos := 0, started := true } : State).Inv := by
  have hna : ¬a.Absorbing := fun h => by have := h.2.1; rw [hs] at this; cases this
  have n3 : cmdOp a.cmdr ≠ 3 := by rw [ho]; decide
  have hst := staging_of a h hna
  rw [if_pos hv] at hst
  refine ⟨h.kp, h.alone, h.config, ⟨?_, h.staging.2⟩, ⟨fun he => absurd he.1 n3, fun he => ?_⟩, h.phase.1, fun _ => rfl, fun _ _ => ⟨hv, .inl ⟨ho, hn, by simp⟩⟩, fun hh => by rw [show a.ph = .rsp from hh] at hp; cases hp⟩
  · show if a.cfgValid = true then _ else _
    rw [if_pos hv]; exact .inl hst
  · rcases he with he | he <;> exact absurd he.1 n3

/-- The empty FINALIZE word is legal. -/
theorem legal_empty (L : Word32) : LegalResponse (emptyWord L) := legal_simple _ _ (by decide) _ _

/-- The first EXEC edge of a FINALIZE keeps a state legal (43_sponge_fsm.md R135). -/
theorem inv_finalizeStart (a : State) (h : a.Inv) (hp : a.ph = .exec) (hs : a.started = false)
    (ho : cmdOp a.cmdr = 3) (hv : a.cfgValid = true) : (finalizeStart a).Inv := by
  have hi := idle_of_exec a h hp
  have hna : ¬a.Absorbing := fun h => by have := h.2.1; rw [hs] at this; cases this
  have hst := staging_of a h hna
  rw [if_pos hv] at hst
  unfold finalizeStart kpRequest
  rw [if_pos hi, if_pos (by exact hi)]
  refine ⟨ok_load _, h.alone, h.config, ⟨?_, h.staging.2⟩, ⟨?_, fun _ => by simp⟩, ?_, fun _ => rfl, fun _ _ => ⟨hv, .inr ⟨ho, legal_empty _, ?_, ?_, ?_, ?_, fun _ => rfl⟩⟩, fun hh => by cases hh⟩
  · show if a.cfgValid = true then _ else _
    rw [if_pos hv]; exact .inl hst
  · rintro ⟨_, he | he⟩ <;> cases he.1
  · simp [Kp.load]
  · simp [emptyWord]
  · simp [emptyWord]
  · simp [emptyWord]
  · simp [emptyWord]

/-- A later EXEC edge of a FINALIZE keeps a state legal (43_sponge_fsm.md R135). -/
theorem inv_finalizeEdge (a : State) (h : a.Inv) (hlev : a.level = .cycle) (hp : a.ph = .exec)
    (hs : a.started = true) (ho : cmdOp a.cmdr = 3) : (finalizeEdge a).Inv := by
  obtain ⟨hv, hd⟩ := h.phase.2.2.1 (.inl hp) hs
  rcases hd with ⟨hx, _⟩ | ⟨_, hl, h3, hst, hlast, hval, hem0⟩
  · exact absurd (ho.symm.trans hx) (by decide)
  have hi := idle_of_exec a h hp
  have hna : ¬a.Absorbing := fun h => by exact absurd (ho.symm.trans h.2.2) (by decide)
  have hsg := staging_of a h hna
  rw [if_pos hv] at hsg
  have hem : a.Emitting := ⟨ho, .inl ⟨hp, hs⟩⟩
  have z1 := h.output.1 hem
  have o1 := h.output.2 (.inl hem)
  obtain ⟨r1, r2⟩ := configOk_rate a h.config hv
  have hcf : ∀ (P Q : Prop), P → (if a.cfgValid = true then P else Q) := fun P Q hP => by rw [if_pos hv]; exact hP
  unfold finalizeEdge kpRequest
  split_ifs with c1 c2
  · refine ⟨h.kp, h.alone, h.config, ⟨hcf _ _ (.inl hsg), h.staging.2⟩, ⟨fun _ => z1, fun _ => o1⟩, ?_, fun hh => (by cases hh), fun hh => (by rcases hh with hh | hh <;> cases hh), fun _ => ⟨legal_last _ _ hl, ?_, fun _ => ⟨hv, hs, ho⟩⟩⟩
    · show SfPhase.rsp = _ ↔ a.kp.kph ≠ _
      rw [hi]; simp
    · show rspOp (responseWord _ _ _ _ _ _) = cmdOp a.cmdr
      simp [h3, ho]
  · refine ⟨ok_load _, h.alone, h.config, ⟨hcf _ _ (.inl hsg), h.staging.2⟩, ⟨fun _ => z1, fun _ => o1⟩, ?_, fun _ => hs, fun _ _ => ⟨hv, .inr ⟨ho, hl, h3, hst, hlast, hval, hem0⟩⟩, fun hh => by cases hh⟩
    simp [Kp.load]
  · rw [not_or] at c1
    have eo : (a.opos + 1).toNat = a.opos.toNat + 1 := by
      have : a.opos.toNat ≠ a.otot.toNat := fun e => c1.1 (BitVec.eq_of_toNat_eq e)
      have := a.otot.isLt
      rw [BitVec.toNat_add]; simp; omega
    have hlt : a.opos.toNat ≠ a.otot.toNat := fun e => c1.1 (BitVec.eq_of_toNat_eq e)
    have hzr : a.zpos.toNat ≠ a.rate.toNat := fun e => c2 (BitVec.eq_of_toNat_eq e)
    have ez : (a.zpos + 1).toNat = a.zpos.toNat + 1 := toNat_add_one (by omega)
    have hnb : (rspNb a.rspr).toNat ≠ 8 := fun e => c1.2 (BitVec.eq_of_toNat_eq e)
    refine ⟨h.kp, h.alone, h.config, ⟨hcf _ _ (.inl hsg), h.staging.2⟩, ⟨fun _ => ?_, fun _ => ?_⟩, h.phase.1, h.phase.2.1, fun _ _ => ⟨hv, .inr ⟨ho, legal_push _ _ hl hnb, ?_, ?_, ?_, ?_, fun hq => by rw [show (emitByte a).level = a.level from rfl, hlev] at hq; cases hq⟩⟩, fun hh => by rw [show (emitByte a).ph = a.ph from rfl, hp] at hh; cases hh⟩
    · show (a.zpos + 1).toNat ≤ a.rate.toNat
      omega
    · show (a.opos + 1).toNat ≤ a.otot.toNat
      omega
    · simp [pushByte, h3]
    · simp [pushByte, hst]
    · simp [pushByte, hlast]
    · simp [pushByte, hval]

/-- Emitting bytes keeps the output counters in range. -/
theorem emit_weak (n : Nat) (s : State) (r2 : s.rate.toNat ≤ 200) (r1 : 1 ≤ s.rate.toNat)
    (z : s.zpos.toNat ≤ s.rate.toNat) (o : s.opos.toNat ≤ s.otot.toNat) (hl : LegalResponse s.rspr)
   (hn : (rspNb s.rspr).toNat + n ≤ 8) :
   let t := emitBytes n s
   t.zpos.toNat ≤ t.rate.toNat ∧ t.opos.toNat ≤ t.otot.toNat ∧ LegalResponse t.rspr := by
  induction n generalizing s with
  | zero => exact ⟨z, o, hl⟩
  | succ n ih =>
    unfold emitBytes
    split
    · exact ⟨z, o, hl⟩
    · rename_i ho
      obtain ⟨kp, ks, zz, zp, e⟩ := refillZ_frame s
      have hz : (refillZ s).zpos.toNat < s.rate.toNat := by
        unfold refillZ; split
        · simp; omega
        · rename_i hne
          have : s.zpos.toNat ≠ s.rate.toNat := fun e => hne (BitVec.eq_of_toNat_eq e)
          omega
      have e1 : (refillZ s).rate = s.rate := by rw [e]
      have e2 : (refillZ s).opos = s.opos := by rw [e]
      have e3 : (refillZ s).otot = s.otot := by rw [e]
      have e4 : (refillZ s).rspr = s.rspr := by rw [e]
      have ez : ((refillZ s).zpos + 1).toNat = (refillZ s).zpos.toNat + 1 := toNat_add_one (by omega)
      have hlt : s.opos.toNat ≠ s.otot.toNat := fun e => ho (BitVec.eq_of_toNat_eq e)
      have eo : (s.opos + 1).toNat = s.opos.toNat + 1 := by
        have := s.otot.isLt
        rw [BitVec.toNat_add]; simp; omega
      have hnb : (rspNb (refillZ s).rspr).toNat ≠ 8 := by rw [e4]; omega
      have en : (rspNb s.rspr + 1).toNat = (rspNb s.rspr).toNat + 1 := by rw [BitVec.toNat_add]; simp; omega
      refine ih (emitByte (refillZ s)) ?_ ?_ ?_ ?_ ?_ ?_
      · show (refillZ s).rate.toNat ≤ 200; rw [e1]; exact r2
      · show 1 ≤ (refillZ s).rate.toNat; rw [e1]; exact r1
      · show ((refillZ s).zpos + 1).toNat ≤ (refillZ s).rate.toNat; rw [ez, e1]; omega
      · show ((refillZ s).opos + 1).toNat ≤ (refillZ s).otot.toNat; rw [e2, e3, eo]; omega
      · exact legal_push _ _ (by rw [e4]; exact hl) hnb
      · show (rspNb (pushByte (refillZ s).rspr _)).toNat + n ≤ 8
        simp only [pushByte, rspNb_responseWord, e4, en]; omega

/-- A later word of a FINALIZE, built in one step, keeps a state legal. -/
theorem inv_transOutput (a : State) (h : a.Inv) (hlev : a.level = .transaction) (hp : a.ph = .exec)
    (hs : a.started = true) (ho : cmdOp a.cmdr = 3) : (outputWord a).Inv := by
  obtain ⟨hv, hd⟩ := h.phase.2.2.1 (.inl hp) hs
  rcases hd with ⟨hx, _⟩ | ⟨_, hl, h3, hst, hlast, hval, hem0⟩
  · exact absurd (ho.symm.trans hx) (by decide)
  have hi := idle_of_exec a h hp
  have hna : ¬a.Absorbing := fun h => by exact absurd (ho.symm.trans h.2.2) (by decide)
  have hsg := staging_of a h hna
  rw [if_pos hv] at hsg
  have hem : a.Emitting := ⟨ho, .inl ⟨hp, hs⟩⟩
  obtain ⟨r1, r2⟩ := configOk_rate a h.config hv
  have hnb : (rspNb a.rspr).toNat + 8 ≤ 8 := by rw [hem0 hlev]; simp [emptyWord]
  obtain ⟨w1, w2, w3⟩ := emit_weak 8 a r2 r1 (h.output.1 hem) (h.output.2 (.inl hem)) hl hnb
  have hkp := emit_kp 8 a ⟨h.kp, hi⟩
  obtain ⟨hh1, hh2⟩ := outputWord_head a
  obtain ⟨kp, ks, z, zp, op, r, hf⟩ := outputWord_frame a
  have hkp' : (outputWord a).kp = (emitBytes 8 a).kp := rfl
  have hz' : (outputWord a).zpos.toNat ≤ (outputWord a).rate.toNat := w1
  have ho' : (outputWord a).opos.toNat ≤ (outputWord a).otot.toNat := w2
  have hl' : LegalResponse (outputWord a).rspr := legal_last _ _ w3
  rw [← hkp'] at hkp
  set t := outputWord a
  have hph : t.ph = .rsp := by rw [hf]
  refine ⟨hkp.1, by rw [hf]; exact h.alone, by rw [hf]; exact h.config, ⟨?_, by rw [hf]; exact h.staging.2⟩, ⟨fun _ => hz', fun _ => ho'⟩, ?_, ?_, ?_, ?_⟩
  · have : t.cfgValid = true := by rw [hf]; exact hv
    rw [if_pos this]; left; rw [hf]; exact hsg
  · rw [hph, hkp.2]; simp
  · rw [hph]; intro h; cases h
  · rw [hph]; intro h; rcases h with h | h <;> cases h
  · intro _
    refine ⟨hl', ?_, fun _ => ⟨by rw [hf]; exact hv, by rw [hf]; exact hs, by rw [hf]; exact ho⟩⟩
    rw [hh1, h3, hf]; exact ho.symm

/-- Taking a KP result keeps a state legal. -/
theorem inv_take (a : State) (h : a.Inv) (hp : a.ph = .waitKp) (hd : a.kp.kph = .done) : (takeKpResult a).Inv := by
  have hs := h.phase.2.1 hp
  obtain ⟨hv, hc⟩ := h.phase.2.2.1 (.inr hp) hs
  obtain ⟨r1, r2⟩ := configOk_rate a h.config hv
  have hcf : ∀ (P Q : Prop), P → (if a.cfgValid = true then P else Q) := fun P Q hP => by rw [if_pos hv]; exact hP
  have hk : a.kp.take.Ok := ok_take a.kp h.kp hd
  rcases hc with ⟨ho, hn, hip⟩ | ⟨ho, hl, h3, hst, hlast, hval, hem0⟩
  · have n3 : cmdOp a.cmdr ≠ 3 := by rw [ho]; decide
    have : takeKpResult a = finishBlock { a with kp := a.kp.take, ph := .exec } := by simp only [takeKpResult, ho, if_true]
    rw [this]
    refine ⟨hk, h.alone, h.config, ⟨hcf _ _ (.inl (by show 0 < a.rate.toNat; omega)), fun k _ => zeroBuffer_get k⟩, ⟨fun he => absurd he.1 n3, fun he => ?_⟩, ?_, fun hh => (by cases hh), fun _ _ => ⟨hv, .inl ⟨ho, hn, hip⟩⟩, fun hh => by cases hh⟩
    · rcases he with he | he <;> exact absurd he.1 n3
    · show SfPhase.exec = .waitKp ↔ KpPhase.idle ≠ .idle
      simp
  · have : takeKpResult a = loadZ { a with kp := a.kp.take, ph := .exec } := by
      simp only [takeKpResult, ho]; rfl
    rw [this]
    have hna : ¬a.Absorbing := fun h => by exact absurd (ho.symm.trans h.2.2) (by decide)
    have hsg := staging_of a h hna
    rw [if_pos hv] at hsg
    have o1 := h.output.2 (.inr ⟨ho, hp⟩)
    refine ⟨hk, h.alone, h.config, ⟨hcf _ _ (.inl hsg), h.staging.2⟩, ⟨fun _ => by simp, fun _ => o1⟩, ?_, fun hh => (by cases hh), fun _ _ => ⟨hv, .inr ⟨ho, hl, h3, hst, hlast, hval, hem0⟩⟩, fun hh => by cases hh⟩
    show SfPhase.exec = .waitKp ↔ KpPhase.idle ≠ .idle
    simp

/-- A response handshake keeps a state legal (43_sponge_fsm.md R137). -/
theorem inv_transfer (a : State) (h : a.Inv) (hp : a.ph = .rsp) : (transferResponse a).Inv := by
  have hna : ¬a.Absorbing := fun h => by rcases h.1 with h | h <;> (rw [hp] at h; cases h)
  have hsg := staging_of a h hna
  have hi : a.kp.kph = .idle := by
    by_contra hc
    have := h.phase.1.2 hc
    rw [hp] at this; cases this
  have stg : ∀ t : State, (if a.cfgValid then a.blen.toNat < a.rate.toNat else a.blen = 0 ∧ a.sponge = zeroLanes) → t.cfgValid = a.cfgValid → t.blen = a.blen → t.rate = a.rate → t.sponge = a.sponge → 
     (if t.cfgValid then t.blen.toNat < t.rate.toNat ∨ (t.Absorbing ∧ t.blen = t.rate) else t.blen = 0 ∧ t.sponge = zeroLanes) := by
    intro t ht e1 e2 e3 e4
    rw [e1, e2, e3, e4]
    split_ifs at ht ⊢
    · exact .inl ht
    · exact ht
  obtain ⟨l1, l2, l3⟩ := h.phase.2.2.2 hp
  unfold transferResponse
  simp only
  split_ifs with hl
  · refine ⟨h.kp, h.alone, h.config, ⟨stg _ hsg rfl rfl rfl rfl, h.staging.2⟩, ⟨?_, ?_⟩, ?_, fun hh => (by cases hh), fun hh => (by rcases hh with hh | hh <;> cases hh), fun hh => by cases hh⟩
    · rintro ⟨_, he | he⟩ <;> cases he.1
    · rintro (⟨_, he | he⟩ | he)
      · cases he.1
      · cases he.1
      · cases he.2
    · show SfPhase.idle = .waitKp ↔ a.kp.kph ≠ .idle
      rw [hi]; simp
  · have hl : rspLast a.rspr = false := by simpa using hl
    obtain ⟨hv, hs, ho⟩ := l3 hl
    have hem : a.Emitting := ⟨ho, .inr ⟨hp, hl⟩⟩
    refine ⟨h.kp, h.alone, h.config, ⟨stg _ hsg rfl rfl rfl rfl, h.staging.2⟩, ⟨fun _ => h.output.1 hem, fun _ => h.output.2 (.inl hem)⟩, ?_, fun hh => (by cases hh), fun _ _ => ⟨hv, .inr ⟨ho, legal_empty _, ?_, ?_, ?_, ?_, fun _ => rfl⟩⟩, fun hh => by cases hh⟩
    · show SfPhase.exec = .waitKp ↔ a.kp.kph ≠ .idle
      rw [hi]; simp
    all_goals simp [emptyWord]

/-- Accepting a command keeps a state legal (43_sponge_fsm.md R132). -/
theorem inv_accept (a : State) (h : a.Inv) (hp : a.ph = .idle) (w : Word128) : (acceptCommand w a).Inv := by
  have hna : ¬a.Absorbing := fun h => by rcases h.1 with h | h <;> (rw [hp] at h; cases h)
  have hsg := staging_of a h hna
  have hi : a.kp.kph = .idle := by
    by_contra hc
    have := h.phase.1.2 hc
    rw [hp] at this; cases this
  refine ⟨h.kp, h.alone, h.config, ⟨?_, h.staging.2⟩, ⟨?_, ?_⟩, ?_, fun hh => (by cases hh), fun _ hh => (by cases hh), fun hh => by cases hh⟩
  · show if a.cfgValid then a.blen.toNat < a.rate.toNat ∨ _ else a.blen = 0 ∧ a.sponge = zeroLanes
    split_ifs at hsg ⊢
    · exact .inl hsg
    · exact hsg
  · rintro ⟨_, he | he⟩
    · cases he.2
    · cases he.1
  · rintro (⟨_, he | he⟩ | he)
    · cases he.2
    · cases he.1
    · cases he.2
  · show SfPhase.exec = .waitKp ↔ a.kp.kph ≠ .idle
    rw [hi]; simp

/-- An edge of SF's KP in RUN, of any number of rounds, keeps a state legal. -/
theorem inv_kpround (n : Nat) (a : State) (h : a.Inv) (hp : a.ph = .waitKp) :
    ({ a with kp := a.kp.roundEdges n } : State).Inv := by
  obtain ⟨h1, h2⟩ := ok_rounds n a.kp h.kp (h.phase.1.1 hp)
  exact ⟨h1, h.alone, h.config, h.staging, h.output, iff_of_true hp h2, h.phase.2.1, h.phase.2.2.1, h.phase.2.2.2⟩

end Sys2Proof.Machine
end

