-- ==== Sys2Proof/Laws/PerInstr.lean ====
section
/-! SUPPORT. EncodedFields, for every instruction as syntax: its packet is a 16-byte command word with RSVD 0
(30_encoding.md R58, R76), or the 200-byte KP bus it names (20_memory.md R44). -/

namespace Sys2Proof.Laws.EncodedFields

/-- The packet of an instruction, and how many bytes it takes. -/
def Statement (i : Instr) : Prop :=
  (∀ w, encodePacket i = .command w → cmdRsvd w = 0 ∧ (encode i).length = 16) ∧
    ∀ bus, encodePacket i = .kpInput bus → i = .permute bus ∧ (encode i).length = 200

/-- An instruction encoded with `commandWord`. -/
theorem of_commandWord {i : Instr} {op n : Nibble} {rate sufx : Byte} {len : Word32} {data : Lane}
    (h : encodePacket i = .command (commandWord op n rate sufx len data)) : Statement i := by
  refine ⟨fun w hw => ?_, fun bus hb => ?_⟩
  · rw [h] at hw
    cases hw
    exact ⟨by simp, by rw [encode, h]; exact natBytes_length _ _⟩
  · rw [h] at hb
    cases hb

theorem nop : Statement .nop := of_commandWord rfl

theorem configSha3_224 : Statement .configSha3_224 := of_commandWord rfl

theorem configSha3_256 : Statement .configSha3_256 := of_commandWord rfl

theorem configSha3_384 : Statement .configSha3_384 := of_commandWord rfl

theorem configSha3_512 : Statement .configSha3_512 := of_commandWord rfl

theorem configKeccak_224 : Statement .configKeccak_224 := of_commandWord rfl

theorem configKeccak_256 : Statement .configKeccak_256 := of_commandWord rfl

theorem configKeccak_384 : Statement .configKeccak_384 := of_commandWord rfl

theorem configKeccak_512 : Statement .configKeccak_512 := of_commandWord rfl

theorem configShake128 (len : Word32) : Statement (.configShake128 len) := of_commandWord rfl

theorem configShake256 (len : Word32) : Statement (.configShake256 len) := of_commandWord rfl

theorem configCustomFixed (rate suffix : Byte) (len : Word32) : Statement (.configCustomFixed rate suffix len) := of_commandWord rfl

theorem configCustomXof (rate suffix : Byte) (len : Word32) : Statement (.configCustomXof rate suffix len) := of_commandWord rfl

theorem configReservedA : Statement .configReservedA := of_commandWord rfl

theorem configReservedB : Statement .configReservedB := of_commandWord rfl

theorem configReservedC : Statement .configReservedC := of_commandWord rfl

theorem configReservedD : Statement .configReservedD := of_commandWord rfl

theorem absorb0 : Statement .absorb0 := of_commandWord rfl

theorem absorb1 (data : Lane) : Statement (.absorb1 data) := of_commandWord rfl

theorem absorb2 (data : Lane) : Statement (.absorb2 data) := of_commandWord rfl

theorem absorb3 (data : Lane) : Statement (.absorb3 data) := of_commandWord rfl

theorem absorb4 (data : Lane) : Statement (.absorb4 data) := of_commandWord rfl

theorem absorb5 (data : Lane) : Statement (.absorb5 data) := of_commandWord rfl

theorem absorb6 (data : Lane) : Statement (.absorb6 data) := of_commandWord rfl

theorem absorb7 (data : Lane) : Statement (.absorb7 data) := of_commandWord rfl

theorem absorb8 (data : Lane) : Statement (.absorb8 data) := of_commandWord rfl

theorem absorbBad9 : Statement .absorbBad9 := of_commandWord rfl

theorem absorbBad10 : Statement .absorbBad10 := of_commandWord rfl

theorem absorbBad11 : Statement .absorbBad11 := of_commandWord rfl

theorem absorbBad12 : Statement .absorbBad12 := of_commandWord rfl

theorem absorbBad13 : Statement .absorbBad13 := of_commandWord rfl

theorem absorbBad14 : Statement .absorbBad14 := of_commandWord rfl

theorem absorbBad15 : Statement .absorbBad15 := of_commandWord rfl

theorem finalize : Statement .finalize := of_commandWord rfl

theorem finalizeLen (len : Word32) : Statement (.finalizeLen len) := of_commandWord rfl

theorem reset : Statement .reset := of_commandWord rfl

theorem queryBsize : Statement .queryBsize := of_commandWord rfl

theorem queryOsize : Statement .queryOsize := of_commandWord rfl

theorem queryStatus : Statement .queryStatus := of_commandWord rfl

theorem querySuffix : Statement .querySuffix := of_commandWord rfl

theorem queryBad4 : Statement .queryBad4 := of_commandWord rfl

theorem queryBad5 : Statement .queryBad5 := of_commandWord rfl

theorem queryBad6 : Statement .queryBad6 := of_commandWord rfl

theorem queryBad7 : Statement .queryBad7 := of_commandWord rfl

theorem queryBad8 : Statement .queryBad8 := of_commandWord rfl

theorem queryBad9 : Statement .queryBad9 := of_commandWord rfl

theorem queryBadA : Statement .queryBadA := of_commandWord rfl

theorem queryBadB : Statement .queryBadB := of_commandWord rfl

theorem queryBadC : Statement .queryBadC := of_commandWord rfl

theorem queryBadD : Statement .queryBadD := of_commandWord rfl

theorem queryBadE : Statement .queryBadE := of_commandWord rfl

theorem queryBadF : Statement .queryBadF := of_commandWord rfl

theorem illegalOp6 : Statement .illegalOp6 := of_commandWord rfl

theorem illegalOp7 : Statement .illegalOp7 := of_commandWord rfl

theorem illegalOp8 : Statement .illegalOp8 := of_commandWord rfl

theorem illegalOp9 : Statement .illegalOp9 := of_commandWord rfl

theorem illegalOpA : Statement .illegalOpA := of_commandWord rfl

theorem illegalOpB : Statement .illegalOpB := of_commandWord rfl

theorem illegalOpC : Statement .illegalOpC := of_commandWord rfl

theorem illegalOpD : Statement .illegalOpD := of_commandWord rfl

theorem illegalOpE : Statement .illegalOpE := of_commandWord rfl

theorem illegalOpF : Statement .illegalOpF := of_commandWord rfl

theorem permute (bus : Bus) : Statement (.permute bus) := by
  refine ⟨fun w hw => (by cases hw), fun b hb => ?_⟩
  cases hb
  exact ⟨rfl, natBytes_length _ _⟩

end Sys2Proof.Laws.EncodedFields
end

