-- ==== Sys2Proof/Machine/AsmText.lean ====
section
/-! DEFINITION. The assembler's text (30_encoding.md R76, R77): one command a line, `;` starts a comment, numbers are
decimal or `0x` hexadecimal, and `_` in a number only separates digit groups (00_scope.md R11). -/

namespace Sys2Proof.Machine

/-! ### Tokens -/

/-- What a line is made of. -/
inductive Token where
  | word (w : List Char)
  | comma
  | openList
  | closeList
  | equals
  deriving DecidableEq, Repr

/-- The word whose characters were read so far, last first. -/
def flushWord (acc : List Char) : List Token := if acc = [] then [] else [.word acc.reverse]

/-- The tokens of a line up to its comment. -/
def tokens : List Char → List Char → List Token
  | acc, [] => flushWord acc
  | acc, c :: cs =>
    if c = ';' then flushWord acc
    else if c = ' ' ∨ c = '\t' ∨ c = '\r' then flushWord acc ++ tokens [] cs
    else if c = ',' then flushWord acc ++ .comma :: tokens [] cs
    else if c = '[' then flushWord acc ++ .openList :: tokens [] cs
    else if c = ']' then flushWord acc ++ .closeList :: tokens [] cs
    else if c = '=' then flushWord acc ++ .equals :: tokens [] cs
    else tokens (c :: acc) cs

/-- The lines of a text. -/
def textLines : List Char → List Char → List (List Char)
  | acc, [] => [acc.reverse]
  | acc, c :: cs => if c = '\n' then acc.reverse :: textLines [] cs else textLines (c :: acc) cs

/-! ### Numbers -/

/-- The value of a digit in base 16. -/
def digitValue (c : Char) : Option Nat :=
  if '0' ≤ c ∧ c ≤ '9' then some (c.toNat - '0'.toNat)
  else if 'a' ≤ c ∧ c ≤ 'f' then some (c.toNat - 'a'.toNat + 10)
  else if 'A' ≤ c ∧ c ≤ 'F' then some (c.toNat - 'A'.toNat + 10)
  else none

/-- The number these digits go on to write after `v`. -/
def digitsValue (base : Nat) : Nat → List Char → Option Nat
  | v, [] => some v
  | v, c :: cs =>
    if c = '_' then digitsValue base v cs
    else
      match digitValue c with
      | some d => if d < base then digitsValue base (base * v + d) cs else none
      | none => none

/-- A number, decimal or `0x` hexadecimal. -/
def parseNumber (w : List Char) : Option Nat :=
  match w with
  | [] => none
  | '0' :: 'x' :: [] => none
  | '0' :: 'x' :: c :: cs => if c = '_' then none else digitsValue 16 0 (c :: cs)
  | c :: cs => if c = '_' then none else digitsValue 10 0 (c :: cs)

/-- The numbers up to the end of a list, after its first bracket. -/
def parseBytes : List Token → Option (List Nat)
  | [.closeList] => some []
  | [.word w, .closeList] => (parseNumber w).map fun n => [n]
  | .word w :: .comma :: .word w' :: ts =>
    match parseNumber w, parseBytes (.word w' :: ts) with
    | some n, some ns => some (n :: ns)
    | _, _ => none
  | _ => none

/-- `name=<number>` and the tokens after it. -/
def parseSetting (name : String) : List Token → Option (Nat × List Token)
  | .word w :: .equals :: .word v :: ts => if w = name.toList then (parseNumber v).map fun n => (n, ts) else none
  | _ => none

/-- Nothing, or `len=<L>` and nothing more. -/
def parseLen (ts : List Token) : Option (Option Nat) :=
  if ts = [] then some none
  else
    match parseSetting "len" ts with
    | some (n, []) => some (some n)
    | _ => none

/-! ### Names -/

/-- The family names in code order (30_encoding.md R66). -/
def familyNames : List (List Char) :=
  ["SHA3_224".toList, "SHA3_256".toList, "SHA3_384".toList, "SHA3_512".toList, "KECCAK_224".toList,
   "KECCAK_256".toList, "KECCAK_384".toList, "KECCAK_512".toList, "SHAKE128".toList, "SHAKE256".toList]

/-- The selector names in code order (30_encoding.md R70). -/
def selectorNames : List (List Char) := ["BSIZE".toList, "OSIZE".toList, "STATUS".toList, "SUFFIX".toList]

/-- The place of a name in a list of `n`. -/
def findName (names : List (List Char)) (n : Nat) (w : List Char) : Option (Fin n) :=
  if h : names.idxOf w < n then some ⟨names.idxOf w, h⟩ else none

/-! ### Lines -/

/-- `rate=<r> suffix=<s>` and the optional length after it. -/
def parseCustom (ts : List Token) : Option (Nat × Nat × Option Nat) :=
  match parseSetting "rate" ts with
  | some (r, ts) =>
    match parseSetting "suffix" ts with
    | some (s, ts) => (parseLen ts).map fun len => (r, s, len)
    | none => none
  | none => none

/-- A CONFIG line after its first word (30_encoding.md R76); CUSTOM_FIXED needs its length. -/
def parseConfig (family : List Char) (ts : List Token) : Option AsmLine :=
  if family = "CUSTOM_FIXED".toList then
    match parseCustom ts with
    | some (r, s, some len) => some (.configFixed r s len)
    | _ => none
  else if family = "CUSTOM_XOF".toList then (parseCustom ts).map fun q => .configXof q.1 q.2.1 q.2.2
  else
    match findName familyNames 10 family, parseLen ts with
    | some fc, some len => some (.configPreset fc len)
    | _, _ => none

/-- An ABSORB line after its first word (30_encoding.md R76). -/
def parseAbsorb : List Token → Option AsmLine
  | .openList :: ts => (parseBytes ts).map .absorbList
  | [.word n, .comma, .word d] =>
    match parseNumber n, parseNumber d with
    | some n, some d => some (.absorb n d)
    | _, _ => none
  | _ => none

/-- The lines a line of a program stands for: itself, or the expansion of a pseudo-command (30_encoding.md R76, R77);
none for an error. DESIGN CHOICE: the operand of `.word` is read like any other number, so as decimal without `0x`
(notes/assumptions/20.md). -/
def parseCommand (cmd : List Char) (ts : List Token) : Option (List AsmLine) :=
  if cmd = "NOP".toList then (if ts = [] then some [.nop] else none)
  else if cmd = "RESET".toList then (if ts = [] then some [.reset] else none)
  else if cmd = "BLOCK_SIZE".toList then (if ts = [] then some (expand .blockSize) else none)
  else if cmd = "OUTPUT_SIZE".toList then (if ts = [] then some (expand .outputSize) else none)
  else if cmd = "ABSORB".toList then (parseAbsorb ts).map fun l => [l]
  else if cmd = "FINALIZE".toList then (parseLen ts).map fun len => [.finalize len]
  else
    match ts with
    | [] => if cmd = "SUM".toList then some (expand (.sum none)) else none
    | .openList :: us =>
      if cmd = "WRITE".toList then ((parseBytes us).bind asmBytes).map fun bs => expand (.write bs) else none
    | .word w :: us =>
      if cmd = "CONFIG".toList then (parseConfig w us).map fun l => [l]
      else if cmd = "NEW".toList then
        match findName familyNames 10 w, parseLen us with
        | some fc, some len => some (expand (.new fc len))
        | _, _ => none
      else if us ≠ [] then none
      else if cmd = "QUERY".toList then (findName selectorNames 4 w).map fun sel => [.query sel]
      else if cmd = "SUM".toList then (parseNumber w).map fun n => expand (.sum (some n))
      else if cmd = ".word".toList then (parseNumber w).map fun n => [.word n]
      else none
    | _ => none

/-- The command words of one line of text; a blank line is none. -/
def assembleLine (line : List Char) : Option (List Word128) :=
  match tokens [] line with
  | [] => some []
  | .word cmd :: ts => (parseCommand cmd ts).bind fun ls => ls.mapM assemble
  | _ => none

/-- The command words of a program's text, none when a line is an assembler error (30_encoding.md R76, R77). -/
def assembleText (text : String) : Option (List Word128) :=
  ((textLines [] text.toList).mapM assembleLine).map List.flatten

end Sys2Proof.Machine
end

