-- ==== Sys2Proof/Tests/Slice0.lean ====
section
/-! SUPPORT. Tests of the model on small single steps, with expected values from 95_test_vectors.md and the rules it
cites, and for each obligation with hypotheses a concrete state and operands that meet them. -/

namespace Sys2Proof.Tests

open Sys2Proof Sys2Proof.Machine Sys2Proof.Claims

/-! ### Helpers -/

/-- The response word of a next state, 0 where there is none. -/
def word : Result → Word128
  | .next t => t.rspr
  | _ => 0

/-- A field of a next state. -/
def field {α : Type} (f : State → α) : Result → Option α
  | .next t => some (f t)
  | _ => none

/-- SF configured as SHA3_256, idle (10_state.md R28). -/
def sha : State :=
  { State.reset with cfgValid := true, fam := 0x1, rate := 136, suffix := 0x06, outlen := 32 }

/-- SF configured as CUSTOM_XOF rate=7 suffix=0x1F len=20 with two staged bytes (program P4). -/
def tail7 : State :=
  { State.reset with cfgValid := true, fam := 0xF, rate := 7, suffix := 0x1F, xof := true, outlen := 20, blen := 2,
                     buf := (zeroBuffer.set 0 0x07).set 1 0x08 }

/-- `s` in EXEC at the start of command `w`. -/
def latched (w : Word128) (s : State) : State := { s with cmdr := w, ph := .exec }

/-- The lanes with `v` at index `i` and 0 elsewhere. -/
def oneLane (i : Nat) (v : Lane) : Lanes := zeroLanes.setIfInBounds i v

/-! ### Well-formedness: an operand with an ignored byte is refused -/

theorem test_wellFormed_absorb1 : (Instr.absorb1 0x100).wellFormed = false ∧
    (Instr.absorb1 0xFF).wellFormed = true := by decide

theorem test_wellFormed_absorb2 : (Instr.absorb2 0x10000).wellFormed = false ∧
    (Instr.absorb2 0xFFFF).wellFormed = true := by decide

theorem test_wellFormed_absorb3 : (Instr.absorb3 0x1000000).wellFormed = false ∧
    (Instr.absorb3 0xFFFFFF).wellFormed = true := by decide

theorem test_wellFormed_absorb4 : (Instr.absorb4 0x100000000).wellFormed = false ∧
    (Instr.absorb4 0xFFFFFFFF).wellFormed = true := by decide

theorem test_wellFormed_absorb5 : (Instr.absorb5 0x10000000000).wellFormed = false ∧
    (Instr.absorb5 0xFFFFFFFFFF).wellFormed = true := by decide

theorem test_wellFormed_absorb6 : (Instr.absorb6 0x1000000000000).wellFormed = false ∧
    (Instr.absorb6 0xFFFFFFFFFFFF).wellFormed = true := by decide

theorem test_wellFormed_absorb7 : (Instr.absorb7 0x100000000000000).wellFormed = false ∧
    (Instr.absorb7 0xFFFFFFFFFFFFFF).wellFormed = true := by decide

/-! ### Decoding: words written from 30_encoding.md R58, R60, R61, R66, R70 -/

theorem test_decode_nop : decodeCommand 0x00000000000000000000000000000000 = .nop := by decide

theorem test_decode_presets :
    ([0x01, 0x11, 0x21, 0x31, 0x41, 0x51, 0x61, 0x71].map decodeCommand) =
      [.configSha3_224, .configSha3_256, .configSha3_384, .configSha3_512, .configKeccak_224, .configKeccak_256,
       .configKeccak_384, .configKeccak_512] := by decide

theorem test_decode_shakes :
    ([0x0000000000000000_000000A9_00000081, 0x0000000000000000_00000005_00000091].map decodeCommand) =
      [.configShake128 169, .configShake256 5] := by decide

theorem test_decode_customs :
    ([0x0000000000000000_00000020_0006C8E1, 0x0000000000000000_00000014_001F07F1].map decodeCommand) =
      [.configCustomFixed 200 0x06 32, .configCustomXof 7 0x1F 20] := by decide

theorem test_decode_reservedFamilies : ([0xA1, 0xB1, 0xC1, 0xD1].map decodeCommand) =
    [.configReservedA, .configReservedB, .configReservedC, .configReservedD] := by decide

theorem test_decode_absorbs :
    ([0x8877665544332211_00000000_00000002, 0x8877665544332211_00000000_00000012, 0x8877665544332211_00000000_00000022,
       0x8877665544332211_00000000_00000032, 0x8877665544332211_00000000_00000042, 0x8877665544332211_00000000_00000052,
       0x8877665544332211_00000000_00000062, 0x8877665544332211_00000000_00000072, 0x8877665544332211_00000000_00000082].map decodeCommand) =
      [.absorb0, .absorb1 0x11, .absorb2 0x2211, .absorb3 0x332211, .absorb4 0x44332211,
       .absorb5 0x5544332211, .absorb6 0x665544332211, .absorb7 0x77665544332211, .absorb8 0x8877665544332211] := by decide

theorem test_decode_badCounts : ([0x92, 0xA2, 0xB2, 0xC2, 0xD2, 0xE2, 0xF2].map decodeCommand) =
    [.absorbBad9, .absorbBad10, .absorbBad11, .absorbBad12, .absorbBad13, .absorbBad14, .absorbBad15] := by decide

/-- N[3:1] are ignored (30_encoding.md R69). -/
theorem test_decode_finalizes : ([0x03, 0xE3, 0x0000000000000000_00000010_00000013,
      0x0000000000000000_00000010_000000F3].map decodeCommand) =
    [.finalize, .finalize, .finalizeLen 16, .finalizeLen 16] := by decide

theorem test_decode_reset : decodeCommand 0x04 = .reset := by decide

theorem test_decode_queries : ([0x05, 0x15, 0x25, 0x35].map decodeCommand) =
    [.queryBsize, .queryOsize, .queryStatus, .querySuffix] := by decide

theorem test_decode_badSelectors :
    ([0x45, 0x55, 0x65, 0x75, 0x85, 0x95, 0xA5, 0xB5, 0xC5, 0xD5, 0xE5, 0xF5].map decodeCommand) =
      queryBadRows := by decide

theorem test_decode_illegals :
    ([0x06, 0x07, 0x08, 0x09, 0x0A, 0x0B, 0x0C, 0x0D, 0x0E, 0x0F].map decodeCommand) =
      [.illegalOp6, .illegalOp7, .illegalOp8, .illegalOp9, .illegalOpA, .illegalOpB, .illegalOpC, .illegalOpD,
       .illegalOpE, .illegalOpF] := by decide

/-- A KP bus, byte k at bits 8k+7:8k (20_memory.md R44). -/
theorem test_decode_permute : decode (0x34 :: 0x12 :: List.replicate 198 0) = .ok (.permute 0x1234) := by
  decide +kernel

/-- The 16 bytes of `CONFIG CUSTOM_XOF rate=7 suffix=0x1F len=20`. -/
theorem test_decode_bytes : decode [0xF1, 0x07, 0x1F, 0x00, 0x14, 0, 0, 0, 0, 0, 0, 0, 0, 0, 0, 0] =
    .ok (.configCustomXof 7 0x1F 20) := by decide +kernel

theorem test_decode_badLength : decode [0x11] = .error (.badLength 1) := by decide +kernel

theorem test_decodeTableWord : decodeTableWord 8 0x25 = some .queryStatus ∧
    decodeTableWord 64 0x0000001400001F81 = some (.configShake128 20) ∧
    decodeTableWord 1600 0x1234 = some (.permute 0x1234) ∧ decodeTableWord 0 0 = some (.permute 0) := by decide +kernel

/-- What is placed runs as the next step after reset. -/
theorem test_withFetchWord : word (step (State.reset.withFetchWord 8 0x11)) = 0x0000000000000000_00000088_00001001 ∧
    field (fun t => (t.alone.ka[0], t.alone.kph)) (step (State.reset.withFetchWord 1600 0x1234)) =
      some (0x1234, .run) := by decide +kernel

/-! ### The permutation (95_test_vectors.md section 2) -/

/-- K1. -/
theorem test_theta : (theta (oneLane 0 1)).toList =
    [1, 1, 0, 0, 2, 0, 1, 0, 0, 2, 0, 1, 0, 0, 2, 0, 1, 0, 0, 2, 0, 1, 0, 0, 2] := by decide +kernel

/-- K5. -/
theorem test_rho : (rho (Vector.replicate 25 0x8000000000000001)).toList.take 3 =
    [0x8000000000000001, 0x0000000000000003, 0x6000000000000000] := by decide +kernel

/-- K6. -/
theorem test_pi : (Machine.pi (Vector.ofFn fun i => BitVec.ofNat 64 i.val)).toList =
    [0, 6, 12, 18, 24, 3, 9, 10, 16, 22, 1, 7, 13, 19, 20, 4, 5, 11, 17, 23, 2, 8, 14, 15, 21] := by decide +kernel

/-- K7. -/
theorem test_chi : (chi (lanesOf fun x y => if y = 0 then 1 <<< x else 0)).toList.take 5 =
    [0x5, 0xA, 0x14, 0x9, 0x12] := by decide +kernel

/-- K10, K11. -/
theorem test_iota : (iota zeroLanes 2)[0] = 0x800000000000808A ∧ (iota zeroLanes 23)[0] = 0x8000000080008008 ∧
    (iota zeroLanes 23)[24] = 0 := by decide +kernel

/-- K13. -/
theorem test_round : (round (round zeroLanes 0) 1).toList =
    [0x8083, 0x100000000000, 0x8000, 0x1, 0x100000008000, 0, 0x200000200000, 0, 0x200000000000, 0x200000, 0x2, 0x200,
     0, 0x202, 0, 0x10000400, 0, 0x400, 0x10000000, 0, 0x10000000000, 0, 0x10000000004, 0, 0x4] := by decide +kernel

/-! ### The sponge functions (95_test_vectors.md section 3) -/

/-- S2. -/
theorem test_xorBlock : (xorBlock (Vector.replicate 25 0xFFFFFFFFFFFFFFFF) [1, 2, 3, 4, 5, 6, 7, 8, 9]).toList.take 3 =
    [0xF7F8F9FAFBFCFDFE, 0xFFFFFFFFFFFFFFF6, 0xFFFFFFFFFFFFFFFF] := by decide +kernel

/-- S7, S8, S9. -/
theorem test_pad : pad 1 0x06 [] = [0x86] ∧ pad 9 0x80 [0x61, 0x62, 0x63] = [0x61, 0x62, 0x63, 0x80, 0, 0, 0, 0, 0x80] ∧
    pad 7 0x1F [7, 8] = [7, 8, 0x1F, 0, 0, 0, 0x80] := by decide +kernel

/-- X4. -/
theorem test_finalizeCalls : [0, 1, 168, 169, 200, 336, 337].map (finalizeCalls 168) = [1, 1, 1, 2, 2, 2, 3] := by decide

/-- Byte 199 is the top byte of lane 24 (20_memory.md R39). -/
theorem test_stateByte : stateByte (oneLane 24 0xAB00000000000000) 199 = 0xAB ∧
    (setStateByte zeroLanes 199 0xAB)[24] = 0xAB00000000000000 := by decide +kernel

/-! ### The commands (95_test_vectors.md section 4, 42_commands.md) -/

/-- CV1. -/
theorem test_nop : word (exec (decodeCommand 0xFFFFFFFFFFFFFFFF_FFFFFFFF_00FFFFF0) State.reset) = 0x1000 := by
  decide +kernel

/-- CV2. -/
theorem test_configSha3_256 : ∃ t, exec (decodeCommand 0x0000000000001234_00000077_AB665511) tail7 = .next t ∧
    t.rspr = 0x0000000000000000_00000088_00001001 ∧ t.fam = 1 ∧ t.rate = 136 ∧ t.suffix = 0x06 ∧ t.xof = false ∧
    t.outlen = 32 ∧ t.blen = 0 ∧ t.buf = zeroBuffer := by
  refine ⟨_, rfl, ?_⟩; decide +kernel

/-- 30_encoding.md R66. -/
theorem test_presets_answer_their_rate :
    [Instr.configSha3_224, .configSha3_384, .configSha3_512, .configKeccak_224, .configKeccak_256, .configKeccak_384,
      .configKeccak_512, .configShake128 0, .configShake256 5].map (fun i => rspValue (word (exec i State.reset))) =
    [144, 104, 72, 144, 136, 104, 72, 168, 136] := by decide +kernel

/-- E10 to E13, and P4's CONFIG. -/
theorem test_customs : ([0x0000000000000000_00000020_000600E1, 0x0000000000000000_00000020_0006C9E1,
      0x0000000000000000_00000020_000088E1, 0x0000000000000000_00000000_001FFFF1].map fun w =>
        word (exec (decodeCommand w) sha)) = List.replicate 4 0x1031 ∧
    word (exec (decodeCommand 0x0000000000000000_00000014_001F07F1) sha) = 0x0000000000000000_00000007_00001001 := by
  decide +kernel

/-- E9. -/
theorem test_reservedFamilies : ([0xA1, 0xB1, 0xC1, 0xD1].map fun w => word (exec (decodeCommand w) State.reset)) =
    List.replicate 4 0x1031 := by decide +kernel

/-- CV3. -/
theorem test_absorb2 : ∃ t, exec (decodeCommand 0xFFFFFFFFFFFF6261_00000000_00000022) sha = .next t ∧
    t.rspr = 0x0000000000000000_00000002_00001002 ∧ t.blen = 2 ∧ stagedTail t = [0x61, 0x62] := by
  refine ⟨_, rfl, ?_⟩; decide +kernel

/-- P4: bytes up to one below the rate are staged only. -/
theorem test_absorb4_below_rate : field (fun t => (t.blen, t.kpStarts)) (exec (.absorb4 0x06050403) tail7) =
    some (6, 0) := by decide +kernel

/-- E14. -/
theorem test_badCount : word (exec (decodeCommand 0x1122334455667788_00000000_00000092) sha) = 0x1042 ∧
    word (exec .absorbBad15 sha) = 0x1042 ∧ word (exec .absorb0 sha) = 0x1002 := by decide +kernel

/-- P1: SHA3-256 of the empty string, first word (V1). -/
theorem test_finalize_sha3_256 : word (exec .finalize sha) = 0x66D71EBFF8C6FFA7_00000020_00000803 := by decide +kernel

/-- RV3. -/
theorem test_reset : field (fun t => (t.rspr, t.blen, t.rate)) (exec .reset tail7) = some (0x1004, 0, 7) := by
  decide +kernel

/-- P4, CV11, 42_commands.md R125 to R128. -/
theorem test_queries : ([Instr.queryBsize, .queryOsize, .queryStatus, .querySuffix].map fun i => word (exec i tail7)) =
    [0x0000000000000000_00000007_00001005, 0x0000000000000000_00000014_00001005, 0x0000000000000000_000002F3_00001005,
     0x0000000000000000_0000001F_00001005] := by decide +kernel

/-- E1 to E6. -/
theorem test_unconfigured : ([0x0000000000000061_00000000_00000012, 0x25, 0x04, 0x45, 0x92, 0x03].map fun w =>
    word (exec (decodeCommand w) State.reset)) = [0x1022, 0x1005, 0x1024, 0x1025, 0x1022, 0x1023] := by decide +kernel

/-- E7, E8, E15, E16. -/
theorem test_illegals : ([0x07, 0xFF, 0x45, 0xF5].map fun w => word (exec (decodeCommand w) sha)) =
    [0x1017, 0x101F, 0x1055, 0x1055] := by decide +kernel

/-- R92 to R95: the input handshake, and the first round of the zero state. -/
theorem test_permute : field (fun t => (t.alone.ka[0], t.alone.krnd, t.alone.kph))
    (step { State.reset with alone := Kp.load zeroLanes, inputs := [.kp KpPins.quiet] }) = some (1, 1, .run) := by
  decide +kernel

/-- R95, R134: a KP that is DONE hands over at the first edge in WAIT_KP, stalled or not. -/
theorem test_waitKp_takes_at_once : field (fun t => (t.ph, t.kp.kph, t.sponge[0], t.blen))
    (step { latched 0x12 tail7 with ph := .waitKp, kp := ⟨oneLane 0 5, 0, .done⟩,
                                    inputs := [.sf { SfPins.quiet with stall := true }] }) =
      some (.exec, .idle, 5, 0) := by decide +kernel

/-- R9: a KP left in RUN goes on once the agenda is empty, and two rounds at one edge are two rounds. -/
theorem test_kp_goes_on : field (fun t => (t.alone.krnd, t.alone.kph))
    (step { State.reset with alone := ⟨zeroLanes, 23, .run⟩ }) = some (0, .done) ∧
    field (fun t => t.alone.krnd) (step { State.reset with alone := ⟨zeroLanes, 20, .run⟩,
                                                           inputs := [.kp { KpPins.quiet with rounds := 2 }] }) =
      some 22 := by decide +kernel

/-- RV2. -/
theorem test_hardwareReset : field (fun t => (t.cfgValid, t.blen, t.ph))
    (step { latched 0x03 tail7 with inputs := [.sf { SfPins.quiet with rst := true }] }) = some (false, 0, .idle) := by
  decide +kernel

/-- RV5: a command offered in RSP is not accepted. -/
theorem test_command_waits : field (fun t => (t.ph, t.cmdr, t.offer))
    (step { sha with ph := .rsp, rspr := 0x1000, inputs := [.sf (SfPins.command 0x04)] }) =
      some (.rsp, 0, some 0x04) := by decide +kernel

/-- 30_encoding.md R76: the lines of the programs P1 to P4. -/
theorem test_assemble : assemble (.configPreset 1 none) = some 0x11 ∧ assemble (.absorbList [0x61, 0x62]) =
      some 0x0000000000006261_00000000_00000022 ∧ assemble (.finalize (some 16)) =
      some 0x0000000000000000_00000010_00000013 ∧ assemble (.configXof 7 0x1F (some 20)) =
      some 0x0000000000000000_00000014_001F07F1 ∧ assemble (.configFixed 256 6 0) = none := by decide

/-- R76, R77: comments, lists, hexadecimal, a pseudo-command, and a list that is too long. -/
theorem test_assembleText :
    assembleText "CONFIG SHA3_256 ; c\nABSORB [0x61, 0x62]\nSUM 16" =
      some [0x11, 0x6261_00000000_00000022, 0x00000010_00000013] ∧
    assembleText "ABSORB [1,2,3,4,5,6,7,8,9]" = none := by decide +kernel

/-! ### Witnesses: a concrete state and operands for each obligation with hypotheses -/

/-- Every command word answers. -/
theorem exec_answers (w : Word128) (s : State) : ∃ t, exec (decodeCommand w) s = .next t := by
  rcases exec_command_cases w s with ⟨_, _, _, _, h⟩ | ⟨_, h⟩ <;> exact ⟨_, h⟩

/-- A list of command words runs to its end. -/
theorem execAll_answers (ws : List Word128) (s : State) : ∃ t rs, execAll ws s = some (t, rs) := by
  induction ws generalizing s with
  | nil => exact ⟨_, _, rfl⟩
  | cons w ws ih =>
    obtain ⟨t, h⟩ := exec_answers w s
    obtain ⟨u, rs, h'⟩ := ih t
    exact ⟨u, t.rspr :: rs, by simp [execAll, h, h']⟩

/-- A host with no command raised holds it. -/
theorem holds_none (p : SfPins) : Holds none p := fun _ h => (by cases h)

theorem witness_DecodeOfEncode : (Instr.absorb7 0xFFFFFFFFFFFFFF).wellFormed = true ∧
    (Instr.configCustomXof 255 255 0xFFFFFFFF).wellFormed = true := by decide

/-- The hypotheses of IgnoredFieldsChangeNothing. -/
abbrev AgreeOnReadFields (xof : Bool) (w w' : Word128) : Prop :=
  cmdOp w = cmdOp w' ∧
  (cmdOp w = 0x1 → cmdN w = cmdN w' ∧
    (cmdN w = 0x8 ∨ cmdN w = 0x9 ∨ cmdN w = 0xE ∨ cmdN w = 0xF → cmdLen w = cmdLen w') ∧
    (cmdN w = 0xE ∨ cmdN w = 0xF → cmdRate w = cmdRate w' ∧ cmdSufx w = cmdSufx w')) ∧
  (cmdOp w = 0x2 → cmdN w = cmdN w' ∧
    ((cmdN w).toNat ≤ 8 → ∀ j, j < (cmdN w).toNat → dataByte (cmdData w) j = dataByte (cmdData w') j)) ∧
  (cmdOp w = 0x3 → xof = true → (cmdN w).getLsbD 0 = (cmdN w').getLsbD 0 ∧
    ((cmdN w).getLsbD 0 = true → cmdLen w = cmdLen w')) ∧
  (cmdOp w = 0x5 → cmdN w = cmdN w')

/-- One pair of different words for each clause, at the bounds of the ranges. -/
theorem witness_IgnoredFields :
    AgreeOnReadFields true 0x11 0x1234_00000077_AB665511 ∧
    AgreeOnReadFields true 0x00000014_FFFFFF81 0x1_00000014_00000081 ∧
    AgreeOnReadFields true 0x00000014_001F07F1 0x1_00000014_AB1F07F1 ∧
    AgreeOnReadFields true 0x02 0x1_00000001_00000002 ∧
    AgreeOnReadFields true 0xFF6261_00000000_00000022 0x6261_00000000_00000022 ∧
    AgreeOnReadFields true 0x8000000000000001_00000000_00000082 0x8000000000000001_00000007_00000082 ∧
    AgreeOnReadFields true 0x92 0x1_00000000_00000092 ∧
    AgreeOnReadFields true 0x03 0x55_000000E3 ∧
    AgreeOnReadFields true 0x10_00000013 0x10_000000F3 ∧
    AgreeOnReadFields true 0x35 0x1_00000000_00000035 ∧
    AgreeOnReadFields true 0x0F 0xFF ∧
    AgreeOnReadFields false 0x03 0x10_00000013 := by
  refine ⟨?_, ?_, ?_, ?_, ?_, ?_, ?_, ?_, ?_, ?_, ?_, ?_⟩ <;> decide +kernel

theorem witness_PermuteLoads : ∃ (s : State) (p : KpPins) (rest : List Input), s.inputs = .kp p :: rest ∧
    p.rst = false ∧ s.alone.kph = .idle ∧ p.pInValid = true :=
  ⟨{ sha with inputs := [.kp (KpPins.feeding 0x1234)] }, _, _, rfl, rfl, rfl, rfl⟩

theorem witness_BusyKp : ∃ (s t : State) (p : KpPins), s.alone.kph = .run ∧ t.alone.kph = .done ∧ p.rst = false :=
  ⟨{ sha with alone := Kp.load zeroLanes }, { sha with alone := ⟨zeroLanes, 0, .done⟩ }, KpPins.quiet, rfl, rfl, rfl⟩

/-- Both ends of KRND's range, with no round, one, and more than are left. -/
theorem witness_KpRoundCycle : ∀ k ∈ ([0, 22, 23] : List (BitVec 5)), ∀ n ∈ [0, 1, 2],
    ∃ (s : State) (p : KpPins) (rest : List Input), KpEdgeNext s p rest ∧ p.rst = false ∧ s.alone.kph = .run ∧
      s.alone.krnd = k ∧ s.alone.krnd.toNat < 24 ∧ p.rounds = n := by
  intro k hk n _
  refine ⟨{ sha with alone := ⟨zeroLanes, k, .run⟩, inputs := [.kp { KpPins.quiet with rounds := n }] }, _, _,
    .inl rfl, rfl, rfl, rfl, ?_, rfl⟩
  have : ∀ k ∈ ([0, 22, 23] : List (BitVec 5)), k.toNat < 24 := by decide
  exact this k hk

/-- A slow KP, and one that applies all its rounds at one edge. -/
theorem witness_TwentyFourRoundEdges :
    ∀ edges ∈ [{ KpPins.quiet with rounds := 0 } :: List.replicate 24 KpPins.quiet,
      [{ KpPins.quiet with rounds := 24 }]],
    ∃ (s : State) (bus : Bus) (rest : List Input), s.alone.kph = .idle ∧
      (∀ p ∈ edges, p.rst = false ∧ p.pOutReady = false) ∧ 24 ≤ (edges.map KpPins.rounds).sum ∧
      s.inputs = .kp (KpPins.feeding bus) :: edges.map Input.kp ++ rest := by
  intro edges h
  refine ⟨{ sha with inputs := .kp (KpPins.feeding 7) :: edges.map Input.kp ++ [] }, 7, [], rfl, ?_, ?_, rfl⟩ <;>
  · simp only [List.mem_cons, List.not_mem_nil, or_false] at h
    rcases h with rfl | rfl <;> decide +kernel

/-- A KP left in RUN when the agenda ends. -/
theorem witness_TwentyFourRoundEdges_left : ∃ s : State, s.inputs = [] ∧ s.alone.kph = .run ∧
    s.alone.krnd.toNat < 24 := ⟨{ sha with alone := Kp.load zeroLanes }, rfl, rfl, by decide⟩

theorem witness_KpOutputHandshake : ∃ (s : State) (p : KpPins) (rest : List Input), s.inputs = .kp p :: rest ∧
    p.rst = false ∧ s.alone.kph = .done ∧ p.pOutReady = true :=
  ⟨{ sha with alone := ⟨zeroLanes, 0, .done⟩, inputs := [.kp KpPins.taking] }, _, _, rfl, rfl, rfl, rfl⟩

theorem witness_StateByte : ∀ k ∈ [0, 7, 8, 199], k < 200 := by decide

theorem witness_Blocks : ([] : List Byte).length ≤ 200 ∧ (List.replicate 200 (0 : Byte)).length = 200 ∧
    (List.replicate 136 (0 : Byte)).length % 8 = 0 ∧ (List.replicate 9 (0 : Byte)).length % 8 ≠ 0 ∧
    ([] : List Byte).length < 1 ∧ (List.replicate 135 (0 : Byte)).length < 136 ∧
    (List.replicate 199 (0 : Byte)).length < 200 ∧ 1 ≤ 7 ∧ 5 ≤ 20 := by decide +kernel

theorem witness_CustomConfigs : 1 ≤ (1 : Byte).toNat ∧ (200 : Byte).toNat ≤ 200 ∧ (1 : Byte) ≠ 0 ∧ (255 : Byte) ≠ 0 ∧
    200 < (201 : Byte).toNat ∧ cmdOp (0xE1 : Word128) = 0x1 ∧ cmdN (0xE1 : Word128) = 0xE := by decide

/-- The least and the greatest room a configured SF has. -/
theorem witness_Ready : Ready { tail7 with rate := 1, blen := 0 } ∧ Ready { sha with rate := 200, blen := 199 } ∧
    Ready tail7 := by decide

theorem witness_AbsorbStages : cmdOp (0x82 : Word128) = 0x2 ∧ (cmdN (0x82 : Word128)).toNat = 8 ∧
    cmdOp (0x92 : Word128) = 0x2 ∧ 8 < (cmdN (0x92 : Word128)).toNat ∧ State.reset.cfgValid = false ∧
    sha.cfgValid = true := by decide

theorem witness_FinalizeTransfers : ∃ (s : State) (rest : List Input), Ready s ∧ s.ph = .exec ∧ s.started = false ∧
    s.level = .transaction ∧ s.offer = none ∧ cmdOp s.cmdr = 0x3 ∧
    s.inputs = List.replicate
      (2 * (outputWords (digest s.rate.toNat s.suffix s.sponge (stagedTail s)
        (if s.xof && (cmdN s.cmdr).getLsbD 0 then cmdLen s.cmdr else s.outlen).toNat)).length)
      (.sf SfPins.taking) ++ rest := by
  obtain ⟨n, hn⟩ : ∃ n, n = 2 * (outputWords (digest 7 0x1F zeroLanes (stagedTail tail7) 20)).length := ⟨_, rfl⟩
  exact ⟨{ latched 0x03 tail7 with inputs := List.replicate n (.sf SfPins.taking) ++ [] }, [],
    witness_Ready.2.2, rfl, rfl, rfl, rfl, rfl, by rw [hn]; rfl⟩

theorem witness_SameAsBefore : ∃ s t : State, s ≠ t ∧ SamePersistent s t :=
  ⟨sha, latched 0x25 sha, by decide +kernel, rfl, rfl, rfl, rfl, rfl, rfl, rfl, rfl, rfl⟩

theorem witness_Errors : ∃ (w : Word128) (s t : State), exec (decodeCommand w) s = .next t ∧
    rspStatus t.rspr ≠ 0x0 ∧ s.offer = none :=
  ⟨0x92, sha, _, rfl, by decide +kernel, rfl⟩

theorem witness_ClosedForm : ∃ (s : State) (chunks : List (List Byte)), Ready s ∧
    s.sponge = Vector.replicate 25 0 ∧ s.blen = 0 ∧ (∀ c ∈ chunks, c.length ≤ 8) ∧ s.rate.toNat < chunks.flatten.length :=
  ⟨{ tail7 with blen := 0 }, [[1, 2, 3, 4, 5, 6, 7, 8], []], by decide, rfl, rfl, by decide, by decide⟩

theorem witness_Streaming : ∃ (s : State) (cs ds : List (List Byte)), Ready s ∧
    (∀ k : Fin 200, s.blen.toNat ≤ k.val → s.buf[k] = 0) ∧ (∀ c ∈ cs, c.length ≤ 8) ∧ (∀ d ∈ ds, d.length ≤ 8) ∧
    cs.flatten = ds.flatten ∧ cs ≠ ds :=
  ⟨tail7, [[1, 2, 3, 4, 5, 6, 7, 8], [9]], [[1], [], [2, 3, 4, 5, 6, 7, 8, 9]], by decide, by decide +kernel, by decide,
    by decide, by decide, by decide⟩

theorem witness_ResetEqualsFresh : ∃ (i : Instr) (s c d : State) (ws rs : List Word128),
    (∃ w, i = decodeCommand w ∧ cmdOp w = 0x1) ∧ exec i s = .next c ∧ rspStatus c.rspr = 0x0 ∧
    (∀ w ∈ ws, cmdOp w ≠ 0x1) ∧ ws ≠ [] ∧ execAll ws c = some (d, rs) := by
  obtain ⟨d, rs, h⟩ := execAll_answers [0x6261_00000000_00000022, 0x03] (constructed 0x1 136 0x06 false 32 tail7)
  exact ⟨.configSha3_256, tail7, _, d, _, rs, ⟨0x11, by decide, by decide⟩, rfl, by decide +kernel,
    List.forall_mem_cons.2 ⟨by decide, List.forall_mem_singleton.2 (by decide)⟩, by simp, h⟩

theorem witness_FinalizeDoesNotDisturb : ∃ (s t u : State) (fin : Word128) (ws vs rs qs : List Word128),
    cmdOp fin = 0x3 ∧ (∀ w ∈ vs, cmdOp w = 0x2) ∧ s.cfgValid = true ∧
    execAll (ws ++ fin :: vs) s = some (t, rs) ∧ execAll (ws ++ vs) s = some (u, qs) := by
  obtain ⟨t, rs, h⟩ := execAll_answers ([0x61_00000000_00000012] ++ 0x03 :: [0x62_00000000_00000012]) sha
  obtain ⟨u, qs, h'⟩ := execAll_answers ([0x61_00000000_00000012] ++ [0x62_00000000_00000012]) sha
  exact ⟨sha, t, u, _, _, _, rs, qs, by decide, List.forall_mem_singleton.2 (by decide), rfl, h, h'⟩

/-- The last value that fits each field and the first that does not. -/
theorem witness_AssemblerLines : (assemble (.configFixed 255 255 (2 ^ 32 - 1))).isSome ∧
    assemble (.configFixed 256 0 0) = none ∧ assemble (.configXof 0 256 none) = none ∧
    assemble (.configFixed 0 0 (2 ^ 32)) = none ∧ (assemble (.absorb 15 (2 ^ 64 - 1))).isSome ∧
    assemble (.absorb 16 0) = none ∧ assemble (.absorb 0 (2 ^ 64)) = none ∧
    (assemble (.finalize (some (2 ^ 32 - 1)))).isSome ∧ assemble (.finalize (some (2 ^ 32))) = none ∧
    assemble (.word (2 ^ 128)) = none := by decide

theorem witness_AStepRuns : ∃ (s : State) (p : SfPins) (rest : List Input), SfEdgeNext s p rest ∧ p.rst = false ∧
    p.stall = false ∧ Holds s.offer p ∧ s.ph = .exec ∧ s.started = false ∧ s.level = .transaction :=
  ⟨latched 0x25 sha, _, _, .inr ⟨rfl, by decide, rfl, rfl⟩, rfl, rfl, holds_none _, rfl, rfl, rfl⟩

theorem witness_CommandAcceptance : ∃ (s : State) (p : SfPins) (rest : List Input), s.inputs = .sf p :: rest ∧
    p.rst = false ∧ s.ph = .idle ∧ p.cmdValid = true ∧ (∀ w, s.offer = some w → p.cmdWord = w) :=
  ⟨{ sha with inputs := [.sf (SfPins.command 0x25)], offer := some 0x25 }, _, _, rfl, rfl, rfl, rfl,
    fun _ h => Option.some.inj h⟩

theorem witness_CommandAcceptance_steps : (∃ s t : State, step s = .next t ∧ ¬ResetEdge s ∧ t.cmdr ≠ s.cmdr) ∧
    ∃ s t : State, step s = .next t ∧ ¬ResetEdge s ∧ s.ph ≠ .idle ∧ t.ph = .idle := by
  refine ⟨⟨{ sha with inputs := [.sf (SfPins.command 0x25)] }, _, rfl, ?_, by decide⟩,
    ⟨{ sha with ph := .rsp, rspr := 0x1000, inputs := [.sf SfPins.taking] }, _, rfl, ?_, by decide, by decide⟩⟩ <;>
  · rintro ⟨p, rest, h, hr⟩
    cases h
    cases hr

theorem witness_ResponseHandshake : ∀ ready ∈ [false, true], ∃ (s : State) (p : SfPins) (rest : List Input),
    s.inputs = .sf p :: rest ∧ p.rst = false ∧ s.ph = .rsp ∧ Holds s.offer p ∧
    p.rspReady = ready := by
  intro ready _
  exact ⟨{ sha with ph := .rsp, rspr := 0x1000, offer := some 0x25,
                    inputs := [.sf { SfPins.command 0x25 with rspReady := ready }] }, _, _, rfl, rfl, rfl,
    fun _ h => ⟨rfl, Option.some.inj h⟩, rfl⟩

theorem witness_ResponseHandshake_holds : ∃ (n : Nat) (s : State) (rest : List Input), s.ph = .rsp ∧ s.offer = none ∧
    s.inputs = List.replicate n (.sf SfPins.quiet) ++ rest ∧ n = 2 :=
  ⟨2, { sha with ph := .rsp, inputs := List.replicate 2 (.sf SfPins.quiet) ++ [] }, [], rfl, rfl, rfl, rfl⟩

/-- SF waiting for its KP, which runs or is done, for an ABSORB and for a FINALIZE, with the next command raised. -/
theorem witness_KpResult : ∀ w ∈ ([0x12, 0x03] : List Word128), ∀ k ∈ [KpPhase.run, .done], ∃ (s : State) (p : SfPins)
    (rest : List Input), SfEdgeNext s p rest ∧ p.rst = false ∧ Holds s.offer p ∧ s.ph = .waitKp ∧ s.kp.kph = k ∧
      s.kp.krnd.toNat < 24 ∧ s.cmdr = w ∧ p.cmdValid = true ∧ p.stall = true := by
  intro w _ k _
  exact ⟨{ sha with cmdr := w, ph := .waitKp, kp := ⟨oneLane 0 1, 0, k⟩, offer := some 0x25,
                    inputs := [.sf { SfPins.command 0x25 with stall := true }] }, _, _, .inl rfl, rfl,
    fun _ h => ⟨rfl, Option.some.inj h⟩, rfl, rfl, (show (0 : BitVec 5).toNat < 24 by decide), rfl, rfl, rfl⟩

theorem witness_OneWordTransaction : ∃ (s t : State) (w : Word128) (rest : List Input), s.ph = .idle ∧
    s.level = .transaction ∧ s.offer = none ∧
    s.inputs = .sf (SfPins.command w) :: .sf SfPins.quiet :: .sf SfPins.taking :: rest ∧
    exec (decodeCommand w) { s with inputs := .sf SfPins.taking :: rest, cmdr := w, ph := .exec, started := false } =
      .next t ∧ rspLast t.rspr = true :=
  ⟨{ sha with inputs := [.sf (SfPins.command 0x25), .sf SfPins.quiet, .sf SfPins.taking] }, _, 0x25, [], rfl, rfl, rfl,
    rfl, rfl, by decide +kernel⟩

theorem witness_HardwareReset : (∃ (s : State) (p : SfPins) (rest : List Input), s.inputs = .sf p :: rest ∧
      p.rst = true ∧ s.ph = .waitKp) ∧
    ∃ (s : State) (p : KpPins) (rest : List Input), s.inputs = .kp p :: rest ∧ p.rst = true ∧ s.alone.kph = .run :=
  ⟨⟨{ sha with ph := .waitKp, kp := Kp.load zeroLanes, inputs := [.sf { SfPins.quiet with rst := true }] }, _, _, rfl, rfl,
      rfl⟩,
    ⟨{ sha with alone := Kp.load zeroLanes, inputs := [.kp { KpPins.quiet with rst := true }] }, _, _, rfl, rfl, rfl⟩⟩

/-- A dropped and a changed command are refused, a held one is not. -/
theorem witness_Refused :
    step { sha with ph := .rsp, offer := some 0x25, inputs := [.sf SfPins.quiet] } = .refused .hostChangedCommand ∧
    step { sha with ph := .rsp, offer := some 0x25, inputs := [.sf (SfPins.command 0x15)] } =
      .refused .hostChangedCommand ∧
    step { sha with ph := .rsp, offer := some 0x25, inputs := [.sf (SfPins.command 0x25)] } =
      .next { sha with ph := .rsp, offer := some 0x25 } := ⟨rfl, rfl, rfl⟩

theorem witness_IdleHolds : (∃ (s : State) (p : SfPins) (rest : List Input), SfEdgeNext s p rest ∧ p.rst = false ∧
      p.cmdValid = false ∧ s.offer = none ∧ s.ph = .idle) ∧
    ∃ (s : State) (p : KpPins) (rest : List Input), s.inputs = .kp p :: rest ∧ p.rst = false ∧ p.pInValid = false ∧
      s.alone.kph = .idle :=
  ⟨⟨sha, _, _, .inr ⟨rfl, by decide, rfl, rfl⟩, rfl, rfl, rfl, rfl⟩,
    ⟨{ sha with inputs := [.kp KpPins.quiet] }, _, _, rfl, rfl, rfl, rfl⟩⟩

/-- A step that is no reset edge, of each command that writes persistent state. -/
theorem witness_OnlyThese : ∀ w ∈ ([0x11, 0x61_00000000_00000012, 0x04] : List Word128), ∃ s t : State,
    step s = .next t ∧ ¬ResetEdge s ∧ s.cmdr = w ∧ s.ph = .exec := by
  intro w _
  obtain ⟨t, h⟩ := exec_answers w (latched w sha)
  refine ⟨latched w sha, t, h, ?_, rfl, rfl⟩
  rintro ⟨p, rest, h, _⟩
  cases h

/-- A KP in the middle of its rounds is legal. -/
theorem kp_running_ok : Kp.Ok ⟨oneLane 0 1, 23, .run⟩ := ⟨by decide, fun h => absurd rfl h⟩

/-- A legal state in the middle of an ABSORB, with a full block in KP. -/
def absorbing : State :=
  { tail7 with level := .cycle, cmdr := 0x00000102030405060000000000000062, ph := .waitKp, started := true, blen := 7,
               ipos := 5, kp := ⟨oneLane 0 1, 23, .run⟩ }

theorem absorbing_config : absorbing.ConfigOk := by decide +kernel

theorem witness_StepsKeepTheInvariant : ∃ s t : State, s.Inv ∧ s.ph = .waitKp ∧ step s = .next t := by
  refine ⟨absorbing, _, ⟨kp_running_ok, by decide +kernel, absorbing_config, ⟨.inr ⟨⟨.inr rfl, rfl, by decide⟩, rfl⟩, by decide +kernel⟩,
    ⟨fun h => absurd h.1 (by decide), fun h => ?_⟩, ⟨by decide, fun _ => rfl, fun _ _ => ⟨rfl, .inl (by decide)⟩,
      fun h => absurd h (by decide)⟩⟩, rfl, rfl⟩
  rcases h with h | h <;> exact absurd h.1 (by decide)

/-- A legal configured SF at the start of a FINALIZE, at the cycle level. -/
def finalizing : State := { latched 0x03 tail7 with level := .cycle }

/-- The same between two words of the FINALIZE. -/
def finalizingMore : State :=
  { finalizing with started := true, otot := 20, opos := 8, zpos := 1, rspr := emptyWord 20, z := oneLane 0 1 }

theorem finalizing_legal : finalizing.Inv where
  kp := by decide +kernel
  alone := by decide +kernel
  config := by decide +kernel
  staging := ⟨.inl (by decide), by decide +kernel⟩
  output := by
    refine ⟨?_, fun _ => by decide⟩
    rintro ⟨-, h | h⟩
    · exact absurd h.2 (by decide)
    · exact absurd h.1 (by decide)
  phase := ⟨by decide, fun h => absurd h (by decide), fun _ h => absurd h (by decide), fun h => absurd h (by decide)⟩

theorem finalizingMore_legal : finalizingMore.Inv where
  kp := by decide +kernel
  alone := by decide +kernel
  config := by decide +kernel
  staging := ⟨.inl (by decide), by decide +kernel⟩
  output := ⟨fun _ => by decide, fun _ => by decide⟩
  phase := by
    refine ⟨by decide, fun h => absurd h (by decide), fun _ _ => ⟨rfl, .inr ⟨by decide, by decide +kernel, by decide,
      by decide, by decide, by decide, fun h => absurd h (by decide)⟩⟩, fun h => absurd h (by decide)⟩

theorem witness_CycleLevelRefines : ∃ s u : State, s.Inv ∧ s.ph = .exec ∧ s.level = .cycle ∧ s.started = false ∧
    step { s with level := .transaction, offer := none, inputs := [.sf SfPins.quiet] } = .next u := by
  obtain ⟨u, h⟩ := exec_answers 0x03 { finalizing with level := .transaction }
  exact ⟨finalizing, u, finalizing_legal, rfl, rfl, rfl, h⟩

/-- A further word of the same FINALIZE. -/
theorem witness_CycleLevelRefines_further : ∃ s u : State, s.Inv ∧ s.ph = .exec ∧ s.level = .cycle ∧
    s.started = true ∧ cmdOp s.cmdr = 0x3 ∧ s.rspr = emptyWord s.otot ∧
    step { s with level := .transaction, offer := none, inputs := [.sf SfPins.quiet] } = .next u :=
  ⟨finalizingMore, _, finalizingMore_legal, rfl, rfl, rfl, by decide, rfl, rfl⟩

/-- Agendas of any length with stalled edges and a host that raises its next command early. -/
theorem witness_CycleLevelRefines_edges (N : Nat) : ∃ edges : List SfPins, (∀ p ∈ edges, p.rst = false) ∧
    HoldsOver finalizing.offer edges ∧ N ≤ (edges.filter fun p => !p.stall && decide (0 < p.rounds)).length ∧
    ∃ p ∈ edges, p.stall = true := by
  have hold : ∀ n, HoldsOver (some 0x25) (List.replicate n (SfPins.command 0x25)) := by
    intro n
    induction n with
    | zero => trivial
    | succ n ih => exact ⟨fun _ h => ⟨rfl, Option.some.inj h⟩, ih⟩
  refine ⟨{ SfPins.quiet with stall := true } :: SfPins.command 0x25 :: List.replicate N (SfPins.command 0x25), ?_,
    ⟨holds_none _, (by simp [Holds, raised, SfPins.quiet]), hold N⟩, ?_,
    _, List.mem_cons_self, rfl⟩
  · simp [SfPins.command, SfPins.quiet]
  · simp [SfPins.command, SfPins.quiet]

/-- A legal state without a construction (QueryStatusReportsTheStatusWord). -/
theorem witness_QueryStatus : (latched 0x25 State.reset).Inv ∧ (latched 0x25 State.reset).cfgValid = false := by
  refine ⟨⟨by decide +kernel, by decide +kernel, by decide +kernel, ⟨by decide, by decide +kernel⟩, ⟨?_, ?_⟩, by decide,
    fun h => absurd h (by decide), fun _ h => absurd h (by decide), fun h => absurd h (by decide)⟩, rfl⟩
  · exact fun h => absurd h.1 (by decide)
  · rintro (h | h) <;> exact absurd h.1 (by decide)

theorem witness_EveryCommandAnswers : ∀ bus, Instr.nop ≠ .permute bus := by simp

/-- The words the decode clauses of the command statements are about, at the ends of their ranges. -/
theorem witness_command_words : cmdOp (0xF0 : Word128) = 0x0 ∧ cmdOp (0x04 : Word128) = 0x4 ∧
    (cmdN (0x45 : Word128)).toNat = 4 ∧ (cmdN (0xF5 : Word128)).toNat = 15 ∧ cmdN (0x25 : Word128) = 0x2 ∧
    (cmdOp (0x06 : Word128)).toNat = 6 ∧ (cmdOp (0x0F : Word128)).toNat = 15 ∧ cmdN (0xA1 : Word128) = 0xA ∧
    cmdN (0xD1 : Word128) = 0xD := by decide

/-- CheckOrder: a word and a state for each of its six outcomes, with their statuses (E1, E4, E7, E10, E14, E15). -/
theorem witness_CheckOrder : rspStatus (word (exec (decodeCommand 0x07) State.reset)) = 0x1 ∧
    rspStatus (word (exec (decodeCommand 0x45) State.reset)) = 0x2 ∧
    rspStatus (word (exec (decodeCommand 0x00000020_000600E1) State.reset)) = 0x3 ∧
    rspStatus (word (exec (decodeCommand 0x92) sha)) = 0x4 ∧ rspStatus (word (exec (decodeCommand 0x45) sha)) = 0x5 ∧
    rspStatus (word (exec (decodeCommand 0x25) State.reset)) = 0x0 := by decide +kernel

theorem witness_KpTakesWhatSfDrives : ∃ (s : State) (p : SfPins) (rest : List Input), s.Inv ∧ SfEdgeNext s p rest ∧
    p.rst = false ∧ p.stall = false ∧ Holds s.offer p ∧ s.ph = .exec ∧ s.level = .cycle ∧ kpInValid p s = true :=
  ⟨finalizing, _, _, finalizing_legal, .inr ⟨rfl, by decide, rfl, rfl⟩, rfl, rfl,
    holds_none _, rfl, rfl, by decide +kernel⟩

theorem witness_KpTakesWhatSfDrives_stalled : ∃ (s : State) (p : SfPins) (rest : List Input), SfEdgeNext s p rest ∧
    p.rst = false ∧ p.stall = true ∧ Holds s.offer p ∧ s.ph = .exec ∧ (kpRequested s).isSome :=
  ⟨{ finalizing with inputs := [.sf { SfPins.quiet with stall := true }] }, _, _, .inl rfl, rfl, rfl,
    holds_none _, rfl, by decide +kernel⟩

/-- The last value that fits a list and the first that does not (AssemblerLinesSetTheirFields). -/
theorem witness_AssemblerLines_list : (assemble (.absorbList [255, 0])).isSome ∧ assemble (.absorbList [256]) = none ∧
    (assemble (.absorbList (List.replicate 8 1))).isSome ∧ assemble (.absorbList (List.replicate 9 1)) = none := by decide

end Sys2Proof.Tests
end

section
/-! Proofs of the statements about the machine's state (10_state.md). -/

namespace Sys2Proof.Machine

/-- 10_state.md R37, rows KA, KRND and KPH: for SF's own KP and for the stand-alone one. -/
theorem Kp.reset_registers : Kp.reset = { ka := Vector.replicate 25 0, krnd := 0, kph := .idle } := rfl

/-- Settles O53: the two KPs are each `Kp.reset`, and the rows S to RSPR of R37 are read off the fields of
`State.reset`, in the order of the table. -/
theorem resetState : Obligations.ResetState := by
  unfold Obligations.ResetState
  refine ⟨Kp.reset_registers, Kp.reset_registers, ?_⟩
  exact ⟨rfl, rfl, rfl, -- S, BUF, BLEN
    rfl, rfl, rfl, rfl, rfl, rfl, -- CFG_VALID, FAM, RATE, SUFFIX, XOF, OUTLEN
    rfl, rfl, rfl, rfl, rfl, -- Z, OTOT, OPOS, ZPOS, IPOS
    rfl, rfl, rfl⟩ -- PH, CMDR, RSPR

end Sys2Proof.Machine
end

section
/-! Proofs of the statements about byte order and the bus (20_memory.md). -/

namespace Sys2Proof.Machine

/-! ### Bits of the bus -/

/-- Lanes as the 64-bit digits of one number, lane 0 the least: a bit of the number is a bit of one lane. -/
theorem laneDigits_testBit (l : List Lane) (i z : Nat) (hz : z < 64) :
    (l.foldr (fun (lane : Lane) acc => lane.toNat + 2 ^ 64 * acc) 0 : Nat).testBit (64 * i + z) =
      (l[i]?.getD 0).getLsbD z := by
  induction l generalizing i with
  | nil => simp
  | cons lane l ih =>
    rw [List.foldr_cons, Nat.add_comm, Nat.testBit_two_pow_mul_add _ lane.isLt]
    cases i with
    | zero => simp [hz, BitVec.getLsbD]
    | succ i =>
      have hge : ¬64 * (i + 1) + z < 64 := by omega
      have hsub : 64 * (i + 1) + z - 64 = 64 * i + z := by omega
      rw [if_neg hge, hsub, ih, List.getElem?_cons_succ]

theorem packLanes_getLsbD (A : Lanes) (i z : Nat) (hi : i < 25) (hz : z < 64) :
    (packLanes A).getLsbD (64 * i + z) = A[i].getLsbD z := by
  have hlt : 64 * i + z < 1600 := by omega
  rw [packLanes, BitVec.getLsbD_ofNat, laneDigits_testBit _ i z hz]
  simp [hlt, hi]

theorem unpackLanes_getLsbD (bus : Bus) (i z : Nat) (hi : i < 25) (hz : z < 64) :
    (unpackLanes bus)[i].getLsbD z = bus.getLsbD (64 * i + z) := by
  simp [unpackLanes, hz]

@[simp] theorem unpackLanes_packLanes (A : Lanes) : unpackLanes (packLanes A) = A := by
  ext i hi z hz
  simp only [← BitVec.getLsbD_eq_getElem]
  rw [unpackLanes_getLsbD _ i z hi hz, packLanes_getLsbD A i z hi hz]

@[simp] theorem packLanes_unpackLanes (bus : Bus) : packLanes (unpackLanes bus) = bus := by
  ext n hn
  have hi : n / 64 < 25 := by omega
  have hz : n % 64 < 64 := Nat.mod_lt _ (by decide)
  have hbit := (packLanes_getLsbD (unpackLanes bus) (n / 64) (n % 64) hi hz).trans
    (unpackLanes_getLsbD bus (n / 64) (n % 64) hi hz)
  rwa [Nat.div_add_mod, BitVec.getLsbD_eq_getElem hn, BitVec.getLsbD_eq_getElem hn] at hbit

/-! ### Reading a byte -/

theorem stateByte_eq_extract (A : Lanes) (k : Nat) (h : k / 8 < 25) :
    stateByte A k = A[k / 8].extractLsb' (8 * (k % 8)) 8 := by
  simp [stateByte, h]

theorem packLanes_extract_byte (A : Lanes) (k : Nat) (hk : k < 200) :
    (packLanes A).extractLsb' (8 * k) 8 = stateByte A k := by
  have hlane : k / 8 < 25 := by omega
  rw [stateByte_eq_extract A k hlane]
  ext z hz
  have hsplit : 8 * k + z = 64 * (k / 8) + (8 * (k % 8) + z) := by omega
  rw [BitVec.getElem_extractLsb', BitVec.getElem_extractLsb', hsplit,
    packLanes_getLsbD A (k / 8) (8 * (k % 8) + z) hlane (by omega)]

/-- Settles O15: a bus bit is a digit of the packed number, and the other three clauses are read bit by bit. -/
theorem busPacking : Obligations.BusPacking := by
  unfold Obligations.BusPacking
  exact ⟨fun A i z hz => packLanes_getLsbD A i z i.isLt hz, packLanes_extract_byte, unpackLanes_packLanes,
    packLanes_unpackLanes⟩

/-! ### Writing a byte -/

/-- The lane `x` with its byte `m` replaced by `v`: what StateByte(A, 8i + m) <- v stores in lane i. -/
def replaceByte (x : Lane) (m : Nat) (v : Byte) : Lane :=
  (x &&& ~~~((0xFF : Lane) <<< (8 * m))) ||| (v.setWidth 64 <<< (8 * m))

theorem setStateByte_eq_replaceByte (A : Lanes) (k : Nat) (v : Byte) :
    setStateByte A k v = A.setIfInBounds (k / 8) (replaceByte (A[k / 8]?.getD 0) (k % 8) v) := rfl

theorem byteMask_getLsbD (b : Nat) : (0xFF : Lane).getLsbD b = decide (b < 8) := by
  have hones : (0xFF : Lane) = (BitVec.allOnes 8).setWidth 64 := by decide
  rw [hones, BitVec.getLsbD_setWidth, BitVec.getLsbD_allOnes]
  by_cases h : b < 8
  · simp [h, Nat.lt_trans h (by decide : 8 < 64)]
  · simp [h]

theorem replaceByte_getLsbD (x : Lane) (m : Nat) (v : Byte) (b : Nat) (hb : b < 64) :
    (replaceByte x m v).getLsbD b =
      if 8 * m ≤ b ∧ b < 8 * m + 8 then v.getLsbD (b - 8 * m) else x.getLsbD b := by
  simp only [replaceByte, BitVec.getLsbD_or, BitVec.getLsbD_and, BitVec.getLsbD_not, BitVec.getLsbD_shiftLeft,
    BitVec.getLsbD_setWidth, byteMask_getLsbD]
  split
  · next hin =>
    have hlt : b - 8 * m < 8 := by omega
    simp [hb, hlt, Nat.lt_trans hlt (by decide : 8 < 64), Nat.not_lt.2 hin.1]
  · next hout =>
    rcases Nat.lt_or_ge b (8 * m) with hlow | hhigh
    · simp [hb, hlow]
    · have hge : 8 ≤ b - 8 * m := by omega
      simp [hb, Nat.not_lt.2 hge, BitVec.getLsbD_of_ge v _ hge]

theorem replaceByte_extract_same (x : Lane) (m : Nat) (v : Byte) (hm : m < 8) :
    (replaceByte x m v).extractLsb' (8 * m) 8 = v := by
  ext z hz
  have hin : 8 * m ≤ 8 * m + z ∧ 8 * m + z < 8 * m + 8 := by omega
  rw [BitVec.getElem_extractLsb', replaceByte_getLsbD x m v _ (by omega), if_pos hin, Nat.add_sub_cancel_left,
    BitVec.getLsbD_eq_getElem hz]

theorem replaceByte_extract_other (x : Lane) (m n : Nat) (v : Byte) (hn : n < 8) (hne : n ≠ m) :
    (replaceByte x m v).extractLsb' (8 * n) 8 = x.extractLsb' (8 * n) 8 := by
  ext z hz
  have hout : ¬(8 * m ≤ 8 * n + z ∧ 8 * n + z < 8 * m + 8) := by omega
  rw [BitVec.getElem_extractLsb', BitVec.getElem_extractLsb', replaceByte_getLsbD x m v _ (by omega), if_neg hout]

theorem stateByte_setStateByte_same (A : Lanes) (k : Nat) (v : Byte) (hk : k < 200) :
    stateByte (setStateByte A k v) k = v := by
  have hlane : k / 8 < 25 := by omega
  rw [stateByte_eq_extract _ k hlane, setStateByte_eq_replaceByte, Vector.getElem_setIfInBounds_self]
  exact replaceByte_extract_same _ _ _ (Nat.mod_lt _ (by decide))

/-- The other byte is in the same lane, beside the one replaced, or in another lane. -/
theorem stateByte_setStateByte_other (A : Lanes) (k j : Nat) (v : Byte) (hj : j < 200) (hne : j ≠ k) :
    stateByte (setStateByte A k v) j = stateByte A j := by
  have hlane : j / 8 < 25 := by omega
  rw [stateByte_eq_extract _ j hlane, stateByte_eq_extract A j hlane, setStateByte_eq_replaceByte]
  by_cases hsame : k / 8 = j / 8
  · have hbyte : j % 8 ≠ k % 8 := by omega
    simp only [hsame, Vector.getElem_setIfInBounds_self, Vector.getElem?_eq_getElem hlane, Option.getD_some]
    exact replaceByte_extract_other _ _ _ _ (Nat.mod_lt _ (by decide)) hbyte
  · rw [Vector.getElem_setIfInBounds_ne _ hsame]

/-- Settles O16: the byte written is the mask's eight bits of its lane, and every other byte lies outside the mask or in
another lane. -/
theorem stateByteReadAndWrite : Obligations.StateByteReadAndWrite := by
  unfold Obligations.StateByteReadAndWrite
  intro A k v hk
  have hlane : k / 8 < 25 := by omega
  exact ⟨⟨hlane, stateByte_eq_extract A k hlane⟩, stateByte_setStateByte_same A k v hk,
    fun j hj hne => stateByte_setStateByte_other A k j v hj hne⟩

end Sys2Proof.Machine
end

section
/-! Proofs of the statements about the encoding of commands (30_encoding.md). -/

namespace Sys2Proof.Machine

/-! ### What each command reads of its fields -/

/-- CONFIG reads LEN for an XOF preset and a custom construction, RATE and SUFX for a custom construction only: the
fixed presets and the reserved codes read none of them (30_encoding.md R63 to R68). -/
theorem configCommand_congr {n : Nibble} {r r' x x' : Byte} {len len' : Word32} (s : State)
    (hlen : n = 0x8 ∨ n = 0x9 ∨ n = 0xE ∨ n = 0xF → len = len')
    (hcustom : n = 0xE ∨ n = 0xF → r = r' ∧ x = x') :
    configCommand n r x len s = configCommand n r' x' len' s := by
  have hcodes : n.toNat < 8 ∨ (n = 0x8 ∨ n = 0x9) ∨ (0xA ≤ n.toNat ∧ n.toNat < 0xE) ∨ (n = 0xE ∨ n = 0xF) := by
    clear hlen hcustom
    revert n
    decide
  rcases hcodes with hfixed | hshake | ⟨hlow, hhigh⟩ | hcust
  · exact (config_fixed n hfixed r x len s).symm.trans (config_fixed n hfixed r' x' len' s)
  · have hcode : n.toNat = 8 ∨ n.toNat = 9 := hshake.imp (congrArg BitVec.toNat) (congrArg BitVec.toNat)
    have hl : len = len' := hlen (hshake.imp_right .inl)
    rw [← config_shake n hcode r x, ← config_shake n hcode r' x', hl]
  · exact (config_reserved n hlow hhigh r x len s).symm.trans (config_reserved n hlow hhigh r' x' len' s)
  · obtain ⟨hr, hx⟩ := hcustom hcust
    rw [hr, hx, hlen (.inr (.inr hcust))]

theorem messageBytes_congr {n : Nat} {d d' : Lane} (h : ∀ j, j < n → dataByte d j = dataByte d' j) :
    messageBytes n d = messageBytes n d' :=
  List.map_congr_left fun j hj => h j (List.mem_range.1 hj)

/-- ABSORB reads the message bytes of a good count, and no byte of DATA with a bad one (30_encoding.md R62). -/
theorem absorbCommand_congr {n : Nibble} {d d' : Lane} (s : State)
    (h : n.toNat ≤ 8 → ∀ j, j < n.toNat → dataByte d j = dataByte d' j) :
    absorbCommand n d s = absorbCommand n d' s := by
  rcases Nat.lt_or_ge 8 n.toNat with hbad | hgood
  · exact (absorb_bad n hbad d s).symm.trans (absorb_bad n hbad d' s)
  · rw [absorbCommand, absorbCommand, messageBytes_congr (h hgood)]

/-- 42_commands.md R121: L is OUTLEN on a fixed construction, and on an XOF one without USE_LEN. -/
theorem outputLength_congr {useLen useLen' : Bool} {len len' : Word32} {s : State}
    (h : s.xof = true → useLen = useLen' ∧ (useLen = true → len = len')) :
    outputLength useLen len s = outputLength useLen' len' s := by
  unfold outputLength
  cases hx : s.xof with
  | false => rfl
  | true =>
    obtain ⟨huse, hlen⟩ := h hx
    cases useLen with
    | false => rw [← huse]; rfl
    | true => rw [← huse, hlen rfl]

theorem finalizeCommand_congr {useLen useLen' : Bool} {len len' : Word32} {s : State}
    (h : s.xof = true → useLen = useLen' ∧ (useLen = true → len = len')) :
    finalizeCommand useLen len s = finalizeCommand useLen' len' s := by
  unfold finalizeCommand
  exact checked_congr rfl fun _ => by rw [outputLength_congr h]

/-! ### The command OP names -/

theorem decodeCommand_config {w : Word128} (h : cmdOp w = 0x1) : decodeCommand w = decodeConfig w := by
  rw [decodeCommand, h]; rfl

theorem decodeCommand_absorb {w : Word128} (h : cmdOp w = 0x2) : decodeCommand w = decodeAbsorb w := by
  rw [decodeCommand, h]; rfl

theorem decodeCommand_finalize {w : Word128} (h : cmdOp w = 0x3) : decodeCommand w = decodeFinalize w := by
  rw [decodeCommand, h]; rfl

theorem decodeCommand_query {w : Word128} (h : cmdOp w = 0x5) : decodeCommand w = decodeQuery w := by
  rw [decodeCommand, h]; rfl

/-- NOP, RESET and the illegal opcodes are read from OP alone (30_encoding.md R60, R65). -/
theorem decodeCommand_eq_of_op_only {w w' : Word128} (hop : cmdOp w = cmdOp w') (h1 : cmdOp w ≠ 0x1)
    (h2 : cmdOp w ≠ 0x2) (h3 : cmdOp w ≠ 0x3) (h5 : cmdOp w ≠ 0x5) : decodeCommand w = decodeCommand w' := by
  unfold decodeCommand
  rw [← hop]
  split
  case h_2 e => exact absurd (nibble_of e (by decide)) h1
  case h_3 e => exact absurd (nibble_of e (by decide)) h2
  case h_4 e => exact absurd (nibble_of e (by decide)) h3
  case h_6 e => exact absurd (nibble_of e (by decide)) h5
  all_goals rfl

/-- Settles O3: by OP, each command's meaning is a function of the fields it reads, and the other opcodes read OP
only. -/
theorem ignoredFieldsChangeNothing : Obligations.IgnoredFieldsChangeNothing := by
  unfold Obligations.IgnoredFieldsChangeNothing
  intro w w' s hop hconfig habsorb hfinalize hquery
  by_cases h1 : cmdOp w = 0x1
  · obtain ⟨hn, hlen, hcustom⟩ := hconfig h1
    rw [decodeCommand_config h1, decodeCommand_config (hop ▸ h1), exec_decodeConfig, exec_decodeConfig, ← hn]
    exact configCommand_congr s hlen hcustom
  by_cases h2 : cmdOp w = 0x2
  · obtain ⟨hn, hdata⟩ := habsorb h2
    rw [decodeCommand_absorb h2, decodeCommand_absorb (hop ▸ h2), exec_decodeAbsorb, exec_decodeAbsorb, ← hn]
    exact absorbCommand_congr s hdata
  by_cases h3 : cmdOp w = 0x3
  · rw [decodeCommand_finalize h3, decodeCommand_finalize (hop ▸ h3), exec_decodeFinalize, exec_decodeFinalize]
    exact finalizeCommand_congr (hfinalize h3)
  by_cases h5 : cmdOp w = 0x5
  · rw [decodeCommand_query h5, decodeCommand_query (hop ▸ h5), exec_decodeQuery, exec_decodeQuery, hquery h5]
  · rw [decodeCommand_eq_of_op_only hop h1 h2 h3 h5]

end Sys2Proof.Machine
end

section
/-! Proofs of the statements about the permutation and the KP block (40_permutation.md). -/

namespace Sys2Proof.Machine

/-! ### Lanes by coordinate -/

/-- Coordinates are taken mod 5 (00_scope.md R13). -/
theorem laneAt_congr (A : Lanes) {x x' y y' : Nat} (hx : x % 5 = x' % 5) (hy : y % 5 = y' % 5) :
    laneAt A x y = laneAt A x' y' := by
  simp only [laneAt, hx, hy]

/-- The lane at (x, y) of a vector given by coordinates (00_scope.md R14). -/
@[simp] theorem laneAt_lanesOf (f : Nat → Nat → Lane) (x y : Nat) :
    laneAt (lanesOf f) x y = f (x % 5) (y % 5) := by
  have hcol : (x % 5 + 5 * (y % 5)) % 5 = x % 5 := by omega
  have hrow : (x % 5 + 5 * (y % 5)) / 5 = y % 5 := by omega
  simp only [laneAt, lanesOf, Vector.getElem_ofFn, hcol, hrow]

/-! ### Rotations -/

theorem rotl64_eq_rotateLeft (v : Lane) {n : Nat} (hn : n < 64) : rotl64 v n = v.rotateLeft n := by
  rw [BitVec.rotateLeft_def, Nat.mod_eq_of_lt hn, rotl64]
  split
  · next h0 =>
    rw [h0, Nat.sub_zero, BitVec.shiftLeft_zero, BitVec.ushiftRight_eq_zero (Nat.le_refl 64), BitVec.or_zero]
  · rfl

theorem rhoOffset_lt (x y : Nat) : rhoOffset x y < 64 := by
  have htable : ∀ i < 25, rhoTable.getD i 0 < 64 := by decide
  exact htable _ (by omega)

/-! ### The step mappings -/

theorem laneAt_theta (A : Lanes) {x y : Nat} (hx : x < 5) (hy : y < 5) :
    laneAt (theta A) x y =
      laneAt A x y ^^^ (columnParity A (x + 4) ^^^ (columnParity A (x + 1)).rotateLeft 1) := by
  rw [theta, laneAt_lanesOf, Nat.mod_eq_of_lt hx, Nat.mod_eq_of_lt hy, thetaEffect,
    rotl64_eq_rotateLeft _ (by decide)]

theorem laneAt_rho (A : Lanes) {x y : Nat} (hx : x < 5) (hy : y < 5) :
    laneAt (rho A) x y = (laneAt A x y).rotateLeft (rhoOffset x y) := by
  rw [rho, laneAt_lanesOf, Nat.mod_eq_of_lt hx, Nat.mod_eq_of_lt hy, rotl64_eq_rotateLeft _ (rhoOffset_lt x y)]

/-- The model's pi reads the lane (x' + 3y', x') for (x', y'), which inverts (x, y) ↦ (y, 2x + 3y): mod 5,
y + 3(2x + 3y) is x. -/
theorem laneAt_pi (A : Lanes) (x y : Nat) : laneAt (pi A) y (2 * x + 3 * y) = laneAt A x y := by
  rw [pi, laneAt_lanesOf]
  exact laneAt_congr A (by omega) (by omega)

theorem laneAt_chi (A : Lanes) {x y : Nat} (hx : x < 5) (hy : y < 5) :
    laneAt (chi A) x y = laneAt A x y ^^^ (~~~(laneAt A (x + 1) y) &&& laneAt A (x + 2) y) := by
  rw [chi, laneAt_lanesOf, Nat.mod_eq_of_lt hx, Nat.mod_eq_of_lt hy]

theorem laneAt_iota (A : Lanes) (i : Nat) {x y : Nat} (hx : x < 5) (hy : y < 5) :
    laneAt (iota A i) x y = if x = 0 ∧ y = 0 then laneAt A 0 0 ^^^ roundConstant i else laneAt A x y := by
  have hlane : 0 = x % 5 + 5 * (y % 5) ↔ x = 0 ∧ y = 0 := by omega
  simp only [laneAt, iota, Vector.getElem_set, hlane]

/-- Settles O6: each mapping is given by coordinates, so that its lane at (x, y) is read off its definition. -/
theorem stepMappingsByLane : Obligations.StepMappingsByLane := by
  unfold Obligations.StepMappingsByLane
  intro A x y hx hy
  exact ⟨laneAt_theta A hx hy, laneAt_rho A hx hy, laneAt_pi A x y, laneAt_chi A hx hy,
    fun i => laneAt_iota A i hx hy⟩

/-! ### The rounds -/

theorem roundsFrom_eq_foldl (i n : Nat) (A : Lanes) : roundsFrom i n A = (List.range' i n).foldl round A := by
  induction n generalizing i A with
  | zero => rfl
  | succ n ih => rw [roundsFrom, ih, List.range'_succ, List.foldl_cons]

/-- Settles O8: the rounds from 0 on are the fold over 0, ..., 23. -/
theorem keccakFIsTwentyFourRounds : Obligations.KeccakFIsTwentyFourRounds := by
  unfold Obligations.KeccakFIsTwentyFourRounds
  intro A
  rw [keccakF, roundsFrom_eq_foldl, ← List.range_eq_range']
  rfl

/-! ### PERMUTE -/

theorem exec_permute_of_idle {s : State} (bus : Bus) (h : s.alone.kph = .idle) :
    exec (.permute bus) s = .next { s with alone := Kp.load (unpackLanes bus) } :=
  if_pos h

theorem exec_permute_of_busy {s : State} (bus : Bus) (h : s.alone.kph ≠ .idle) : exec (.permute bus) s = .next s :=
  if_neg h

/-! ### An edge of the stand-alone KP, by its phase -/

theorem step_kp {s : State} {p : KpPins} {rest : List Input} (h : s.inputs = .kp p :: rest) :
    step s = kpEdge p { s with inputs := rest } := by
  rw [step, stepInput, h]

theorem kpEdge_of_idle {p : KpPins} {s : State} (hrst : p.rst = false) (h : s.alone.kph = .idle) :
    kpEdge p s = .next (if p.pInValid then { s with alone := Kp.load (unpackLanes p.pInState) } else s) := by
  simp only [kpEdge, hrst, h, exec_permute_of_idle p.pInState h]
  cases p.pInValid <;> rfl

theorem kpEdge_of_done {p : KpPins} {s : State} (hrst : p.rst = false) (h : s.alone.kph = .done) :
    kpEdge p s = .next (if p.pOutReady then takeKpOutput s else s) := by
  simp only [kpEdge, hrst, h]
  rfl

/-- In RUN and DONE no edge reads the input pins (40_permutation.md R97). -/
theorem kpEdge_input_of_busy {s : State} (p : KpPins) (b : Bool) (bus : Bus) (h : s.alone.kph ≠ .idle) :
    kpEdge { p with pInValid := b, pInState := bus } s = kpEdge p s := by
  unfold kpEdge
  cases hk : s.alone.kph with
  | idle => exact absurd hk h
  | run => rfl
  | done => rfl

theorem Kp.inReady_eq_false {k : Kp} (h : k.kph ≠ .idle) : Kp.inReady false k = false := by
  simp [Kp.inReady, h]

theorem Kp.outValid_of_done {k : Kp} (h : k.kph = .done) : Kp.outValid false k = true := by
  simp [Kp.outValid, h]

theorem Kp.outState_of_done {k : Kp} (h : k.kph = .done) : Kp.outState false k = some (packLanes k.ka) :=
  if_pos (Kp.outValid_of_done h)

/-- Settles O10: the input handshake is PERMUTE on an idle KP, at an edge when `p_in_valid` is 1. -/
theorem permuteLoadsAnIdleKp : Obligations.PermuteLoadsAnIdleKp := by
  unfold Obligations.PermuteLoadsAnIdleKp
  refine ⟨fun s bus h => exec_permute_of_idle bus h, fun s p rest hin hrst h => ?_⟩
  rw [step_kp hin]
  exact kpEdge_of_idle hrst h

/-- Settles O11: PERMUTE tests KPH, and the edges of RUN and DONE do not read the input pins. -/
theorem busyKpIgnoresItsInput : Obligations.BusyKpIgnoresItsInput := by
  unfold Obligations.BusyKpIgnoresItsInput
  intro s bus h
  refine ⟨exec_permute_of_busy bus h, Kp.inReady_eq_false h, fun p b rest _ => ?_⟩
  rw [step_kp rfl, step_kp rfl]
  exact kpEdge_input_of_busy p b bus h

/-- Settles O14: the ports of a KP in DONE, and its edge with and without `p_out_ready`. -/
theorem kpOutputHandshake : Obligations.KpOutputHandshake := by
  unfold Obligations.KpOutputHandshake
  intro s p rest hin hrst h
  refine ⟨Kp.outValid_of_done h, Kp.outState_of_done h, Kp.inReady_eq_false (by simp [h]), ?_⟩
  rw [step_kp hin]
  exact kpEdge_of_done hrst h

end Sys2Proof.Machine
end

section
/-! Proofs of the statements about the sponge functions (41_sponge.md). -/

namespace Sys2Proof.Machine

/-! ### Bytes of a lane -/

/-- A lane is its eight bytes (20_memory.md R39). -/
theorem lane_ext {x y : Lane} (h : ∀ j, j < 8 → dataByte x j = dataByte y j) : x = y := by
  ext n hn
  have hbyte := congrArg (·.getLsbD (n % 8)) (h (n / 8) (by omega))
  have hbit : n % 8 < 8 := Nat.mod_lt _ (by decide)
  simpa [dataByte, hbit, Nat.div_add_mod, hn] using hbyte

theorem dataByte_xor (x y : Lane) (j : Nat) : dataByte (x ^^^ y) j = dataByte x j ^^^ dataByte y j :=
  BitVec.extractLsb'_xor

/-- Byte j of Σ c[j] · 2^(8j) is c[j] (20_memory.md R40). -/
theorem dataByte_packBytes (c : List Byte) {j : Nat} (hj : j < 8) : dataByte (packBytes c) j = c.getD j 0 := by
  induction c generalizing j with
  | nil => simp [packBytes, dataByte]
  | cons b c ih =>
    have hcons : packBytes (b :: c) = (packBytes c <<< 8) ||| b.setWidth 64 := rfl
    ext z hz
    rw [hcons, dataByte, BitVec.getElem_extractLsb', BitVec.getLsbD_or, BitVec.getLsbD_shiftLeft,
      BitVec.getLsbD_setWidth]
    cases j with
    | zero => simp [hz, Nat.lt_trans hz (by decide : 8 < 64)]
    | succ j =>
      have hlt : 8 * (j + 1) + z < 64 := by omega
      have hge : 8 ≤ 8 * (j + 1) + z := by omega
      have hsub : 8 * (j + 1) + z - 8 = 8 * j + z := by omega
      rw [List.getD_cons_succ, ← ih (by omega), dataByte, BitVec.getElem_extractLsb', hsub,
        BitVec.getLsbD_of_ge b _ hge]
      simp [hlt, Nat.not_lt.2 hge]

/-! ### Bytes of a vector -/

theorem stateByte_eq_dataByte (A : Lanes) {i j : Nat} (hi : i < 25) (hj : j < 8) :
    stateByte A (8 * i + j) = dataByte A[i] j := by
  have hdiv : (8 * i + j) / 8 = i := by omega
  have hmod : (8 * i + j) % 8 = j := by omega
  simp [stateByte, dataByte, hdiv, hmod, hi]

/-- 20_memory.md R40. -/
theorem stateByte_lanesOfBytes (f : Nat → Byte) {k : Nat} (hk : k < 200) : stateByte (lanesOfBytes f) k = f k := by
  have hlane : k / 8 < 25 := by omega
  have hbyte : k % 8 < 8 := Nat.mod_lt _ (by decide)
  have hread := stateByte_eq_dataByte (lanesOfBytes f) hlane hbyte
  rw [Nat.div_add_mod] at hread
  rw [hread, lanesOfBytes, Vector.getElem_ofFn, dataByte_packBytes _ hbyte]
  simp [hbyte, Nat.div_add_mod]

/-! ### XorBlock -/

theorem stateByte_xorBlock (A : Lanes) (blk : List Byte) {k : Nat} (hk : k < 200) :
    stateByte (xorBlock A blk) k = if k < blk.length then stateByte A k ^^^ blk.getD k 0 else stateByte A k :=
  stateByte_lanesOfBytes _ hk

theorem dataByte_packBytes_chunk (blk : List Byte) (i : Nat) {j : Nat} (hj : j < 8) :
    dataByte (packBytes ((blk.drop (8 * i)).take 8)) j = blk.getD (8 * i + j) 0 := by
  simp [dataByte_packBytes _ hj, hj]

/-- With a block of whole lanes, the eight bytes of a lane are all below the length or all from it on. -/
theorem xorBlock_lane (A : Lanes) (blk : List Byte) (hwhole : blk.length % 8 = 0) (i : Nat) (hi : i < 25) :
    (xorBlock A blk)[i] =
      if i < blk.length / 8 then A[i] ^^^ packBytes ((blk.drop (8 * i)).take 8) else A[i] := by
  refine lane_ext fun j hj => ?_
  have hside : 8 * i + j < blk.length ↔ i < blk.length / 8 := by omega
  rw [← stateByte_eq_dataByte _ hi hj, stateByte_xorBlock A blk (by omega), stateByte_eq_dataByte A hi hj]
  simp only [hside]
  split
  · rw [dataByte_xor, dataByte_packBytes_chunk blk i hj]
  · rfl

/-- Settles O18: the bytes are those XorBlock packs, and a lane is its eight bytes. -/
theorem xorBlockByBytesAndWords : Obligations.XorBlockByBytesAndWords := by
  unfold Obligations.XorBlockByBytesAndWords
  intro A blk _
  exact ⟨fun k hk => stateByte_xorBlock A blk hk, fun hwhole i => xorBlock_lane A blk hwhole i i.isLt⟩

/-! ### Pad -/

@[simp] theorem length_pad (rate : Nat) (suffix : Byte) (t : List Byte) : (pad rate suffix t).length = rate := by
  simp [pad]

theorem pad_getD (rate : Nat) (suffix : Byte) (t : List Byte) {j : Nat} (hj : j < rate) :
    (pad rate suffix t).getD j 0 =
      if j + 1 = rate then padBase suffix t j ||| 0x80 else padBase suffix t j := by
  simp [pad, hj]

/-- From the end of the tail on there are only the suffix and zeros. -/
theorem padBase_of_ge (suffix : Byte) (t : List Byte) {j : Nat} (hj : t.length ≤ j) :
    padBase suffix t j = if t.length = j then suffix else 0 := by
  rw [padBase, if_neg (Nat.not_lt.2 hj)]
  simp only [eq_comm]

/-- Settles O19: below its last byte the block is `padBase`, and the last byte lies at or past the end of the tail. -/
theorem padIsOneBlock : Obligations.PadIsOneBlock := by
  unfold Obligations.PadIsOneBlock
  intro rate suffix t ht
  refine ⟨length_pad rate suffix t, fun j hj => ?_, ?_⟩
  · rw [pad_getD rate suffix t (Nat.lt_of_succ_lt hj), if_neg (Nat.ne_of_lt hj), padBase]
  · have hlast : rate - 1 + 1 = rate := by omega
    rw [pad_getD rate suffix t (by omega), if_pos hlast, padBase_of_ge suffix t (by omega)]

/-! ### Squeeze -/

theorem streamByte_of_lt {rate j : Nat} (Z : Lanes) (h : j < rate) : streamByte rate Z j = stateByte Z j := by
  simp [streamByte, Nat.div_eq_of_lt h, Nat.mod_eq_of_lt h]

/-- The stream past Block_0 is the stream from Z_1. -/
theorem streamByte_add_rate {rate : Nat} (h : 1 ≤ rate) (Z : Lanes) (j : Nat) :
    streamByte rate Z (rate + j) = streamByte rate (keccakF Z) j := by
  rw [streamByte, Nat.add_div_left j h, Nat.add_mod_left, Function.iterate_succ_apply, streamByte]

theorem ratePart_eq_map_streamByte (rate : Nat) (Z : Lanes) :
    ratePart rate Z = (List.range rate).map (streamByte rate Z) :=
  List.map_congr_left fun _ hj => (streamByte_of_lt Z (List.mem_range.1 hj)).symm

theorem squeezeBlocks_eq_map_streamByte {rate : Nat} (h : 1 ≤ rate) (n : Nat) (Z : Lanes) :
    squeezeBlocks rate n Z = (List.range (n * rate)).map (streamByte rate Z) := by
  induction n generalizing Z with
  | zero => simp [squeezeBlocks]
  | succ n ih =>
    have hlen : (n + 1) * rate = rate + n * rate := by rw [Nat.succ_mul, Nat.add_comm]
    rw [squeezeBlocks, ih, ratePart_eq_map_streamByte, hlen, List.range_add, List.map_append, List.map_map]
    simp only [Function.comp_def, streamByte_add_rate h]

/-- The blocks squeezed hold at least the bytes asked for. -/
theorem le_ceilDiv_mul {b : Nat} (h : 1 ≤ b) (a : Nat) : a ≤ ceilDiv a b * b := by
  have hdiv := Nat.lt_div_mul_add (a := a + b - 1) h
  rw [ceilDiv]
  omega

theorem squeeze_eq_map_streamByte {rate : Nat} (h : 1 ≤ rate) (Z : Lanes) (L : Nat) :
    squeeze rate Z L = (List.range L).map (streamByte rate Z) := by
  rw [squeeze, squeezeBlocks_eq_map_streamByte h, ← List.map_take, List.take_range,
    Nat.min_eq_left (le_ceilDiv_mul h L)]

/-- Settles O20: Squeeze is the first L bytes of the stream. -/
theorem squeezeByteByByte : Obligations.SqueezeByteByByte := by
  unfold Obligations.SqueezeByteByByte
  intro rate Z L h
  rw [squeeze_eq_map_streamByte h]
  exact ⟨by simp, fun j hj => by simp [hj, streamByte]⟩

end Sys2Proof.Machine
end

section
/-! Proofs of the statements about the commands (42_commands.md). -/

namespace Sys2Proof.Machine

open Sys2Proof.Claims

/-! ### The outcome of the checks (60_exceptions.md R146) -/

theorem checked_of_error {op n e : Nibble} {r x : Byte} {s : State} (k : State → State)
    (h : firstError s.cfgValid op n r x = some e) :
    checked op n r x s k = .next (answered (responseWord op e 0 true 0 0) s) := by
  rw [checked, h]; rfl

theorem checked_of_ok {op n : Nibble} {r x : Byte} {s : State} (k : State → State)
    (h : firstError s.cfgValid op n r x = none) : checked op n r x s k = .next (k s) := by
  rw [checked, h]

theorem firstError_of_unconfigured {op n : Nibble} (r x : Byte) (h : needsConfig op n = true) :
    firstError false op n r x = some errUnconfigured := by
  have hlegal : ∀ op n : Nibble, needsConfig op n = true → ¬6 ≤ op.toNat := by decide
  simp [firstError, hlegal op n h, h]

theorem firstError_config (c : Bool) (n : Nibble) (r x : Byte) :
    firstError c 0x1 n r x = if configLegal n r x then none else some errConfig := by
  have hneeds : (!c && needsConfig 0x1 n) = false := by simp [needsConfig]
  rw [firstError, hneeds]
  cases configLegal n r x <;> rfl

theorem firstError_absorb (n : Nibble) (r x : Byte) :
    firstError true 0x2 n r x = if 8 < n.toNat then some errBadCount else none := by
  simp [firstError]

/-- A selector is checked while configured, and STATUS while unconfigured too. -/
theorem firstError_query {c : Bool} {n : Nibble} (r x : Byte) (h : c = true ∨ n = 0x2) :
    firstError c 0x5 n r x = if 3 < n.toNat then some errBadQuery else none := by
  have hneeds : (!c && needsConfig 0x5 n) = false := by
    rcases h with rfl | rfl
    · rfl
    · exact Bool.and_false _
  rw [firstError, hneeds]
  simp

/-- A command that needs a construction, on an unconfigured SF (60_exceptions.md R147). -/
theorem checked_of_unconfigured {op n : Nibble} {r x : Byte} {s : State} (k : State → State)
    (hs : s.cfgValid = false) (h : needsConfig op n = true) :
    checked op n r x s k = .next (answered (responseWord op errUnconfigured 0 true 0 0) s) :=
  checked_of_error k (by rw [hs, firstError_of_unconfigured r x h])

/-! ### NOP and the illegal opcodes -/

/-- Settles O22: NOP has no check. -/
theorem nopOnlyAnswers : Obligations.NopOnlyAnswers := by
  unfold Obligations.NopOnlyAnswers
  refine ⟨fun s => rfl, fun w hop => ?_⟩
  rw [decodeCommand, hop]
  rfl

/-- Each illegal opcode's row is the illegal command of that OP. -/
theorem exec_illegalRow (s : State) {q : Instr × Nibble} (h : q ∈ illegalRows) :
    exec q.1 s = illegalCommand q.2 s := by
  fin_cases h <;> rfl

/-- An illegal word is read from OP alone, so that one word for each OP stands for all. -/
theorem decodeCommand_illegal {w : Word128} (h : 0x6 ≤ (cmdOp w).toNat) :
    (decodeCommand w, cmdOp w) ∈ illegalRows := by
  have hrows : ∀ op : Nibble, 0x6 ≤ op.toNat → (decodeCommand (commandWord op 0 0 0 0 0), op) ∈ illegalRows := by
    decide
  have hne {op : Nibble} (hop : op.toNat < 0x6) : cmdOp w ≠ op := by
    rintro rfl
    omega
  rw [decodeCommand_eq_of_op_only (cmdOp_commandWord (cmdOp w) 0 0 0 0 0).symm (hne (by decide)) (hne (by decide))
    (hne (by decide)) (hne (by decide))]
  exact hrows _ h

/-- Settles O34: every illegal opcode is answered by `illegalCommand`, in which no register is tested. -/
theorem illegalOpcodesAreRefused : Obligations.IllegalOpcodesAreRefused := by
  unfold Obligations.IllegalOpcodesAreRefused
  exact ⟨fun s q hq => exec_illegalRow s hq, fun w h => decodeCommand_illegal h⟩

/-! ### CONFIG -/

theorem configCommand_of_illegal {fc : Nibble} {r x : Byte} (len : Word32) (s : State)
    (h : configLegal fc r x = false) :
    configCommand fc r x len s = .next (answered 0x00000000000000000000000000001031 s) :=
  checked_of_error (e := errConfig) _ (by rw [firstError_config, h]; rfl)

theorem configLegal_of_preset {fc : Nibble} {p : Preset} (r x : Byte) (h : presetOf fc = some p) :
    configLegal fc r x = true := by
  have hlt : fc.toNat < presetTable.length := (List.getElem?_eq_some_iff.1 h).1
  exact if_pos hlt

theorem configCommand_of_preset {fc : Nibble} {p : Preset} (r x : Byte) (len : Word32) (s : State)
    (h : presetOf fc = some p) : configCommand fc r x len s =
      .next (constructed fc p.rate p.suffix p.xof (if p.xof then len else p.digest) s) := by
  rw [configCommand, checked_of_ok _ (by rw [firstError_config, configLegal_of_preset r x h]; rfl), h]
  rfl

theorem configCommand_of_fixed_preset {fc : Nibble} {rate suffix : Byte} {digest : Word32} {r x : Byte} {len : Word32}
    (s : State) (h : presetOf fc = some ⟨rate, suffix, false, digest⟩) :
    configCommand fc r x len s = .next (constructed fc rate suffix false digest s) :=
  configCommand_of_preset r x len s h

theorem configCommand_of_xof_preset {fc : Nibble} {rate suffix : Byte} {digest : Word32} {r x : Byte} {len : Word32}
    (s : State) (h : presetOf fc = some ⟨rate, suffix, true, digest⟩) :
    configCommand fc r x len s = .next (constructed fc rate suffix true len s) :=
  configCommand_of_preset r x len s h

/-- Settles O23: a preset is always legal, and its registers are its row of the preset table. -/
theorem presetConfigs : Obligations.PresetConfigs := by
  unfold Obligations.PresetConfigs
  constructor
  · intro s len
    and_intros
    iterate 8 exact configCommand_of_fixed_preset s rfl
    all_goals exact configCommand_of_xof_preset s rfl
  · intro w hop
    and_intros
    all_goals
      intro hn
      rw [decodeCommand_config hop, decodeConfig, hn]
      rfl

/-- 60_exceptions.md R148. -/
theorem configLegal_custom {fc : Nibble} (h : fc = 0xE ∨ fc = 0xF) (r x : Byte) :
    configLegal fc r x = true ↔ 1 ≤ r.toNat ∧ r.toNat ≤ 200 ∧ x ≠ 0 := by
  have hcode : configLegal fc r x =
      (decide (1 ≤ r.toNat) && decide (r.toNat ≤ Config.stateBytes) && decide (x ≠ 0)) := by
    rcases h with rfl | rfl <;> rfl
  rw [hcode]
  simp only [Bool.and_eq_true, decide_eq_true_eq, and_assoc]
  exact Iff.rfl

theorem configLegal_of_bad_custom {fc : Nibble} {r x : Byte} (h : fc = 0xE ∨ fc = 0xF)
    (hbad : r = 0 ∨ 200 < r.toNat ∨ x = 0) : configLegal fc r x = false := by
  rw [← Bool.not_eq_true, configLegal_custom h]
  rintro ⟨hlow, hhigh, hx⟩
  rcases hbad with rfl | hr | rfl
  · exact absurd hlow (by decide)
  · exact absurd hhigh (Nat.not_le.2 hr)
  · exact hx rfl

theorem configCommand_of_custom {fc : Nibble} {r x : Byte} (len : Word32) (s : State) (h : fc = 0xE ∨ fc = 0xF)
    (hfields : 1 ≤ r.toNat ∧ r.toNat ≤ 200 ∧ x ≠ 0) :
    configCommand fc r x len s = .next (constructed fc r x (fc == 0xF) len s) := by
  have hlegal : configLegal fc r x = true := (configLegal_custom h r x).2 hfields
  rw [configCommand, checked_of_ok _ (by rw [firstError_config, hlegal]; rfl)]
  rcases h with rfl | rfl <;> rfl

/-- Settles O24: the fields of a custom CONFIG are tested by `configLegal` alone, and the two codes are no presets, so
that the registers are the word's fields. -/
theorem customConfigs : Obligations.CustomConfigs := by
  unfold Obligations.CustomConfigs
  refine ⟨fun s r x len => ⟨fun hlow hhigh hx => ?_, fun hbad => ?_⟩, fun w hop => ?_⟩
  · have hfields : 1 ≤ r.toNat ∧ r.toNat ≤ 200 ∧ x ≠ 0 := ⟨hlow, hhigh, hx⟩
    exact ⟨configCommand_of_custom len s (.inl rfl) hfields, configCommand_of_custom len s (.inr rfl) hfields⟩
  · exact ⟨configCommand_of_illegal len s (configLegal_of_bad_custom (.inl rfl) hbad),
      configCommand_of_illegal len s (configLegal_of_bad_custom (.inr rfl) hbad)⟩
  · and_intros
    all_goals
      intro hn
      rw [decodeCommand_config hop, decodeConfig, hn]
      rfl

/-- Settles O25: a reserved code is illegal whatever the other fields are. -/
theorem reservedFamiliesAreRefused : Obligations.ReservedFamiliesAreRefused := by
  unfold Obligations.ReservedFamiliesAreRefused
  constructor
  · intro s i hi
    fin_cases hi <;> exact configCommand_of_illegal 0 s rfl
  · intro w hop
    and_intros
    all_goals
      intro hn
      rw [decodeCommand_config hop, decodeConfig, hn]
      rfl

/-! ### ABSORB -/

theorem absorbCommand_of_unconfigured (n : Nibble) (d : Lane) {s : State} (hs : s.cfgValid = false) :
    absorbCommand n d s = .next (answered 0x00000000000000000000000000001022 s) :=
  checked_of_unconfigured _ hs rfl

theorem absorbCommand_of_bad_count {n : Nibble} (d : Lane) {s : State} (hs : s.cfgValid = true) (hn : 8 < n.toNat) :
    absorbCommand n d s = .next (answered 0x00000000000000000000000000001042 s) :=
  checked_of_error (e := errBadCount) _ (by rw [hs, firstError_absorb, if_pos hn])

theorem absorbCommand_of_ok {n : Nibble} (d : Lane) {s : State} (hs : s.cfgValid = true) (hn : n.toNat ≤ 8) :
    absorbCommand n d s = .next (respondOk 0x2 (n.setWidth 32)
      (absorbBytes (messageBytes n.toNat d) { s with ipos := 0, started := true })) :=
  checked_of_ok _ (by rw [hs, firstError_absorb, if_neg (Nat.not_lt.2 hn)])

/-- Each row of ABSORB with a legal count is ABSORB of that count; with N = 0 DATA is not read. -/
theorem exec_absorbRow {d : Lane} {q : Instr × Nat} (h : q ∈ absorbRows d) :
    q.2 ≤ 8 ∧ ∀ s, exec q.1 s = absorbCommand (BitVec.ofNat 4 q.2) d s := by
  fin_cases h <;> exact ⟨by simp, fun _ => rfl⟩

/-- Each row of ABSORB with a bad count is ABSORB of that count. -/
theorem exec_absorbBadRow {i : Instr} (h : i ∈ absorbBadRows) :
    ∃ n : Nibble, 8 < n.toNat ∧ ∀ s, exec i s = absorbCommand n 0 s := by
  fin_cases h
  exacts [⟨9, by decide, fun _ => rfl⟩, ⟨10, by decide, fun _ => rfl⟩, ⟨11, by decide, fun _ => rfl⟩,
    ⟨12, by decide, fun _ => rfl⟩, ⟨13, by decide, fun _ => rfl⟩, ⟨14, by decide, fun _ => rfl⟩,
    ⟨15, by decide, fun _ => rfl⟩]

theorem exec_absorbRows_of_unconfigured {s : State} (d : Lane) (hs : s.cfgValid = false) :
    ∀ i ∈ (absorbRows d).map Prod.fst ++ absorbBadRows,
      exec i s = .next (answered 0x00000000000000000000000000001022 s) := by
  intro i hi
  rcases List.mem_append.1 hi with hgood | hbad
  · obtain ⟨q, hq, rfl⟩ := List.mem_map.1 hgood
    rw [(exec_absorbRow hq).2]
    exact absorbCommand_of_unconfigured _ d hs
  · obtain ⟨n, -, hexec⟩ := exec_absorbBadRow hbad
    rw [hexec]
    exact absorbCommand_of_unconfigured n 0 hs

@[simp] theorem length_messageBytes (n : Nat) (d : Lane) : (messageBytes n d).length = n := by
  simp [messageBytes]

/-- The state an accepted ABSORB of the bytes `m` answers (42_commands.md R120). -/
def absorbed (m : List Byte) (s : State) : State :=
  respondOk 0x2 (BitVec.ofNat 32 m.length) (absorbBytes m { s with ipos := 0, started := true })

theorem exec_absorbRow_of_configured {d : Lane} {q : Instr × Nat} (h : q ∈ absorbRows d) {s : State}
    (hs : s.cfgValid = true) : exec q.1 s = .next (absorbed (messageBytes q.2 d) s) := by
  obtain ⟨hle, hexec⟩ := exec_absorbRow h
  have hn : (BitVec.ofNat 4 q.2).toNat = q.2 := Nat.mod_eq_of_lt (by omega)
  have hv : (BitVec.ofNat 4 q.2).setWidth 32 = BitVec.ofNat 32 q.2 := by
    rw [BitVec.setWidth_ofNat_of_le_of_lt (by decide) (by omega)]
  rw [hexec, absorbCommand_of_ok d hs (by omega), hn, hv, absorbed, length_messageBytes]

/-- `absorbed` writes these fields only. -/
theorem absorbed_frame (m : List Byte) (s : State) :
    absorbed m s = { s with
      sponge := (absorbed m s).sponge, buf := (absorbed m s).buf, blen := (absorbed m s).blen,
      ipos := BitVec.ofNat 4 m.length, started := true, kp := (absorbed m s).kp, kpStarts := (absorbed m s).kpStarts,
      ph := .rsp, rspr := responseWord 0x2 0x0 0 true (BitVec.ofNat 32 m.length) 0 } := by
  obtain ⟨sp, bf, bl, kp, n, hframe⟩ := absorbBytes_frame m { s with ipos := 0, started := true }
  have hipos : (0 : Nibble) + BitVec.ofNat 4 m.length = BitVec.ofNat 4 m.length := BitVec.zero_add _
  rw [absorbed, hframe, hipos]
  rfl

/-- The message of `absorbed` is the staged bytes' (41_sponge.md R101), BLEN counts them and stays below RATE. -/
theorem absorbed_spec (m : List Byte) {s : State} (hs : Ready s) :
    ((absorbed m s).sponge, stagedTail (absorbed m s)) =
      m.foldl (stagePair s.rate.toNat) (s.sponge, stagedTail s) ∧
    (absorbed m s).blen.toNat = (stagedTail (absorbed m s)).length ∧
    (absorbed m s).blen.toNat < s.rate.toNat ∧
    (absorbed m s).kpStarts = s.kpStarts + (s.blen.toNat + m.length) / s.rate.toNat := by
  obtain ⟨-, hpos, hrate, hblen⟩ := hs
  obtain ⟨hpair, hmod, hstarts⟩ := absorbBytes_spec m { s with ipos := 0, started := true } hrate hblen
  have hlt : (absorbed m s).blen.toNat < s.rate.toNat := hmod.trans_lt (Nat.mod_lt _ hpos)
  exact ⟨hpair, (stagedTail_length _ (by omega)).symm, hlt, hstarts⟩

theorem decodeAbsorb_good {w : Word128} {n : Nat} (h : (cmdN w).toNat = n) (hn : n ≤ 8) :
    (decodeAbsorb w, n) ∈ absorbRows (keepBytes n (cmdData w)) := by
  rw [decodeAbsorb, h]
  interval_cases n <;> simp [absorbRows]

theorem decodeAbsorb_bad {w : Word128} (h : 8 < (cmdN w).toNat) : decodeAbsorb w ∈ absorbBadRows := by
  unfold decodeAbsorb
  split <;> rename_i e
  case h_1 | h_2 | h_3 | h_4 | h_5 | h_6 | h_7 | h_8 | h_9 => omega
  all_goals decide

/-- m_j stands at bits 64+8j of the word (30_encoding.md R58, R62). -/
theorem dataByte_cmdData (w : Word128) {j : Nat} (hj : j < 8) :
    dataByte (cmdData w) j = w.extractLsb' (64 + 8 * j) 8 := by
  ext i hi
  simp [dataByte, cmdData, show 8 * j + i < 64 by omega, Nat.add_assoc]

/-- Settles O26: the checks refuse an ABSORB first while unconfigured and then for its count; an accepted one folds
StageByte over its bytes, by induction on them. -/
theorem absorbStagesItsBytes : Obligations.AbsorbStagesItsBytes := by
  unfold Obligations.AbsorbStagesItsBytes
  refine ⟨fun s d => ⟨exec_absorbRows_of_unconfigured d, fun hs i hi => ?_, fun hs q hq => ?_⟩, fun w hop => ?_⟩
  · obtain ⟨n, hn, hexec⟩ := exec_absorbBadRow hi
    rw [hexec]
    exact absorbCommand_of_bad_count 0 hs hn
  · obtain ⟨hpair, hlen, hlt, hstarts⟩ := absorbed_spec (messageBytes q.2 d) hs
    have hframe := absorbed_frame (messageBytes q.2 d) s
    rw [length_messageBytes] at hstarts hframe
    exact ⟨_, exec_absorbRow_of_configured hq hs.1, hpair, hlen, hlt, hstarts, hframe⟩
  · rw [decodeCommand_absorb hop]
    refine ⟨fun hgood => ⟨_, decodeAbsorb_good rfl hgood, fun j hj => ?_⟩, decodeAbsorb_bad⟩
    exact (dataByte_keepBytes (cmdData w) hj).trans (dataByte_cmdData w (by omega))

/-! ### RESET -/

theorem exec_reset (s : State) :
    exec .reset s = checked 0x4 0 0 0 s fun s => respondOk 0x4 0 (clearMessage s) := rfl

/-- Settles O30: by CFG_VALID, RESET is the one error or clears the message. -/
theorem resetClearsTheMessage : Obligations.ResetClearsTheMessage := by
  unfold Obligations.ResetClearsTheMessage
  refine ⟨fun s => ?_, fun w hop => by rw [decodeCommand, hop]; rfl⟩
  rw [exec_reset]
  by_cases hs : s.cfgValid = true
  · have hok : firstError s.cfgValid 0x4 0 0 0 = none := by rw [hs]; rfl
    rw [if_pos hs, checked_of_ok _ hok]
    rfl
  · rw [if_neg hs]
    exact checked_of_unconfigured _ (Bool.eq_false_iff.2 hs) rfl

/-! ### QUERY -/

theorem queryCommand_of_ok {sel : Nibble} {s : State} (hs : s.cfgValid = true ∨ sel = 0x2) (hsel : sel.toNat ≤ 3) :
    queryCommand sel s = .next (answered (responseWord 0x5 0x0 0 true (queryValue sel s) 0) s) :=
  checked_of_ok _ (by rw [firstError_query 0 0 hs, if_neg (Nat.not_lt.2 hsel)])

theorem queryCommand_of_unconfigured {sel : Nibble} {s : State} (hs : s.cfgValid = false) (hsel : sel ≠ 0x2) :
    queryCommand sel s = .next (answered 0x00000000000000000000000000001025 s) :=
  checked_of_unconfigured _ hs (by simpa [needsConfig] using hsel)

theorem queryCommand_of_bad {sel : Nibble} {s : State} (hs : s.cfgValid = true) (hsel : 3 < sel.toNat) :
    queryCommand sel s = .next (answered 0x00000000000000000000000000001055 s) :=
  checked_of_error (e := errBadQuery) _ (by rw [firstError_query 0 0 (.inl hs), if_pos hsel])

/-- Settles O31: the three selectors pass the check of N, and need a construction. -/
theorem queriesOfTheConstruction : Obligations.QueriesOfTheConstruction := by
  unfold Obligations.QueriesOfTheConstruction
  refine ⟨fun s hs => ?_, fun s hs i hi => ?_, fun w hop => ?_⟩
  · exact ⟨queryCommand_of_ok (.inl hs) (by decide), queryCommand_of_ok (.inl hs) (by decide),
      queryCommand_of_ok (.inl hs) (by decide)⟩
  · fin_cases hi <;> exact queryCommand_of_unconfigured hs (by decide)
  · and_intros
    all_goals
      intro hn
      rw [decodeCommand_query hop, decodeQuery, hn]
      rfl

/-- Each bit of the status word comes from the register that owns it (30_encoding.md R72). -/
theorem statusWord_getLsbD (s : State) (i : Nat) : (statusWord s).getLsbD i =
    if i < 1 then s.cfgValid else if i < 2 then s.xof else if i < 4 then false
    else if i < 8 then s.fam.getLsbD (i - 4) else if i < 16 then s.blen.getLsbD (i - 8) else false := by
  show ((0 : BitVec 16) ++ s.blen ++ s.fam ++ (0 : BitVec 2) ++ BitVec.ofBool s.xof ++
    BitVec.ofBool s.cfgValid).getLsbD i = _
  simp only [BitVec.getLsbD_append]
  grind

/-- An unconfigured SF holds FAM, XOF and BLEN 0 (10_state.md R27, R28). -/
theorem statusWord_of_unconfigured {s : State} (h : s.Inv) (hs : s.cfgValid = false) : statusWord s = 0 := by
  obtain ⟨hfam, -, -, hxof, -⟩ : s.fam = 0 ∧ s.rate = 0 ∧ s.suffix = 0 ∧ s.xof = false ∧ s.outlen = 0 := by
    simpa [State.ConfigOk, hs] using h.config
  have hblen : s.blen = 0 ∧ s.sponge = zeroLanes := by
    simpa [hs] using h.staging.1
  rw [statusWord, hs, hfam, hxof, hblen.1]
  rfl

/-- Settles O32: STATUS passes every check, and each field of its VALUE is read off `statusWord` bit by bit. -/
theorem queryStatusReportsTheStatusWord : Obligations.QueryStatusReportsTheStatusWord := by
  unfold Obligations.QueryStatusReportsTheStatusWord
  constructor
  · intro s
    refine ⟨statusWord s, queryCommand_of_ok (.inr rfl) (by decide), ?_, ?_, ?_, ?_, ?_, ?_,
      fun h hs => statusWord_of_unconfigured h hs⟩
    · rw [statusWord_getLsbD]; rfl
    · rw [statusWord_getLsbD]; rfl
    all_goals
      ext i hi
      rw [BitVec.getElem_extractLsb', statusWord_getLsbD]
      grind
  · intro w hop hn
    rw [decodeCommand_query hop, decodeQuery, hn]; rfl

/-- Each bad selector's row is QUERY with that selector. -/
theorem exec_queryBadRow {i : Instr} (h : i ∈ queryBadRows) :
    ∃ sel : Nibble, 3 < sel.toNat ∧ ∀ s, exec i s = queryCommand sel s := by
  fin_cases h
  exacts [⟨0x4, by decide, fun _ => rfl⟩, ⟨0x5, by decide, fun _ => rfl⟩, ⟨0x6, by decide, fun _ => rfl⟩,
    ⟨0x7, by decide, fun _ => rfl⟩, ⟨0x8, by decide, fun _ => rfl⟩, ⟨0x9, by decide, fun _ => rfl⟩,
    ⟨0xA, by decide, fun _ => rfl⟩, ⟨0xB, by decide, fun _ => rfl⟩, ⟨0xC, by decide, fun _ => rfl⟩,
    ⟨0xD, by decide, fun _ => rfl⟩, ⟨0xE, by decide, fun _ => rfl⟩, ⟨0xF, by decide, fun _ => rfl⟩]

theorem decodeQuery_bad {w : Word128} (h : 4 ≤ (cmdN w).toNat) : decodeQuery w ∈ queryBadRows := by
  unfold decodeQuery
  split
  case h_1 e | h_2 e | h_3 e | h_4 e => omega
  all_goals decide

/-- Settles O33: the check of the construction comes before the check of the selector. -/
theorem badSelectorsAreRefused : Obligations.BadSelectorsAreRefused := by
  unfold Obligations.BadSelectorsAreRefused
  refine ⟨fun s i hi => ?_, fun w hop hn => by rw [decodeCommand_query hop]; exact decodeQuery_bad hn⟩
  obtain ⟨sel, hsel, hexec⟩ := exec_queryBadRow hi
  rw [hexec]
  cases hs : s.cfgValid with
  | false => exact queryCommand_of_unconfigured hs (by rintro rfl; exact absurd hsel (by decide))
  | true => exact queryCommand_of_bad hs hsel

end Sys2Proof.Machine
end

section
/-! Proofs of the statements about the edges of SF (43_sponge_fsm.md). -/

namespace Sys2Proof.Machine

open Sys2Proof.Claims

/-! ### The host's raised command at an edge (70_reset_and_hazards.md R166) -/

theorem breaksOffer_of_holds {p : SfPins} {s : State} (h : Holds s.offer p) : breaksOffer p s = false := by
  unfold breaksOffer
  cases ho : s.offer with
  | none => rfl
  | some w => simp [h w ho]

theorem offerAfter_of_idle {p : SfPins} {s : State} (hrst : p.rst = false) (h : s.ph = .idle) :
    offerAfter p s = none := by
  simp [offerAfter, cmdReady, hrst, h]

theorem offerAfter_of_busy {p : SfPins} {s : State} (h : s.ph ≠ .idle) : offerAfter p s = raised p := by
  simp [offerAfter, cmdReady, h]

/-- An edge of SF without reset, at which the host holds the command it has raised, is SF's work by PH. -/
theorem step_of_sfEdgeNext {s : State} {p : SfPins} {rest : List Input} (hin : SfEdgeNext s p rest)
    (hrst : p.rst = false) (h : Holds s.offer p) : step s = sfWork p (atEdge p rest s) := by
  have hedge : step s = sfEdge p { s with inputs := rest } := by
    rcases hin with hin | ⟨hin, hk, rfl, rfl⟩
    · exact step_sf s p rest hin
    · cases s
      subst hin
      exact if_neg hk
  have hb : breaksOffer p { s with inputs := rest } = false := breaksOffer_of_holds h
  rw [hedge, sfEdge, hrst, hb]
  rfl

/-! ### SF's work in IDLE and in RSP -/

theorem sfWork_of_idle {p : SfPins} {a : State} (h : a.ph = .idle) :
    sfWork p a = .next (if p.cmdValid then acceptCommand p.cmdWord a else a) := by
  rw [sfWork, h]

theorem sfWork_of_rsp {p : SfPins} {a : State} (h : a.ph = .rsp) :
    sfWork p a = .next (if p.rspReady then transferResponse a else a) := by
  rw [sfWork, h]

/-- The response handshake (43_sponge_fsm.md R137): the word is recorded, and LAST says where PH goes. -/
theorem transferResponse_spec (a : State) : (transferResponse a).received = a.received ++ [a.rspr] ∧
    (transferResponse a).ph = (if rspLast a.rspr then .idle else .exec) ∧ SamePersistent a (transferResponse a) ∧
    (transferResponse a).cmdr = a.cmdr := by
  unfold transferResponse
  cases rspLast a.rspr <;> simp [rspWord, SamePersistent]

/-! ### SF's work on a command in EXEC and WAIT_KP -/

/-- `t` still has the command that `a` has latched, and has not gone back to IDLE. -/
def KeepsCommand (a t : State) : Prop := t.cmdr = a.cmdr ∧ t.ph ≠ .idle

theorem absorbEdge_keepsCommand {a : State} (h : a.ph ≠ .idle) : KeepsCommand a (absorbEdge a) := by
  obtain ⟨kp, ph, n, bf, bl, ip, r, hph, e⟩ := absorbEdge_frame a
  rw [e]
  exact ⟨rfl, by rcases hph with rfl | rfl | rfl <;> simp [h]⟩

theorem finalizeStart_keepsCommand {a : State} (h : a.ph ≠ .idle) : KeepsCommand a (finalizeStart a) := by
  obtain ⟨kp, ph, n, ot, op, st, r, hph, e⟩ := finalizeStart_frame a
  rw [e]
  exact ⟨rfl, by rcases hph with rfl | rfl <;> simp [h]⟩

theorem finalizeEdge_keepsCommand {a : State} (h : a.ph ≠ .idle) : KeepsCommand a (finalizeEdge a) := by
  obtain ⟨kp, ph, n, zp, op, r, hph, e⟩ := finalizeEdge_frame a
  rw [e]
  exact ⟨rfl, by rcases hph with rfl | rfl | rfl <;> simp [h]⟩

theorem outputWord_keepsCommand (a : State) : KeepsCommand a (outputWord a) := by
  obtain ⟨kp, ks, z, zp, op, r, e⟩ := outputWord_frame a
  rw [e]
  exact ⟨rfl, by simp⟩

theorem continueCommand_keepsCommand {a : State} (h : a.ph ≠ .idle) : KeepsCommand a (continueCommand a) := by
  unfold continueCommand
  split
  · exact absorbEdge_keepsCommand h
  · cases a.level with
    | transaction => exact outputWord_keepsCommand a
    | cycle => exact finalizeEdge_keepsCommand h

theorem exec_keepsCommand {w : Word128} {a t : State} (h : exec (decodeCommand w) a = .next t) : KeepsCommand a t := by
  rcases exec_command_cases w a with ⟨e, -, -, -, hx⟩ | ⟨-, hx⟩
  · cases h.symm.trans hx
    exact ⟨rfl, by simp⟩
  · cases h.symm.trans hx
    obtain ⟨kp, sp, bf, bl, cv, fam, ra, su, xo, ol, z, ot, op, zp, ip, r, st, n, e⟩ := ruleOf_frame w a
    rw [e]
    exact ⟨rfl, by simp⟩

theorem takeKpResult_keepsCommand (a : State) : KeepsCommand a (takeKpResult a) := by
  unfold takeKpResult
  dsimp only
  split <;> exact ⟨rfl, by simp⟩

/-- What SF's work does to CMDR and PH: it accepts a command, transfers a response word, holds everything, or works on
the command it keeps. -/
theorem sfWork_command_cases {p : SfPins} {a t : State} (h : sfWork p a = .next t) :
    (a.ph = .idle ∧ t = acceptCommand p.cmdWord a) ∨ (a.ph = .rsp ∧ t = transferResponse a) ∨ t = a ∨
      KeepsCommand a t := by
  have busy {q : SfPhase} (hq : q ≠ .idle) (hp : a.ph = q) : a.ph ≠ .idle := hp ▸ hq
  rcases sfWork_next h with ⟨hp, -, rfl⟩ | rfl | ⟨hp, -, rfl⟩ | ⟨-, -, hx⟩ | ⟨hp, -, -, -, -, -, rfl⟩ |
    ⟨hp, -, -, -, -, rfl⟩ | ⟨hp, -, -, rfl⟩ | ⟨-, -, rfl⟩ | ⟨hp, -, rfl⟩
  · exact .inl ⟨hp, rfl⟩
  · exact .inr (.inr (.inl rfl))
  · exact .inr (.inr (.inr (continueCommand_keepsCommand (busy (by decide) hp))))
  · exact .inr (.inr (.inr (exec_keepsCommand hx)))
  · exact .inr (.inr (.inr (absorbEdge_keepsCommand (a := { a with ipos := 0, started := true })
      (busy (by decide) hp))))
  · exact .inr (.inr (.inr (finalizeStart_keepsCommand (busy (by decide) hp))))
  · exact .inr (.inr (.inr ⟨rfl, busy (by decide) hp⟩))
  · exact .inr (.inr (.inr (takeKpResult_keepsCommand a)))
  · exact .inr (.inl ⟨hp, rfl⟩)

/-- What a step that is no reset edge of SF does to CMDR and PH: it accepts a command, transfers a response word, leaves
both registers alone, or works on the command it keeps. -/
theorem step_command_cases {s t : State} (h : step s = .next t) (hr : ¬ResetEdge s) :
    (s.ph = .idle ∧ t.ph = .exec) ∨
    (s.ph = .rsp ∧ t.received = s.received ++ [s.rspr] ∧ t.ph = (if rspLast s.rspr then .idle else .exec) ∧
      t.cmdr = s.cmdr) ∨
    (t.cmdr = s.cmdr ∧ t.ph = s.ph) ∨ KeepsCommand s t := by
  rcases step_next_cases h with ⟨p, rest, hin, hrst, -⟩ | ⟨p, rest, -, -, -, hw⟩ | ⟨p, rest, k, taken, -, rfl, -⟩
  · exact absurd ⟨p, rest, hin, hrst⟩ hr
  · rcases sfWork_command_cases hw with ⟨hp, rfl⟩ | ⟨hp, rfl⟩ | rfl | hk
    · exact .inl ⟨hp, rfl⟩
    · obtain ⟨hrec, hph, -, hcmdr⟩ := transferResponse_spec (atEdge p rest s)
      exact .inr (.inl ⟨hp, hrec, hph, hcmdr⟩)
    · exact .inr (.inr (.inl ⟨rfl, rfl⟩))
    · exact .inr (.inr (.inr hk))
  · exact .inr (.inr (.inl ⟨rfl, rfl⟩))

/-! ### The command and the response handshake -/

theorem cmdReady_iff (s : State) : cmdReady false s = true ↔ s.ph = .idle := by
  simp [cmdReady]

theorem rspValid_iff (s : State) : rspValid false s = true ↔ s.ph = .rsp := by
  simp [rspValid]

theorem step_accepts {s : State} {p : SfPins} {rest : List Input} (hin : s.inputs = .sf p :: rest)
    (hrst : p.rst = false) (hph : s.ph = .idle) (hv : p.cmdValid = true) (h : Holds s.offer p) :
    step s = .next (acceptCommand p.cmdWord { s with inputs := rest, offer := none }) := by
  rw [step_of_sfEdgeNext (.inl hin) hrst h, sfWork_of_idle (a := atEdge p rest s) hph, if_pos hv, atEdge, offerAfter_of_idle hrst hph]

theorem step_idle_holds {s : State} {p : SfPins} {rest : List Input} (hin : SfEdgeNext s p rest)
    (hrst : p.rst = false) (hph : s.ph = .idle) (hv : p.cmdValid = false) (ho : s.offer = none) :
    step s = .next { s with inputs := rest } := by
  have hold : Holds s.offer p := fun w hw => by rw [ho] at hw; cases hw
  rw [step_of_sfEdgeNext hin hrst hold, sfWork_of_idle (a := atEdge p rest s) hph, hv, atEdge,
    offerAfter_of_idle hrst hph, ← ho]
  rfl

theorem step_rsp {s : State} {p : SfPins} {rest : List Input} (hin : SfEdgeNext s p rest) (hrst : p.rst = false)
    (hph : s.ph = .rsp) (h : Holds s.offer p) : step s =
      .next (if p.rspReady then transferResponse { s with inputs := rest, offer := raised p }
        else { s with inputs := rest, offer := raised p }) := by
  rw [step_of_sfEdgeNext hin hrst h, sfWork_of_rsp (a := atEdge p rest s) hph, atEdge,
    offerAfter_of_busy (by simp [hph])]

theorem run_succ_of_next {M : Host.Core} {s t : M.State} (n : Nat) (h : M.step s = .next t) :
    M.run (n + 1) s = M.run n t := by
  rw [Host.Core.run, h]

/-- Quiet edges in RSP only use up the agenda: by induction on their number. -/
theorem run_rsp_quiet (n : Nat) (s : State) (rest : List Input) (hph : s.ph = .rsp) (ho : s.offer = none)
    (hin : s.inputs = List.replicate n (.sf SfPins.quiet) ++ rest) : run n s = .next { s with inputs := rest } := by
  induction n generalizing s with
  | zero => rw [← show s.inputs = rest from hin]; rfl
  | succ n ih =>
    have hold : Holds s.offer SfPins.quiet := fun w hw => by rw [ho] at hw; cases hw
    have hstep : step s = .next { s with inputs := List.replicate n (.sf SfPins.quiet) ++ rest, offer := none } :=
      step_rsp (.inl hin) rfl hph hold
    calc run (n + 1) s
      _ = run n { s with inputs := List.replicate n (.sf SfPins.quiet) ++ rest, offer := none } :=
        run_succ_of_next (M := core) n hstep
      _ = .next { s with inputs := rest, offer := none } := ih _ hph rfl rfl
      _ = .next { s with inputs := rest } := by rw [← ho]

/-- Settles O47: the edge in IDLE by `cmd_valid`, and for every other step the cases of what it does to CMDR and PH. -/
theorem commandAcceptance : Obligations.CommandAcceptance := by
  unfold Obligations.CommandAcceptance
  refine ⟨cmdReady_iff, fun s p rest hin hrst hph hv ho => ?_, fun s p rest => step_idle_holds,
    fun s t hs hr hne => ?_, fun s t hs hr hbusy hidle => ?_⟩
  · exact step_accepts hin hrst hph hv fun w hw => ⟨hv, ho w hw⟩
  · rcases step_command_cases hs hr with haccept | ⟨-, -, -, hc⟩ | ⟨hc, -⟩ | ⟨hc, -⟩
    · exact haccept
    all_goals exact absurd hc hne
  · rcases step_command_cases hs hr with ⟨hp, -⟩ | ⟨hp, hrec, hph, -⟩ | ⟨-, hph⟩ | ⟨-, hph⟩
    · exact absurd hp hbusy
    · refine ⟨hp, ?_, hrec⟩
      by_contra hlast
      rw [if_neg hlast, hidle] at hph
      cases hph
    · exact absurd (hph.symm.trans hidle) hbusy
    · exact absurd hidle hph

/-- Settles O48: an edge in RSP by `rsp_ready`, and the quiet edges by induction on their number. -/
theorem responseHandshake : Obligations.ResponseHandshake := by
  unfold Obligations.ResponseHandshake
  refine ⟨fun s => ⟨rspValid_iff s, fun _ => rfl⟩, fun s p rest hin hrst hph hold => ?_, run_rsp_quiet⟩
  rw [step_rsp (.inl hin) hrst hph hold]
  refine ⟨fun hready => by rw [hready]; rfl, fun hready => ⟨_, by rw [if_pos hready], ?_⟩⟩
  obtain ⟨hrec, hnext, hsame, -⟩ := transferResponse_spec { s with inputs := rest, offer := raised p }
  exact ⟨hrec, hnext, hsame⟩

end Sys2Proof.Machine
end

section
/-! Proofs of the statements about errors and idle units (60_exceptions.md). -/

namespace Sys2Proof.Machine

open Sys2Proof.Claims

/-! ### The condition of each check (60_exceptions.md R146 to R148) -/

theorem firstError_of_illegal {op : Nibble} (c : Bool) (n : Nibble) (r x : Byte) (h : 0x6 ≤ op.toNat) :
    firstError c op n r x = some errIllegalOp := if_pos h

theorem needsConfig_iff (op n : Nibble) :
    needsConfig op n = true ↔ op = 0x2 ∨ op = 0x3 ∨ op = 0x4 ∨ (op = 0x5 ∧ n ≠ 0x2) := by
  simp [needsConfig, or_assoc]

/-- A family code is a preset, reserved or custom. -/
theorem familyCode_cases (fc : Nibble) :
    fc.toNat < 0xA ∨ (0xA ≤ fc.toNat ∧ fc.toNat ≤ 0xD) ∨ (fc = 0xE ∨ fc = 0xF) := by
  revert fc
  decide

/-- 60_exceptions.md R148: the codes and fields that ConfigLegal refuses. -/
theorem configLegal_eq_false_iff (fc : Nibble) (r x : Byte) : configLegal fc r x = false ↔
    (0xA ≤ fc.toNat ∧ fc.toNat ≤ 0xD) ∨ ((fc = 0xE ∨ fc = 0xF) ∧ (r = 0 ∨ 200 < r.toNat ∨ x = 0)) := by
  constructor
  · intro h
    rcases familyCode_cases fc with hpreset | hreserved | hcustom
    · rw [configLegal, if_pos hpreset] at h
      cases h
    · exact .inl hreserved
    · refine .inr ⟨hcustom, ?_⟩
      by_contra hgood
      obtain ⟨hr, hhigh, hx⟩ : r ≠ 0 ∧ ¬200 < r.toNat ∧ x ≠ 0 := by simpa only [not_or] using hgood
      have hlow : r.toNat ≠ 0 := fun hzero => hr (BitVec.eq_of_toNat_eq hzero)
      have hlegal := (configLegal_custom hcustom r x).2 ⟨by omega, by omega, hx⟩
      exact Bool.false_ne_true (h.symm.trans hlegal)
  · rintro (⟨hlow, hhigh⟩ | ⟨hcustom, hbad⟩)
    · rw [configLegal, if_neg (by omega), if_pos (by omega)]
    · exact configLegal_of_bad_custom hcustom hbad

theorem firstError_of_bad_config {op n : Nibble} {r x : Byte} (c : Bool) (hop : op = 0x1)
    (h : configLegal n r x = false) : firstError c op n r x = some errConfig := by
  rw [hop, firstError_config, h]
  rfl

theorem firstError_of_bad_count {c : Bool} {op n : Nibble} (r x : Byte)
    (hconfigured : ¬(c = false ∧ needsConfig op n = true)) (hop : op = 0x2) (hn : 8 < n.toNat) :
    firstError c op n r x = some errBadCount := by
  subst hop
  cases c with
  | false => exact absurd ⟨rfl, rfl⟩ hconfigured
  | true => rw [firstError_absorb, if_pos hn]

theorem firstError_of_bad_query {c : Bool} {op n : Nibble} (r x : Byte)
    (hconfigured : ¬(c = false ∧ needsConfig op n = true)) (hop : op = 0x5) (hn : 3 < n.toNat) :
    firstError c op n r x = some errBadQuery := by
  subst hop
  have hchecked : c = true ∨ n = 0x2 := by
    cases c with
    | false => exact .inr (by simpa [needsConfig] using hconfigured)
    | true => exact .inl rfl
  rw [firstError_query r x hchecked, if_pos hn]

/-- A word that passes each of the five checks. -/
theorem firstError_eq_none {c : Bool} {op n : Nibble} {r x : Byte} (hlegal : ¬0x6 ≤ op.toNat)
    (hconfigured : ¬(c = false ∧ needsConfig op n = true)) (hconfig : ¬(op = 0x1 ∧ configLegal n r x = false))
    (hcount : ¬(op = 0x2 ∧ 8 < n.toNat)) (hquery : ¬(op = 0x5 ∧ 3 < n.toNat)) : firstError c op n r x = none := by
  rw [firstError, if_neg hlegal, if_neg (by simpa using hconfigured), if_neg (by simpa using hconfig),
    if_neg (by simpa using hcount), if_neg (by simpa using hquery)]

/-! ### The outcome of a command word -/

/-- A word whose first failing check has status `e` answers that error and does nothing else (60_exceptions.md R143). -/
theorem exec_of_error {w : Word128} {s : State} {e : Nibble}
    (h : firstError s.cfgValid (cmdOp w) (cmdN w) (cmdRate w) (cmdSufx w) = some e) :
    exec (decodeCommand w) s = .next (answered (responseWord (cmdOp w) e 0 true 0 0) s) := by
  rw [exec_decodeCommand, checked_of_error _ h]

theorem exec_of_ok {w : Word128} {s : State}
    (h : firstError s.cfgValid (cmdOp w) (cmdN w) (cmdRate w) (cmdSufx w) = none) :
    exec (decodeCommand w) s = .next (ruleOf w s) := by
  rw [exec_decodeCommand, checked_of_ok _ h]

/-- A STATUS other than OK comes from a check that failed: every rule answers OK. -/
theorem exec_error_answer {w : Word128} {s t : State} (h : exec (decodeCommand w) s = .next t)
    (hstatus : rspStatus t.rspr ≠ 0x0) :
    t = answered (responseWord (cmdOp w) (rspStatus t.rspr) 0 true 0 0) s := by
  rcases exec_command_cases w s with ⟨e, -, -, -, herror⟩ | ⟨-, hok⟩
  · cases h.symm.trans herror
    rw [present, rspStatus_responseWord]
  · cases h.symm.trans hok
    exact absurd (ruleOf_head w s).1 hstatus

/-- Once the one word of an error is taken, SF is idle and its persistent state is the one before the command. -/
theorem step_taking_answered {s : State} {op status : Nibble} (rest : List Input) (ho : s.offer = none) :
    let r := responseWord op status 0 true 0 0
    ∃ u, step { answered r s with inputs := .sf SfPins.taking :: rest } = .next u ∧
      u.received = s.received ++ [r] ∧ cmdReady false u = true ∧ SamePersistent s u := by
  intro r
  have hold : Holds s.offer SfPins.taking := fun w hw => by rw [ho] at hw; cases hw
  have hstep := step_rsp (s := { answered r s with inputs := .sf SfPins.taking :: rest }) (.inl rfl) rfl rfl hold
  obtain ⟨hrec, hph, hsame, -⟩ :=
    transferResponse_spec { answered r s with inputs := rest, offer := raised SfPins.taking }
  have hlast : rspLast r = true := rspLast_responseWord ..
  exact ⟨_, hstep, hrec, (cmdReady_iff _).2 (hph.trans (if_pos hlast)), hsame⟩

/-! ### The statements -/

/-- Settles O35: each condition makes its check the first that fails, and without any of them the command's rule
answers OK. -/
theorem checkOrder : Obligations.CheckOrder := by
  unfold Obligations.CheckOrder
  intro w s op n illegal unconfigured badConfig badCount badQuery error
  have hunc : unconfigured ↔ s.cfgValid = false ∧ needsConfig op n = true :=
    and_congr_right fun _ => (needsConfig_iff op n).symm
  have hfields := configLegal_eq_false_iff n (cmdRate w) (cmdSufx w)
  refine ⟨fun hill => ?_, fun _ hcons => ?_, fun _ ⟨hop, hbad⟩ => ?_, fun hcfg ⟨hop, hn⟩ => ?_,
    fun hcfg ⟨hop, hn⟩ => ?_, fun hlegal hcfg hconfig hcount hquery => ?_⟩
  · exact exec_of_error (firstError_of_illegal _ _ _ _ hill)
  · obtain ⟨hs, hneeds⟩ := hunc.1 hcons
    exact exec_of_error (hs ▸ firstError_of_unconfigured _ _ hneeds)
  · exact exec_of_error (firstError_of_bad_config _ hop (hfields.2 hbad))
  · exact exec_of_error (firstError_of_bad_count _ _ (hunc.not.1 hcfg) hop hn)
  · exact exec_of_error (firstError_of_bad_query _ _ (hunc.not.1 hcfg) hop hn)
  · have hpass := firstError_eq_none hlegal (hunc.not.1 hcfg) (by rwa [hfields]) hcount hquery
    exact ⟨_, exec_of_ok hpass, ruleOf_head w s⟩

/-- Settles O36: the state of an error is the one before it with its word presented, and that word has LAST 1, so that
its transfer ends in IDLE. -/
theorem errorsArePrecise : Obligations.ErrorsArePrecise := by
  unfold Obligations.ErrorsArePrecise
  intro w s t hexec hstatus
  have hanswer := exec_error_answer hexec hstatus
  refine ⟨hanswer, fun rest ho => ?_⟩
  rw [hanswer]
  exact step_taking_answered rest ho

/-- Settles O55: in IDLE an edge of SF without a command, and one of the stand-alone KP without an input, hold. -/
theorem idleHolds : Obligations.IdleHolds := by
  unfold Obligations.IdleHolds
  refine ⟨fun s p rest hin hrst hv ho hph => step_idle_holds hin hrst hph hv ho, fun s p rest hin hrst hv hk => ?_⟩
  rw [step_kp hin, kpEdge_of_idle (s := { s with inputs := rest }) hrst hk, hv]
  rfl

end Sys2Proof.Machine
end

section
/-! Proofs of the statements about the legal states: reset is one, every step keeps them, and none of them faults. -/

namespace Sys2Proof.Machine

/-! ### Reset -/

/-- A hardware reset makes SF legal whatever was in progress; the stand-alone KP is another unit. -/
theorem inv_hardwareReset {s : State} (h : s.alone.Ok) : (hardwareReset s).Inv where
  kp := ok_idle zeroLanes
  alone := h
  config := ⟨rfl, rfl, rfl, rfl, rfl⟩
  staging := ⟨⟨rfl, rfl⟩, fun k _ => zeroBuffer_get k⟩
  output := by
    have hop : cmdOp (hardwareReset s).cmdr ≠ 0x3 := (by decide : cmdOp 0 ≠ 0x3)
    refine ⟨fun h => absurd h.1 hop, fun h => ?_⟩
    rcases h with h | h <;> exact absurd h.1 hop
  phase := by
    refine ⟨?_, fun h => ?_, fun h _ => ?_, fun h => ?_⟩
    · simp [hardwareReset, State.reset, Kp.reset]
    · cases h
    · rcases h with h | h <;> cases h
    · cases h

/-- Settles O57: the reset state is what a hardware reset makes of itself. -/
theorem resetIsLegal : Obligations.ResetIsLegal := by
  unfold Obligations.ResetIsLegal
  exact inv_hardwareReset (s := State.reset) (ok_idle zeroLanes)

/-! ### An edge of SF -/

/-- A legal state in EXEC or WAIT_KP whose command has begun is at work on an ABSORB or a FINALIZE. -/
theorem working_op {a : State} (h : a.Inv) (hp : a.ph = .exec ∨ a.ph = .waitKp) (hs : a.started = true) :
    cmdOp a.cmdr = 0x2 ∨ cmdOp a.cmdr = 0x3 := by
  obtain ⟨-, hop⟩ := h.phase.2.2.1 hp hs
  exact hop.imp And.left And.left

/-- A command that has not begun has no ABSORB at work. -/
theorem not_absorbing_of_not_started {a : State} (hs : a.started = false) : ¬a.Absorbing := by
  rintro ⟨-, hstarted, -⟩
  rw [hs] at hstarted
  cases hstarted

theorem inv_continueCommand {a : State} (h : a.Inv) (hp : a.ph = .exec) (hs : a.started = true) :
    (continueCommand a).Inv := by
  rcases working_op h (.inl hp) hs with hop | hop
  · rw [continueCommand, if_pos hop]
    exact inv_absorbEdge a h hp hs hop
  · rw [continueCommand, if_neg (by rw [hop]; decide)]
    cases hlevel : a.level with
    | transaction => exact inv_transOutput a h hlevel hp hs hop
    | cycle => exact inv_finalizeEdge a h hlevel hp hs hop

/-- The latched command's meaning: the answer of its error, or its rule. -/
theorem inv_exec {a t : State} (h : a.Inv) (hp : a.ph = .exec) (hs : a.started = false)
    (hexec : exec (decodeCommand a.cmdr) a = .next t) : t.Inv := by
  rcases exec_command_cases a.cmdr a with ⟨e, -, hle, -, herror⟩ | ⟨hpass, hok⟩
  · cases hexec.symm.trans herror
    exact inv_present a h (not_absorbing_of_not_started hs) (idle_of_exec a h hp) _ (legal_simple _ _ hle _ _)
      (rspLast_responseWord ..) (rspOp_responseWord ..)
  · cases hexec.symm.trans hok
    exact inv_rule a.cmdr a h rfl hp hs hpass

/-- Whatever SF does at an edge without reset keeps a state legal: one lemma for each kind of work. -/
theorem inv_sfWork {p : SfPins} {a t : State} (h : a.Inv) (hwork : sfWork p a = .next t) : t.Inv := by
  rcases sfWork_next hwork with ⟨hp, -, rfl⟩ | rfl | ⟨hp, hs, rfl⟩ | ⟨hp, hs, hexec⟩ | ⟨hp, hs, -, hv, hop, hn, rfl⟩ |
    ⟨hp, hs, -, hv, hop, rfl⟩ | ⟨hp, -, -, rfl⟩ | ⟨hp, hdone, rfl⟩ | ⟨hp, -, rfl⟩
  · exact inv_accept a h hp _
  · exact h
  · exact inv_continueCommand h hp hs
  · exact inv_exec h hp hs hexec
  · exact inv_absorbEdge { a with ipos := 0, started := true } (inv_beginAbsorb a h hp hs hop hv hn) hp rfl hop
  · exact inv_finalizeStart a h hp hs hop hv
  · exact inv_kpround _ a h hp
  · exact inv_take a h hp hdone
  · exact inv_transfer a h hp

/-! ### An edge of the stand-alone KP -/

/-- SF's legality does not depend on the stand-alone KP, nor on the agenda and the record of its results. -/
theorem inv_of_alone {s : State} (h : s.Inv) {k : Kp} (hk : k.Ok) (rest : List Input) (taken : List Bus) :
    ({ s with inputs := rest, alone := k, kpTaken := taken } : State).Inv :=
  ⟨h.kp, hk, h.config, h.staging, h.output, h.phase⟩

/-- Settles O58: by the three kinds of step, a reset edge, other work of SF, and an edge of the stand-alone KP. -/
theorem stepsKeepTheInvariant : Obligations.StepsKeepTheInvariant := by
  unfold Obligations.StepsKeepTheInvariant
  intro s t h hstep
  rcases step_next_cases hstep with ⟨p, rest, -, -, rfl⟩ | ⟨p, rest, -, -, -, hwork⟩ | ⟨p, rest, k, taken, -, rfl, hk⟩
  · have hreset : (hardwareReset { s with inputs := rest }).Inv := inv_hardwareReset h.alone
    exact inv_atEdge _ hreset rest (offerAfter p s)
  · exact inv_sfWork (inv_atEdge s h rest (offerAfter p s)) hwork
  · refine inv_of_alone h ?_ rest taken
    rcases hk with rfl | ⟨A, rfl⟩ | rfl | ⟨hrun, -, rfl⟩ | ⟨hdone, rfl⟩
    · exact ok_idle zeroLanes
    · exact ok_load A
    · exact h.alone
    · exact (ok_rounds p.rounds s.alone h.alone (by rw [hrun]; decide)).1
    · exact ok_take s.alone h.alone hdone

/-! ### No fault -/

/-- Every command word answers a next state. -/
theorem exec_command_next (w : Word128) (s : State) : ∃ t, exec (decodeCommand w) s = .next t := by
  rcases exec_command_cases w s with ⟨_, -, -, -, herror⟩ | ⟨-, hok⟩
  · exact ⟨_, herror⟩
  · exact ⟨_, hok⟩

/-- SF's work stops only when its KP is in RUN with KRND past the last round, and then with the fault. -/
theorem sfWork_next_or_fault (p : SfPins) (a : State) :
    (∃ t, sfWork p a = .next t) ∨ (24 ≤ a.kp.krnd.toNat ∧ sfWork p a = .fault .krndOutOfRange) := by
  rcases sfWork_cases p a with ⟨-, -, e⟩ | e | ⟨-, -, e⟩ | ⟨-, -, e⟩ | ⟨-, e⟩ | ⟨-, -, e⟩
  · exact .inl ⟨_, e⟩
  · exact .inl ⟨_, e⟩
  · exact .inl ⟨_, e⟩
  · rw [e]
    rcases beginCommand_cases a with e | ⟨-, -, -, -, e⟩ | ⟨-, -, -, e⟩
    · rw [e]
      exact .inl (exec_command_next _ _)
    · exact .inl ⟨_, e⟩
    · exact .inl ⟨_, e⟩
  · rw [e]
    rcases waitEdge_cases p.rounds a with e | ⟨-, -, e⟩ | ⟨-, hkrnd, e⟩ | ⟨-, e⟩
    · exact .inl ⟨_, e⟩
    · exact .inl ⟨_, e⟩
    · exact .inr ⟨hkrnd, e⟩
    · exact .inl ⟨_, e⟩
  · exact .inl ⟨_, e⟩

/-- Settles O59: an edge of either unit faults only with KRND past 23, which no legal KP holds. -/
theorem legalStatesDoNotFault : Obligations.LegalStatesDoNotFault := by
  unfold Obligations.LegalStatesDoNotFault
  intro s r h hfault
  have hkp : s.kp.krnd.toNat < 24 := h.kp.1
  have halone : s.alone.krnd.toNat < 24 := h.alone.1
  rcases step_edge s with ⟨p, rest, -, e⟩ | ⟨p, rest, -, e⟩ <;> rw [e] at hfault
  · split_ifs at hfault
    rcases sfWork_next_or_fault p (atEdge p rest s) with ⟨t, e⟩ | ⟨hkrnd, -⟩
    · cases e.symm.trans hfault
    · exact absurd hkp (Nat.not_lt.2 hkrnd)
  · rcases kpEdge_cases p { s with inputs := rest } with ⟨k, taken, e, -⟩ | ⟨-, hkrnd, -⟩
    · cases e.symm.trans hfault
    · exact absurd halone (Nat.not_lt.2 hkrnd)

end Sys2Proof.Machine
end

section
/-! Proofs of the statements about decoding, encoding and the assembler (30_encoding.md). -/

namespace Sys2Proof.Machine

open Sys2Proof.Claims

/-! ### Decoding what was encoded -/

theorem decode_encode_eq (i : Instr) : decode (encode i) = .ok (decodePacket (encodePacket i)) := by
  rw [decode, encode, packetOfBytes_packetBytes]

/-- A packet encodes each operand in its field and 0 elsewhere, so that the decoder of its OP reads it back; an ABSORB
is read back when it holds no byte that the decoder drops. -/
theorem decodePacket_encodePacket {i : Instr} (h : i.wellFormed = true) : decodePacket (encodePacket i) = i := by
  cases i
  case absorb1 | absorb2 | absorb3 | absorb4 | absorb5 | absorb6 | absorb7 | absorb8 =>
    rw [encodePacket, decodePacket, decodeCommand_absorb (cmdOp_commandWord ..), decodeAbsorb, cmdN_commandWord]
    simpa using keepBytes_of_fits h
  case configShake128 | configShake256 | configCustomFixed | configCustomXof =>
    rw [encodePacket, decodePacket, decodeCommand_config (cmdOp_commandWord ..), decodeConfig, cmdN_commandWord]
    simp
  case finalizeLen =>
    rw [encodePacket, decodePacket, decodeCommand_finalize (cmdOp_commandWord ..), decodeFinalize, cmdN_commandWord]
    simp
  all_goals rfl

/-- Settles O1: the bytes hold the packet, and the packet is read field by field. -/
theorem decodeOfEncodeGivesTheInstruction : Obligations.DecodeOfEncodeGivesTheInstruction := by
  unfold Obligations.DecodeOfEncodeGivesTheInstruction
  intro i h
  rw [decode_encode_eq, decodePacket_encodePacket h]

/-! ### Encoding what was decoded -/

/-- OP is a legal opcode or an illegal one. -/
theorem cmdOp_cases (w : Word128) : cmdOp w = 0x0 ∨ cmdOp w = 0x1 ∨ cmdOp w = 0x2 ∨ cmdOp w = 0x3 ∨ cmdOp w = 0x4 ∨
    cmdOp w = 0x5 ∨ 0x6 ≤ (cmdOp w).toNat := by
  generalize cmdOp w = op
  revert op
  decide

theorem decodeCommand_nop {w : Word128} (h : cmdOp w = 0x0) : decodeCommand w = .nop := by
  rw [decodeCommand, h]; rfl

theorem decodeCommand_reset {w : Word128} (h : cmdOp w = 0x4) : decodeCommand w = .reset := by
  rw [decodeCommand, h]; rfl

/-- The row of each illegal opcode is well-formed, and encoded with that OP. -/
theorem illegalRow_encoding {q : Instr × Nibble} (h : q ∈ illegalRows) :
    q.1.wellFormed = true ∧ encodePacket q.1 = .command (commandWord q.2 0 0 0 0 0) := by
  fin_cases h <;> exact ⟨rfl, rfl⟩

theorem decodeCommand_wellFormed (w : Word128) : (decodeCommand w).wellFormed = true := by
  rcases cmdOp_cases w with h | h | h | h | h | h | h
  · rw [decodeCommand_nop h]; rfl
  · rw [decodeCommand_config h]
    unfold decodeConfig
    split <;> rfl
  · rw [decodeCommand_absorb h]
    unfold decodeAbsorb
    split
    case h_2 | h_3 | h_4 | h_5 | h_6 | h_7 | h_8 | h_9 => exact keepBytes_fits _ _
    all_goals rfl
  · rw [decodeCommand_finalize h]
    unfold decodeFinalize
    split <;> rfl
  · rw [decodeCommand_reset h]; rfl
  · rw [decodeCommand_query h]
    unfold decodeQuery
    split <;> rfl
  · exact (illegalRow_encoding (decodeCommand_illegal h)).1

/-- A decoded word is encoded again with its own OP (30_encoding.md R74, R76). -/
theorem encodePacket_decodeCommand (w : Word128) : ∃ n rate sufx len data,
    encodePacket (decodeCommand w) = .command (commandWord (cmdOp w) n rate sufx len data) := by
  rcases cmdOp_cases w with h | h | h | h | h | h | h
  · rw [decodeCommand_nop h, h]
    exact ⟨_, _, _, _, _, rfl⟩
  · rw [decodeCommand_config h, h]
    unfold decodeConfig
    split <;> exact ⟨_, _, _, _, _, rfl⟩
  · rw [decodeCommand_absorb h, h]
    unfold decodeAbsorb
    split <;> exact ⟨_, _, _, _, _, rfl⟩
  · rw [decodeCommand_finalize h, h]
    unfold decodeFinalize
    split <;> exact ⟨_, _, _, _, _, rfl⟩
  · rw [decodeCommand_reset h, h]
    exact ⟨_, _, _, _, _, rfl⟩
  · rw [decodeCommand_query h, h]
    unfold decodeQuery
    split <;> exact ⟨_, _, _, _, _, rfl⟩
  · exact ⟨_, _, _, _, _, (illegalRow_encoding (decodeCommand_illegal h)).2⟩

theorem decode_ok_iff (bs : List Byte) : (∃ i, decode bs = .ok i) ↔ bs.length = 16 ∨ bs.length = 200 := by
  unfold decode packetOfBytes
  by_cases h16 : bs.length = 16
  · simp [h16]
  · by_cases h200 : bs.length = 200
    · simp [h200]
    · simp [h16, h200]

/-- Settles O2: by OP, the decoder gives a well-formed instruction, encoded with that OP and RSVD 0, and an encoded
well-formed instruction is read back. -/
theorem decodingIsTotalAndCanonical : Obligations.DecodingIsTotalAndCanonical := by
  unfold Obligations.DecodingIsTotalAndCanonical
  refine ⟨fun w => ⟨decodeCommand_wellFormed w, ?_⟩, decode_ok_iff⟩
  obtain ⟨n, rate, sufx, len, data, henc⟩ := encodePacket_decodeCommand w
  have hback := decodePacket_encodePacket (decodeCommand_wellFormed w)
  rw [henc] at hback
  exact ⟨_, henc, cmdOp_commandWord .., cmdRsvd_commandWord .., hback⟩

/-- Settles O4: the decoder evaluated on each word. -/
theorem specWordsDecode : Obligations.SpecWordsDecode := by
  unfold Obligations.SpecWordsDecode
  decide

/-- Settles O5: the named fields of a response word are these bits. -/
theorem responseFieldsStandAtTheirBits : Obligations.ResponseFieldsStandAtTheirBits := by
  unfold Obligations.ResponseFieldsStandAtTheirBits
  intro op status nb last value data r
  exact ⟨rspOp_responseWord .., rspStatus_responseWord .., rspNb_responseWord .., rspLast_responseWord ..,
    rspRsvd_responseWord .., rspValue_responseWord .., rspData_responseWord ..⟩

/-! ### A value in a field of an assembler line (30_encoding.md R76) -/

theorem asmField_eq_none_iff {w v : Nat} : asmField w v = none ↔ 2 ^ w ≤ v := by
  simp [asmField]

theorem asmField_eq_some_iff {w v : Nat} {b : BitVec w} : asmField w v = some b ↔ b.toNat = v := by
  unfold asmField
  constructor
  · intro h
    split at h
    · next hlt =>
      cases h
      exact Nat.mod_eq_of_lt hlt
    · cases h
  · rintro rfl
    simp [b.isLt]

@[simp] theorem asmField_zero (w : Nat) : asmField w 0 = some 0 :=
  asmField_eq_some_iff.2 (by simp)

@[simp] theorem asmField_toNat {w : Nat} (b : BitVec w) : asmField w b.toNat = some b :=
  asmField_eq_some_iff.2 rfl

theorem asmBytes_eq_none_iff (bs : List Nat) : asmBytes bs = none ↔ ∃ b ∈ bs, 256 ≤ b := by
  induction bs with
  | nil => simp [asmBytes]
  | cons b bs ih =>
    have hb : asmField 8 b = none ↔ 256 ≤ b := asmField_eq_none_iff
    rw [List.exists_mem_cons_iff, ← hb, ← ih, asmBytes]
    cases asmField 8 b <;> cases asmBytes bs <;> simp

theorem asmBytes_eq_some {bs : List Nat} {cs : List Byte} (h : asmBytes bs = some cs) : cs.map BitVec.toNat = bs := by
  induction bs generalizing cs with
  | nil => cases h; rfl
  | cons b bs ih =>
    rw [asmBytes] at h
    split at h
    · next c cs' hc hcs =>
      cases h
      rw [List.map_cons, ih hcs, asmField_eq_some_iff.1 hc]
    · cases h

theorem asmConfig_eq_none_iff (fc rate suffix len : Nat) :
    asmConfig fc rate suffix len = none ↔ 256 ≤ rate ∨ 256 ≤ suffix ∨ 2 ^ 32 ≤ len := by
  have hr : asmField 8 rate = none ↔ 256 ≤ rate := asmField_eq_none_iff
  have hs : asmField 8 suffix = none ↔ 256 ≤ suffix := asmField_eq_none_iff
  rw [← hr, ← hs, ← asmField_eq_none_iff, asmConfig]
  cases asmField 8 rate <;> cases asmField 8 suffix <;> cases asmField 32 len <;> simp

/-- The word of a CONFIG line without an error: each number is in its field. -/
theorem asmConfig_eq_some {fc rate suffix len : Nat} {w : Word128} (h : asmConfig fc rate suffix len = some w) :
    ∃ (r s : Byte) (l : Word32), r.toNat = rate ∧ s.toNat = suffix ∧ l.toNat = len ∧
      w = commandWord 0x1 (BitVec.ofNat 4 fc) r s l 0 := by
  rw [asmConfig] at h
  split at h
  · next r s l hr hs hl =>
    cases h
    exact ⟨r, s, l, asmField_eq_some_iff.1 hr, asmField_eq_some_iff.1 hs, asmField_eq_some_iff.1 hl, rfl⟩
  · cases h

theorem asmAbsorb_eq_none_iff (n data : Nat) : asmAbsorb n data = none ↔ 16 ≤ n ∨ 2 ^ 64 ≤ data := by
  have hn : asmField 4 n = none ↔ 16 ≤ n := asmField_eq_none_iff
  rw [← hn, ← asmField_eq_none_iff, asmAbsorb]
  cases asmField 4 n <;> cases asmField 64 data <;> simp

theorem asmAbsorb_eq_some {n data : Nat} {w : Word128} (h : asmAbsorb n data = some w) :
    ∃ (m : Nibble) (d : Lane), m.toNat = n ∧ d.toNat = data ∧ w = commandWord 0x2 m 0 0 0 d := by
  rw [asmAbsorb] at h
  split at h
  · next m d hm hd =>
    cases h
    exact ⟨m, d, asmField_eq_some_iff.1 hm, asmField_eq_some_iff.1 hd, rfl⟩
  · cases h

/-- The line `ABSORB [b0, ..., b(n-1)]` of bytes that fit is the ABSORB word of the chunk. -/
theorem assemble_absorbList {bs : List Nat} {cs : List Byte} (h : asmBytes bs = some cs) (hlen : cs.length ≤ 8) :
    assemble (.absorbList bs) = some (absorbWord cs) := by
  have hn : asmField 4 cs.length = some (BitVec.ofNat 4 cs.length) := if_pos (by omega)
  simp [assemble, h, hlen, asmAbsorb, hn, absorbWord]

theorem assemble_absorbList_eq_none_iff (bs : List Nat) :
    assemble (.absorbList bs) = none ↔ (∃ b ∈ bs, 256 ≤ b) ∨ 8 < bs.length := by
  rw [← asmBytes_eq_none_iff]
  cases h : asmBytes bs with
  | none => simp [assemble, h]
  | some cs =>
    have hlen : bs.length = cs.length := by rw [← asmBytes_eq_some h, List.length_map]
    rw [hlen]
    by_cases h8 : cs.length ≤ 8
    · simp [assemble_absorbList h h8, h8]
    · simp [assemble, h, h8, Nat.lt_of_not_le h8]

theorem assemble_absorbList_eq_some {bs : List Nat} {w : Word128} (h : assemble (.absorbList bs) = some w) :
    ∃ cs : List Byte, cs.map BitVec.toNat = bs ∧ cs.length ≤ 8 ∧ w = absorbWord cs := by
  have hfits : ¬((∃ b ∈ bs, 256 ≤ b) ∨ 8 < bs.length) := by
    rw [← assemble_absorbList_eq_none_iff, h]
    simp
  obtain ⟨hbytes, hlen⟩ := not_or.1 hfits
  rw [← asmBytes_eq_none_iff] at hbytes
  obtain ⟨cs, hcs⟩ := Option.ne_none_iff_exists'.1 hbytes
  have hmap := asmBytes_eq_some hcs
  have hle : cs.length ≤ 8 := by
    rw [← hmap, List.length_map] at hlen
    omega
  rw [assemble_absorbList hcs hle] at h
  exact ⟨cs, hmap, hle, (Option.some.inj h).symm⟩

/-! ### The fields a line leaves 0 -/

theorem commandWord_rate_to_rsvd (op n : Nibble) (len : Word32) (data : Lane) :
    (commandWord op n 0 0 len data).extractLsb' 8 24 = 0 := by
  ext i hi
  rw [BitVec.getElem_extractLsb', commandWord_getLsbD]
  grind

theorem commandWord_rate_to_len (op n : Nibble) (data : Lane) :
    (commandWord op n 0 0 0 data).extractLsb' 8 56 = 0 := by
  ext i hi
  rw [BitVec.getElem_extractLsb', commandWord_getLsbD]
  grind

theorem commandWord_rate_to_data (op n : Nibble) : (commandWord op n 0 0 0 0).extractLsb' 8 120 = 0 := by
  ext i hi
  rw [BitVec.getElem_extractLsb', commandWord_getLsbD]
  grind

/-! ### The lines -/

theorem configLine_fields (fc r x len : Nat) : (asmConfig fc r x len = none ↔ 256 ≤ r ∨ 256 ≤ x ∨ 2 ^ 32 ≤ len) ∧
    ∀ w, asmConfig fc r x len = some w → cmdOp w = 0x1 ∧ cmdN w = BitVec.ofNat 4 fc ∧ (cmdRate w).toNat = r ∧
      (cmdSufx w).toNat = x ∧ cmdRsvd w = 0 ∧ (cmdLen w).toNat = len ∧ cmdData w = 0 := by
  refine ⟨asmConfig_eq_none_iff fc r x len, fun w h => ?_⟩
  obtain ⟨rate, suffix, l, rfl, rfl, rfl, rfl⟩ := asmConfig_eq_some h
  simp

theorem assemble_preset (fc : Fin 10) :
    assemble (.configPreset fc none) = some (commandWord 0x1 (BitVec.ofNat 4 fc.val) 0 0 0 0) := by
  simp [assemble, asmConfig]

/-- A code below 10 fits the field N. -/
theorem presetCode_toNat (fc : Fin 10) : (BitVec.ofNat 4 fc.val).toNat = fc.val :=
  Nat.mod_eq_of_lt (by omega)

theorem presetLine_fields (fc : Fin 10) (len : Nat) (h8 : 8 ≤ fc.val) :
    (assemble (.configPreset fc (some len)) = none ↔ 2 ^ 32 ≤ len) ∧
    ∀ w, assemble (.configPreset fc (some len)) = some w → cmdOp w = 0x1 ∧ (cmdN w).toNat = fc.val ∧
      (cmdLen w).toNat = len ∧ w.extractLsb' 8 24 = 0 ∧ cmdData w = 0 := by
  have hline : assemble (.configPreset fc (some len)) = asmConfig fc.val 0 0 len := if_pos h8
  rw [hline]
  refine ⟨by simp [asmConfig_eq_none_iff], fun w h => ?_⟩
  obtain ⟨r, s, l, hr, hs, rfl, rfl⟩ := asmConfig_eq_some h
  obtain rfl : r = 0 := BitVec.eq_of_toNat_eq hr
  obtain rfl : s = 0 := BitVec.eq_of_toNat_eq hs
  simp only [cmdOp_commandWord, cmdN_commandWord, cmdLen_commandWord, cmdData_commandWord, commandWord_rate_to_rsvd,
    presetCode_toNat, and_self]

theorem absorbLine_fields (n data : Nat) : (assemble (.absorb n data) = none ↔ 16 ≤ n ∨ 2 ^ 64 ≤ data) ∧
    ∀ w, assemble (.absorb n data) = some w → cmdOp w = 0x2 ∧ (cmdN w).toNat = n ∧ (cmdData w).toNat = data ∧
      w.extractLsb' 8 56 = 0 := by
  refine ⟨asmAbsorb_eq_none_iff n data, fun w h => ?_⟩
  obtain ⟨m, d, rfl, rfl, rfl⟩ := asmAbsorb_eq_some h
  exact ⟨cmdOp_commandWord .., congrArg _ (cmdN_commandWord ..), congrArg _ (cmdData_commandWord ..),
    commandWord_rate_to_len ..⟩

theorem absorbListLine_fields (bs : List Nat) :
    (assemble (.absorbList bs) = none ↔ (∃ b ∈ bs, 256 ≤ b) ∨ 8 < bs.length) ∧
    ∀ w, assemble (.absorbList bs) = some w → cmdOp w = 0x2 ∧ (cmdN w).toNat = bs.length ∧ w.extractLsb' 8 56 = 0 ∧
      ∀ j, j < 8 → (dataByte (cmdData w) j).toNat = bs.getD j 0 := by
  refine ⟨assemble_absorbList_eq_none_iff bs, fun w h => ?_⟩
  obtain ⟨cs, rfl, hlen, rfl⟩ := assemble_absorbList_eq_some h
  have hn : (BitVec.ofNat 4 cs.length).toNat = cs.length := Nat.mod_eq_of_lt (by omega)
  refine ⟨cmdOp_commandWord .., ?_, commandWord_rate_to_len .., fun j hj => ?_⟩
  · rw [absorbWord, cmdN_commandWord, hn, List.length_map]
  · rw [absorbWord, cmdData_commandWord, dataByte_packBytes cs hj]
    exact (List.getD_map cs (0 : Byte) BitVec.toNat).symm

theorem finalizeLine_fields (len : Nat) : (assemble (.finalize (some len)) = none ↔ 2 ^ 32 ≤ len) ∧
    ∀ w, assemble (.finalize (some len)) = some w → cmdOp w = 0x3 ∧ cmdN w = 0x1 ∧ (cmdLen w).toNat = len ∧
      w.extractLsb' 8 24 = 0 ∧ cmdData w = 0 := by
  have hline : assemble (.finalize (some len)) = (asmField 32 len).map fun l => commandWord 0x3 1 0 0 l 0 := rfl
  rw [hline, Option.map_eq_none_iff, asmField_eq_none_iff]
  refine ⟨Iff.rfl, fun w h => ?_⟩
  obtain ⟨l, hl, rfl⟩ := Option.map_eq_some_iff.1 h
  exact ⟨cmdOp_commandWord .., cmdN_commandWord .., (congrArg _ (cmdLen_commandWord ..)).trans (asmField_eq_some_iff.1 hl),
    commandWord_rate_to_rsvd .., cmdData_commandWord ..⟩

/-- Settles O45: line by line; the lines without a number are read off `assemble`. -/
theorem assemblerLinesSetTheirFields : Obligations.AssemblerLinesSetTheirFields := by
  unfold Obligations.AssemblerLinesSetTheirFields
  refine ⟨fun r x len l fc hl => ?_, fun fc => ⟨_, assemble_preset fc, cmdOp_commandWord .., ?_,
    commandWord_rate_to_data ..⟩, presetLine_fields, absorbLine_fields, absorbListLine_fields, finalizeLine_fields,
    rfl, fun r x => rfl, rfl, rfl, by decide, fun v => rfl⟩
  · simp only [List.mem_cons, Prod.mk.injEq, List.not_mem_nil, or_false] at hl
    rcases hl with ⟨rfl, rfl⟩ | ⟨rfl, rfl⟩
    · exact configLine_fields 0xE r x len
    · exact configLine_fields 0xF r x len
  · rw [cmdN_commandWord, presetCode_toNat]

end Sys2Proof.Machine
end

section
/-! Proofs of the statements about the bijectivity of the permutation and about its tables (40_permutation.md). -/

namespace Sys2Proof.Machine

/-! ### Lanes are finitely many, and given by their bits -/

/-- Finiteness turns injectivity into bijectivity. -/
theorem finite_lanes : Finite Lanes := by
  refine Finite.of_injective (fun (A : Lanes) (i : Fin 25) => A[i].toFin) fun A B h => ?_
  ext i hi : 1
  exact BitVec.toFin_inj.1 (congrFun h ⟨i, hi⟩)

theorem bijective_of_injective {f : Lanes → Lanes} (h : Function.Injective f) : Function.Bijective f :=
  have := finite_lanes
  Finite.injective_iff_bijective.1 h

/-- Bit (x, y, z), coordinates taken mod 5, 5 and 64. -/
def bitAt (A : Lanes) (x y z : Nat) : Bool := (laneAt A x y).getLsbD (z % 64)

theorem bitAt_congr (A : Lanes) {x x' y y' z z' : Nat} (hx : x % 5 = x' % 5) (hy : y % 5 = y' % 5)
    (hz : z % 64 = z' % 64) : bitAt A x y z = bitAt A x' y' z' := by
  rw [bitAt, bitAt, laneAt_congr A hx hy, hz]

theorem lanes_ext {A B : Lanes} (h : ∀ x y, x < 5 → y < 5 → laneAt A x y = laneAt B x y) : A = B := by
  ext i hi : 1
  have hrow : i / 5 < 5 := by omega
  have hindex : i % 5 % 5 + 5 * (i / 5 % 5) = i := by omega
  have hlane := h (i % 5) (i / 5) (Nat.mod_lt _ (by decide)) hrow
  simpa only [laneAt, hindex] using hlane

theorem lanes_ext_bitAt {A B : Lanes} (h : ∀ x y z, x < 5 → y < 5 → bitAt A x y z = bitAt B x y z) : A = B := by
  refine lanes_ext fun x y hx hy => ?_
  ext z hz
  have hbit := h x y z hx hy
  rwa [bitAt, bitAt, Nat.mod_eq_of_lt hz, BitVec.getLsbD_eq_getElem hz, BitVec.getLsbD_eq_getElem hz] at hbit

/-- A rotation by n moves bit z to bit z + n. -/
theorem getLsbD_rotateLeft_add (v : Lane) (n z : Nat) :
    (v.rotateLeft n).getLsbD ((z + n) % 64) = v.getLsbD (z % 64) := by
  rw [BitVec.getLsbD_rotateLeft, Bool.cond_decide]
  split
  · have hindex : 64 - n % 64 + (z + n) % 64 = z % 64 := by omega
    rw [hindex]
  · have hlt : (z + n) % 64 < 64 := Nat.mod_lt _ (by decide)
    have hindex : (z + n) % 64 - n % 64 = z % 64 := by omega
    rw [hindex, decide_eq_true hlt, Bool.true_and]

theorem rotateLeft_injective (n : Nat) : Function.Injective fun v : Lane => v.rotateLeft n := by
  intro v w h
  ext z hz
  have hbit := congrArg (fun u : Lane => u.getLsbD ((z + n) % 64)) h
  simp only [getLsbD_rotateLeft_add, Nat.mod_eq_of_lt hz] at hbit
  rwa [BitVec.getLsbD_eq_getElem hz, BitVec.getLsbD_eq_getElem hz] at hbit

/-! ### Theta -/

/-- The parity of column x at bit z. -/
def parityBit (A : Lanes) (x z : Nat) : Bool := (columnParity A x).getLsbD (z % 64)

theorem parityBit_eq (A : Lanes) (x z : Nat) : parityBit A x z =
    (bitAt A x 0 z ^^ bitAt A x 1 z ^^ bitAt A x 2 z ^^ bitAt A x 3 z ^^ bitAt A x 4 z) := by
  simp only [parityBit, columnParity, bitAt, BitVec.getLsbD_xor]

theorem parityBit_congr (A : Lanes) {x x' z z' : Nat} (hx : x % 5 = x' % 5) (hz : z % 64 = z' % 64) :
    parityBit A x z = parityBit A x' z' := by
  simp only [parityBit_eq, bitAt_congr A hx rfl hz]

theorem bitAt_theta (A : Lanes) {x y : Nat} (z : Nat) (hx : x < 5) (hy : y < 5) :
    bitAt (theta A) x y z = (bitAt A x y z ^^ (parityBit A (x + 4) z ^^ parityBit A (x + 1) (z + 63))) := by
  have hz : z % 64 = (z + 63 + 1) % 64 := by omega
  rw [bitAt, laneAt_theta A hx hy, BitVec.getLsbD_xor, BitVec.getLsbD_xor]
  congr 2
  rw [hz]
  exact getLsbD_rotateLeft_add _ 1 (z + 63)

/-- A ring of five bits, each the sum of its two neighbours, is 0. -/
theorem ring_zero : ∀ c₀ c₁ c₂ c₃ c₄ : Bool, c₀ = (c₁ ^^ c₄) → c₁ = (c₂ ^^ c₀) → c₂ = (c₃ ^^ c₁) → c₃ = (c₄ ^^ c₂) →
    c₄ = (c₀ ^^ c₃) → c₀ = false := by
  decide

/-- The kernel of theta's map on column parities. With X and Z the shifts of the coordinates x and z, it holds the c
with c = (X⁴ + XZ⁶³)c. Over the bits squaring is linear, so that c = (X^(4m) + X^m Z^(63m))c for each power m of 2; at
m = 64 the shift of z is the whole circle, and the sum of the two neighbours on the ring of columns is left. -/
theorem parity_kernel {c : Nat → Nat → Bool}
    (hper : ∀ x x' z z', x % 5 = x' % 5 → z % 64 = z' % 64 → c x z = c x' z')
    (h : ∀ x z, c x z = (c (x + 4) z ^^ c (x + 1) (z + 63))) (x z : Nat) : c x z = false := by
  have hpow (k : Nat) : ∀ x z, c x z = (c (x + 4 * 2 ^ k) z ^^ c (x + 2 ^ k) (z + 63 * 2 ^ k)) := by
    induction k with
    | zero => exact h
    | succ k ih =>
      intro x z
      have hmeet : x + 4 * 2 ^ k + 2 ^ k = x + 2 ^ k + 4 * 2 ^ k := by omega
      have hx4 : x + 4 * 2 ^ k + 4 * 2 ^ k = x + 4 * 2 ^ (k + 1) := by omega
      have hx1 : x + 2 ^ k + 2 ^ k = x + 2 ^ (k + 1) := by omega
      have hz : z + 63 * 2 ^ k + 63 * 2 ^ k = z + 63 * 2 ^ (k + 1) := by omega
      rw [ih x z, ih (x + 4 * 2 ^ k) z, ih (x + 2 ^ k) (z + 63 * 2 ^ k), hmeet, Bool.xor_assoc,
        ← Bool.xor_assoc (c (x + 2 ^ k + 4 * 2 ^ k) _), Bool.xor_self, Bool.false_xor, hx4, hx1, hz]
  have hring (x' : Nat) : c x' z = (c (x' + 1) z ^^ c (x' + 4) z) := by
    rw [hpow 6 x' z, hper (x' + 4 * 2 ^ 6) (x' + 1) z z (by omega) rfl,
      hper (x' + 2 ^ 6) (x' + 4) (z + 63 * 2 ^ 6) z (by omega) (by omega)]
  have hcolumn {i j : Nat} (hij : (x + i) % 5 = (x + j) % 5) : c (x + i) z = c (x + j) z := hper _ _ _ _ hij rfl
  refine ring_zero _ (c (x + 1) z) (c (x + 2) z) (c (x + 3) z) (c (x + 4) z) (hring x) ?_ ?_ ?_ ?_
  · rw [hring (x + 1)]; exact congrArg _ (hcolumn (i := 5) (j := 0) (by omega))
  · rw [hring (x + 2)]; exact congrArg _ (hcolumn (i := 6) (j := 1) (by omega))
  · rw [hring (x + 3)]; exact congrArg _ (hcolumn (i := 7) (j := 2) (by omega))
  · rw [hring (x + 4)]
    exact congrArg₂ _ (hcolumn (i := 5) (j := 0) (by omega)) (hcolumn (i := 8) (j := 3) (by omega))

/-- The parities of two columns differ as their five bits do, when all five differ alike. -/
theorem parity_xor {a b : Nat → Bool} {d : Bool} (h : ∀ y, y < 5 → (a y ^^ b y) = d) :
    ((a 0 ^^ a 1 ^^ a 2 ^^ a 3 ^^ a 4) ^^ (b 0 ^^ b 1 ^^ b 2 ^^ b 3 ^^ b 4)) = d := by
  calc ((a 0 ^^ a 1 ^^ a 2 ^^ a 3 ^^ a 4) ^^ (b 0 ^^ b 1 ^^ b 2 ^^ b 3 ^^ b 4))
    _ = ((a 0 ^^ b 0) ^^ (a 1 ^^ b 1) ^^ (a 2 ^^ b 2) ^^ (a 3 ^^ b 3) ^^ (a 4 ^^ b 4)) 
      := by simp only [Bool.xor_assoc, Bool.xor_left_comm]
    _ = d := by simp [h]

/-- States with the same image differ at each bit of a column as the column's theta effect does, and so by their
parities alone; the difference of the parities is in the kernel. -/
theorem theta_injective : Function.Injective theta := by
  intro A B h
  have hmove : ∀ a b p q : Bool, (a ^^ p) = (b ^^ q) → (a ^^ b) = (p ^^ q) := by decide
  have hdiff (x y z : Nat) (hx : x < 5) (hy : y < 5) : (bitAt A x y z ^^ bitAt B x y z) =
      ((parityBit A (x + 4) z ^^ parityBit B (x + 4) z) ^^
        (parityBit A (x + 1) (z + 63) ^^ parityBit B (x + 1) (z + 63))) := by
    have hbit := congrArg (bitAt · x y z) h
    simp only [bitAt_theta _ z hx hy] at hbit
    rw [hmove _ _ _ _ hbit]
    simp only [Bool.xor_assoc, Bool.xor_left_comm]
  have hper (x x' z z' : Nat) (hx : x % 5 = x' % 5) (hz : z % 64 = z' % 64) :
      (parityBit A x z ^^ parityBit B x z) = (parityBit A x' z' ^^ parityBit B x' z') := by
    rw [parityBit_congr A hx hz, parityBit_congr B hx hz]
  have hzero : ∀ x z, (parityBit A x z ^^ parityBit B x z) = false := by
    refine parity_kernel (c := fun x z => parityBit A x z ^^ parityBit B x z) hper fun x z => ?_
    have hx : x % 5 < 5 := Nat.mod_lt _ (by decide)
    rw [hper x (x % 5) z z (by omega) rfl, hper (x + 4) (x % 5 + 4) z z (by omega) rfl,
      hper (x + 1) (x % 5 + 1) (z + 63) (z + 63) (by omega) rfl, parityBit_eq, parityBit_eq]
    exact parity_xor (a := (bitAt A (x % 5) · z)) (b := (bitAt B (x % 5) · z)) fun y hy => hdiff (x % 5) y z hx hy
  refine lanes_ext_bitAt fun x y z hx hy => ?_
  have hbit := hdiff x y z hx hy
  rw [hzero, hzero] at hbit
  simpa using hbit

/-! ### Rho, pi, chi and iota -/

theorem rho_injective : Function.Injective rho := by
  intro A B h
  refine lanes_ext fun x y hx hy => ?_
  have hlane := congrArg (laneAt · x y) h
  simp only [laneAt_rho _ hx hy] at hlane
  exact rotateLeft_injective _ hlane

theorem pi_injective : Function.Injective pi := by
  intro A B h
  refine lanes_ext fun x y _ _ => ?_
  rw [← laneAt_pi A, ← laneAt_pi B, h]

theorem bitAt_chi (A : Lanes) {x y : Nat} (z : Nat) (hx : x < 5) (hy : y < 5) :
    bitAt (chi A) x y z = (bitAt A x y z ^^ (!bitAt A (x + 1) y z && bitAt A (x + 2) y z)) := by
  have hz : z % 64 < 64 := Nat.mod_lt _ (by decide)
  simp only [bitAt, laneAt_chi A hx hy, BitVec.getLsbD_xor, BitVec.getLsbD_and, BitVec.getLsbD_not, hz, decide_true,
    Bool.true_and]

/-- Chi works on the 32 values of a row, and gives each of them once. -/
theorem chi_row_injective : ∀ a₀ a₁ a₂ a₃ a₄ b₀ b₁ b₂ b₃ b₄ : Bool,
    (a₀ ^^ (!a₁ && a₂)) = (b₀ ^^ (!b₁ && b₂)) → (a₁ ^^ (!a₂ && a₃)) = (b₁ ^^ (!b₂ && b₃)) →
    (a₂ ^^ (!a₃ && a₄)) = (b₂ ^^ (!b₃ && b₄)) → (a₃ ^^ (!a₄ && a₀)) = (b₃ ^^ (!b₄ && b₀)) →
    (a₄ ^^ (!a₀ && a₁)) = (b₄ ^^ (!b₀ && b₁)) → a₀ = b₀ ∧ a₁ = b₁ ∧ a₂ = b₂ ∧ a₃ = b₃ ∧ a₄ = b₄ := by
  decide

theorem chi_injective : Function.Injective chi := by
  intro A B h
  refine lanes_ext_bitAt fun x y z hx hy => ?_
  have hbit (i : Nat) (hi : i < 5) : (bitAt A i y z ^^ (!bitAt A (i + 1) y z && bitAt A (i + 2) y z)) =
      (bitAt B i y z ^^ (!bitAt B (i + 1) y z && bitAt B (i + 2) y z)) := by
    rw [← bitAt_chi A z hi hy, ← bitAt_chi B z hi hy, h]
  have hcol (C : Lanes) (i : Nat) : bitAt C (i + 5) y z = bitAt C i y z := bitAt_congr C (by omega) rfl rfl
  have h3 := hbit 3 (by decide)
  have h4 := hbit 4 (by decide)
  rw [hcol A 0, hcol B 0] at h3
  rw [hcol A 0, hcol B 0, hcol A 1, hcol B 1] at h4
  obtain ⟨e0, e1, e2, e3, e4⟩ := chi_row_injective _ _ _ _ _ _ _ _ _ _ (hbit 0 (by decide)) (hbit 1 (by decide))
    (hbit 2 (by decide)) h3 h4
  interval_cases x <;> assumption

theorem iota_injective (i : Nat) : Function.Injective fun A => iota A i := by
  intro A B h
  refine lanes_ext fun x y hx hy => ?_
  have hlane := congrArg (laneAt · x y) h
  simp only [laneAt_iota _ i hx hy] at hlane
  split_ifs at hlane with h00
  · obtain ⟨rfl, rfl⟩ := h00
    exact (BitVec.xor_left_inj _).1 hlane
  · exact hlane

/-! ### The permutation -/

theorem round_injective (i : Nat) : Function.Injective fun A => round A i :=
  (iota_injective i).comp (chi_injective.comp (pi_injective.comp (rho_injective.comp theta_injective)))

theorem roundsFrom_injective (n i : Nat) : Function.Injective (roundsFrom i n) := by
  induction n generalizing i with
  | zero => exact Function.injective_id
  | succ n ih => exact (ih (i + 1)).comp (round_injective i)

theorem keccakF_injective : Function.Injective keccakF := by
  intro A B h
  rw [keccakF, keccakF] at h
  exact roundsFrom_injective _ _ h

/-- Settles O9: each mapping is injective, and the states are finitely many. -/
theorem keccakFIsBijective : Obligations.KeccakFIsBijective := by
  unfold Obligations.KeccakFIsBijective
  exact ⟨bijective_of_injective theta_injective, bijective_of_injective rho_injective,
    bijective_of_injective pi_injective, bijective_of_injective chi_injective,
    fun i => bijective_of_injective (iota_injective i), bijective_of_injective keccakF_injective⟩

/-! ### The tables -/

/-- The table of pi is the lane the model's pi reads for each output lane. -/
theorem piTable_eq : ∀ d : Fin 25, piTable.getD d.val 0 = (d.val % 5 + 3 * (d.val / 5)) % 5 + 5 * (d.val % 5 % 5) := by
  decide

/-- Settles O7: the tables are compared with what their rules generate, entry by entry. -/
theorem constantTablesAreGenerated : Obligations.ConstantTablesAreGenerated := by
  unfold Obligations.ConstantTablesAreGenerated
  refine ⟨⟨rfl, by decide, by decide⟩, by decide +kernel, by decide, fun A d => ⟨?_, ?_⟩⟩
  · rw [piTable_eq]
    omega
  · simp only [pi, lanesOf, laneAt, Fin.getElem_fin, Vector.getElem_ofFn, piTable_eq]

end Sys2Proof.Machine
end

section
/-! Proofs of the statements about the rounds of the KP block (40_permutation.md section 4). -/

namespace Sys2Proof.Machine

open Sys2Proof.Claims

/-! ### An edge of the stand-alone KP in RUN -/

theorem step_of_kpEdgeNext {s : State} {p : KpPins} {rest : List Input} (hin : KpEdgeNext s p rest) :
    step s = kpEdge p { s with inputs := rest } := by
  rcases hin with hin | ⟨hin, hk, rfl, rfl⟩
  · exact step_kp hin
  · cases s
    subst hin
    exact if_pos hk

theorem kpRun_of_lt {n : Nat} {k : Kp} (put : Kp → State) (h : k.krnd.toNat < 24) :
    kpRun n k put = .next (put (k.roundEdges n)) :=
  if_pos (decide_eq_true h)

theorem kpEdge_of_run {p : KpPins} {s : State} (hrst : p.rst = false) (h : s.alone.kph = .run)
    (hk : s.alone.krnd.toNat < 24) : kpEdge p s = .next { s with alone := s.alone.roundEdges p.rounds } := by
  simp only [kpEdge, hrst, h, kpRun_of_lt _ hk]
  rfl

/-- `Claims.afterRounds` is what the rounds of an edge make of a KP in RUN. -/
theorem roundEdges_eq_afterRounds {k : Kp} (n : Nat) (h : k.kph = .run) (hk : k.krnd.toNat < 24) :
    k.roundEdges n = afterRounds n k :=
  roundEdges_spec n k h hk

/-- The round cycle of the reference design (40_permutation.md R93). -/
theorem roundEdges_one {k : Kp} (h : k.kph = .run) : k.roundEdges 1 =
    if k.krnd = 23 then { ka := round k.ka 23, krnd := 0, kph := .done }
    else { ka := round k.ka k.krnd.toNat, krnd := k.krnd + 1, kph := .run } := by
  rw [Kp.roundEdges, if_pos h, Kp.roundEdges, Kp.roundEdge]
  by_cases h23 : k.krnd = 23
  · rw [if_pos h23, if_pos h23, h23]; rfl
  · rw [if_neg h23, if_neg h23]

/-- Settles O12: an edge in RUN applies its rounds; with none it leaves the KP, with one it is the round cycle. -/
theorem kpRoundCycle : Obligations.KpRoundCycle := by
  unfold Obligations.KpRoundCycle
  intro s p rest hin hrst hrun hk
  have hstep : step s = .next { s with inputs := rest, alone := s.alone.roundEdges p.rounds } := by
    rw [step_of_kpEdgeNext hin]
    exact kpEdge_of_run hrst hrun hk
  refine ⟨?_, fun h0 => ?_, fun h1 => ?_⟩
  · rw [hstep, roundEdges_eq_afterRounds _ hrun hk]
  · rw [hstep, h0, Kp.roundEdges]
  · rw [hstep, h1, roundEdges_one hrun]

/-! ### Runs of edges -/

theorem run_succ {s t : State} (n : Nat) (h : step s = .next t) : run (n + 1) s = run n t :=
  run_succ_of_next (M := core) n h

theorem roundEdges_of_not_run {k : Kp} (n : Nat) (h : k.kph ≠ .run) : k.roundEdges n = k := by
  cases n with
  | zero => rfl
  | succ n => exact if_neg h

/-- Rounds at two edges are the rounds of both at one. -/
theorem roundEdges_add (m n : Nat) (k : Kp) : k.roundEdges (m + n) = (k.roundEdges m).roundEdges n := by
  induction m generalizing k with
  | zero => rw [Nat.zero_add, Kp.roundEdges]
  | succ m ih =>
    rw [Nat.succ_add, Kp.roundEdges, Kp.roundEdges]
    split
    · exact ih _
    · next h => exact (roundEdges_of_not_run n h).symm

/-- An edge of a KP that has taken its input, at which the result is not taken, applies the rounds of the edge: all
that are left in RUN, and none in DONE. -/
theorem kpEdge_of_busy {p : KpPins} {s : State} (hrst : p.rst = false) (hout : p.pOutReady = false) (hok : s.alone.Ok)
    (h : s.alone.kph ≠ .idle) : kpEdge p s = .next { s with alone := s.alone.roundEdges p.rounds } := by
  cases hk : s.alone.kph with
  | idle => exact absurd hk h
  | run => exact kpEdge_of_run hrst hk hok.1
  | done => rw [kpEdge_of_done hrst hk, hout, roundEdges_of_not_run _ (by simp [hk])]; rfl

/-- A busy KP over any number of edges: their rounds add up. By induction on the edges. -/
theorem run_kpEdges (edges : List KpPins) (s : State) (rest : List Input) (hok : s.alone.Ok)
    (h : s.alone.kph ≠ .idle) (hpins : ∀ p ∈ edges, p.rst = false ∧ p.pOutReady = false)
    (hin : s.inputs = edges.map Input.kp ++ rest) :
    run edges.length s =
      .next { s with inputs := rest, alone := s.alone.roundEdges (edges.map KpPins.rounds).sum } := by
  induction edges generalizing s with
  | nil => rw [← show s.inputs = rest from hin]; rfl
  | cons p edges ih =>
    obtain ⟨⟨hrst, hout⟩, hpins⟩ := List.forall_mem_cons.1 hpins
    obtain ⟨hok', h'⟩ := ok_rounds p.rounds s.alone hok h
    have hstep : step s = .next { s with inputs := edges.map Input.kp ++ rest, alone := s.alone.roundEdges p.rounds } := by
      rw [step_kp hin]
      exact kpEdge_of_busy (s := { s with inputs := edges.map Input.kp ++ rest }) hrst hout hok h
    rw [List.length_cons, run_succ _ hstep, ih _ hok' h' hpins rfl, List.map_cons,
      List.sum_cons, roundEdges_add]

/-- The edges of a KP in RUN once the agenda is empty, one round each, while rounds are left. -/
theorem run_kpQuiet (n : Nat) (s : State) (hin : s.inputs = []) (hrun : s.alone.kph = .run)
    (hle : s.alone.krnd.toNat + n ≤ 24) : run n s = .next { s with alone := s.alone.roundEdges n } := by
  induction n generalizing s with
  | zero => rfl
  | succ n ih =>
    have hk : s.alone.krnd.toNat < 24 := by omega
    have hstep : step s = .next { s with inputs := [], alone := s.alone.roundEdges 1 } := by
      rw [step_of_kpEdgeNext (.inr ⟨hin, hrun, rfl, rfl⟩)]
      exact kpEdge_of_run (s := { s with inputs := [] }) rfl hrun hk
    rw [run_succ n hstep, ← hin, Nat.add_comm n 1, roundEdges_add]
    cases n with
    | zero => rfl
    | succ n =>
      have h23 : s.alone.krnd ≠ 23 := by
        intro h
        rw [h] at hle
        have : (23 : BitVec 5).toNat = 23 := rfl
        omega
      have hnext : s.alone.roundEdges 1 = ⟨round s.alone.ka s.alone.krnd.toNat, s.alone.krnd + 1, .run⟩ := by
        rw [roundEdges_one hrun, if_neg h23]
      have hkrnd : (s.alone.krnd + 1).toNat = s.alone.krnd.toNat + 1 := by
        rw [BitVec.toNat_add]
        exact Nat.mod_eq_of_lt (by show s.alone.krnd.toNat + 1 < 32; omega)
      refine ih _ hin (by rw [hnext]) ?_
      rw [hnext]
      show (s.alone.krnd + 1).toNat + (n + 1) ≤ 24
      omega

/-- Settles O13: the input handshake loads the KP with round 0 next, and the rounds of all the edges together are the
24 of KeccakF; with an empty agenda the rounds left are taken one an edge. -/
theorem twentyFourRoundEdgesGiveKeccakF : Obligations.TwentyFourRoundEdgesGiveKeccakF := by
  unfold Obligations.TwentyFourRoundEdgesGiveKeccakF
  refine ⟨fun s bus edges rest hidle hpins hsum hin => ?_, fun s hin hrun hk => ?_⟩
  · have hload : step s =
        .next { s with inputs := edges.map Input.kp ++ rest, alone := Kp.load (unpackLanes bus) } := by
      rw [step_kp hin]
      exact kpEdge_of_idle (s := { s with inputs := edges.map Input.kp ++ rest }) rfl hidle
    have hrounds : (Kp.load (unpackLanes bus)).roundEdges (edges.map KpPins.rounds).sum =
        ⟨keccakF (unpackLanes bus), 0, .done⟩ := by
      rw [roundEdges_spec _ _ rfl (ok_load _).1, if_pos (Nat.le_add_left_of_le hsum), keccakF]
      rfl
    rw [Nat.add_comm, run_succ _ hload,
      run_kpEdges edges _ rest (ok_load _) (by simp [Kp.load]) hpins rfl, hrounds]
  · rw [run_kpQuiet _ s hin hrun (by omega), roundEdges_spec _ _ hrun hk, if_pos (by omega)]

end Sys2Proof.Machine
end

section
/-! Proofs of the statements about bytes and lanes (20_memory.md section 2) and about digests (41_sponge.md). -/

namespace Sys2Proof.Machine

/-! ### Bytes and lanes -/

/-- A vector is its 200 bytes (20_memory.md R39). -/
theorem lanes_ext_stateByte {A B : Lanes} (h : ∀ k, k < 200 → stateByte A k = stateByte B k) : A = B := by
  ext i hi : 1
  refine lane_ext fun j hj => ?_
  rw [← stateByte_eq_dataByte A hi hj, ← stateByte_eq_dataByte B hi hj]
  exact h _ (by omega)

@[simp] theorem length_stateBytes (A : Lanes) : (stateBytes A).length = 200 := by
  simp [stateBytes, Config.stateBytes]

theorem stateBytes_getD (A : Lanes) {k : Nat} (hk : k < 200) : (stateBytes A).getD k 0 = stateByte A k := by
  simp [stateBytes, Config.stateBytes, hk]

theorem bytesLanes_stateBytes (A : Lanes) : bytesLanes (stateBytes A) = A :=
  lanes_ext_stateByte fun _ hk => (stateByte_lanesOfBytes _ hk).trans (stateBytes_getD A hk)

theorem stateBytes_bytesLanes {s : List Byte} (h : s.length = 200) : stateBytes (bytesLanes s) = s := by
  refine List.ext_getElem (by simp [h]) fun k hk hk' => ?_
  have hlt : k < 200 := by omega
  rw [← List.getD_eq_getElem _ 0 hk, ← List.getD_eq_getElem _ 0 hk', stateBytes_getD _ hlt]
  exact stateByte_lanesOfBytes _ hlt

/-- Settles O17: both are read byte by byte. -/
theorem bytesAndLanesAreInverse : Obligations.BytesAndLanesAreInverse := by
  unfold Obligations.BytesAndLanesAreInverse
  exact ⟨bytesLanes_stateBytes, fun s h => stateBytes_bytesLanes h⟩

/-! ### Digests -/

/-- A digest is the first L bytes of one stream. -/
theorem digest_eq_map_streamByte {rate : Nat} (h : 1 ≤ rate) (suffix : Byte) (A : Lanes) (t : List Byte) (L : Nat) :
    digest rate suffix A t L = (List.range L).map (streamByte rate (finalState rate suffix A t)) :=
  squeeze_eq_map_streamByte h _ L

theorem length_digest {rate : Nat} (h : 1 ≤ rate) (suffix : Byte) (A : Lanes) (t : List Byte) (L : Nat) :
    (digest rate suffix A t L).length = L := by
  rw [digest_eq_map_streamByte h, List.length_map, List.length_range]

/-- Settles O21: digests of two lengths are initial parts of one stream. -/
theorem digestLengthAndPrefix : Obligations.DigestLengthAndPrefix := by
  unfold Obligations.DigestLengthAndPrefix
  intro rate suffix A t L h
  refine ⟨length_digest h suffix A t L, fun L' hle => ?_⟩
  rw [digest_eq_map_streamByte h, digest_eq_map_streamByte h, ← List.map_take, List.take_range, Nat.min_eq_left hle]

end Sys2Proof.Machine
end

section
/-! Proofs of the statements about what every command does (42_commands.md). -/

namespace Sys2Proof.Machine

open Sys2Proof.Claims

/-! ### Refused commands -/

theorem finalizeCommand_of_unconfigured (useLen : Bool) (len : Word32) {s : State} (hs : s.cfgValid = false) :
    finalizeCommand useLen len s = .next (answered 0x00000000000000000000000000001023 s) :=
  checked_of_unconfigured _ hs rfl

/-- Settles O27: step 2 of the check order, for each command that needs a construction. -/
theorem unconfiguredCommandsAreRefused : Obligations.UnconfiguredCommandsAreRefused := by
  unfold Obligations.UnconfiguredCommandsAreRefused
  intro s len hs
  refine ⟨fun i hi => ?_, by rw [exec_reset]; exact checked_of_unconfigured _ hs rfl, fun i hi => ?_⟩
  · fin_cases hi
    · exact finalizeCommand_of_unconfigured false 0 hs
    · exact finalizeCommand_of_unconfigured true len hs
  · rcases List.mem_append.1 hi with hgood | hbad
    · fin_cases hgood <;> exact queryCommand_of_unconfigured hs (by decide)
    · obtain ⟨sel, hsel, hexec⟩ := exec_queryBadRow hbad
      rw [hexec]
      exact queryCommand_of_unconfigured hs (by rintro rfl; exact absurd hsel (by decide))

/-- Settles O39: row by row of the preset table. -/
theorem presetCapacities : Obligations.PresetCapacities := by
  unfold Obligations.PresetCapacities
  intro q hq
  fin_cases hq <;> exact ⟨_, rfl, by decide⟩

/-! ### Every instruction but PERMUTE is a command word's -/

/-- An ABSORB that is not well-formed acts as the word it is encoded in: the command ignores what the decoder drops. -/
theorem exec_encoded (i : Instr) (s : State) : exec (decodePacket (encodePacket i)) s = exec i s := by
  by_cases hwf : i.wellFormed = true
  · rw [decodePacket_encodePacket hwf]
  · cases i
    case absorb1 | absorb2 | absorb3 | absorb4 | absorb5 | absorb6 | absorb7 | absorb8 =>
      rw [encodePacket, decodePacket, decodeCommand_absorb (cmdOp_commandWord ..), exec_decodeAbsorb, cmdN_commandWord,
        cmdData_commandWord]
      rfl
    all_goals exact absurd rfl hwf

theorem exec_eq_exec_command {i : Instr} (h : ∀ bus, i ≠ .permute bus) :
    ∃ w, ∀ s, exec i s = exec (decodeCommand w) s := by
  cases hp : encodePacket i with
  | command w => exact ⟨w, fun s => by rw [← exec_encoded, hp, decodePacket]⟩
  | kpInput bus =>
    have hi : i = .permute bus := by
      cases i <;> cases hp
      rfl
    exact absurd hi (h bus)

/-- Settles O38: an error answers with its word, and the command's rule writes none of these fields. -/
theorem everyCommandAnswers : Obligations.EveryCommandAnswers := by
  unfold Obligations.EveryCommandAnswers
  intro i s hi
  obtain ⟨w, hexec⟩ := exec_eq_exec_command hi
  rw [hexec]
  rcases exec_command_cases w s with ⟨e, -, -, -, herror⟩ | ⟨-, hok⟩
  · exact ⟨_, herror, rfl, rfl, rfl, rfl, rfl, rfl, rfl, rfl⟩
  · obtain ⟨kp, sp, bf, bl, cv, fam, ra, su, xo, ol, z, ot, op, zp, ip, r, st, n, hframe⟩ := ruleOf_frame w s
    exact ⟨_, hok.trans (congrArg _ hframe), rfl, rfl, rfl, rfl, rfl, rfl, rfl, rfl⟩

end Sys2Proof.Machine
end

section
/-! Proofs of the statements about what commands read and leave (42_commands.md preamble, 41_sponge.md section 4). -/

namespace Sys2Proof.Machine

open Sys2Proof.Claims

/-! ### The persistent state -/

theorem samePersistent_symm {s t : State} (h : SamePersistent s t) : SamePersistent t s := by
  obtain ⟨hsp, hbuf, hblen, hcfg, hfam, hrate, hsuffix, hxof, hout⟩ := h
  exact ⟨hsp.symm, hbuf.symm, hblen.symm, hcfg.symm, hfam.symm, hrate.symm, hsuffix.symm, hxof.symm, hout.symm⟩

theorem samePersistent_trans {s t u : State} (h : SamePersistent s t) (h' : SamePersistent t u) :
    SamePersistent s u := by
  obtain ⟨hsp, hbuf, hblen, hcfg, hfam, hrate, hsuffix, hxof, hout⟩ := h
  obtain ⟨hsp', hbuf', hblen', hcfg', hfam', hrate', hsuffix', hxof', hout'⟩ := h'
  exact ⟨hsp'.trans hsp, hbuf'.trans hbuf, hblen'.trans hblen, hcfg'.trans hcfg, hfam'.trans hfam, hrate'.trans hrate,
    hsuffix'.trans hsuffix, hxof'.trans hxof, hout'.trans hout⟩

/-- The staging of a byte reads and writes persistent state, but for KP, IPOS and the record of KP starts. -/
theorem stageByte_congr (b : Byte) {s t : State} (h : SamePersistent s t) :
    SamePersistent (stageByte s b) (stageByte t b) := by
  obtain ⟨hsp, hbuf, hblen, hcfg, hfam, hrate, hsuffix, hxof, hout⟩ := h
  have hinput : blockInput (putByte b t) = blockInput (putByte b s) := by
    simp only [blockInput, stagedBlock, putByte_fields, hsp, hbuf, hblen, hrate]
  simp only [stageByte, putByte_fields, hblen, hrate, hinput]
  split <;>
    simp only [SamePersistent, finishBlock_fields, kpCall_fields, putByte_fields, hsp, hbuf, hblen, hcfg, hfam, hrate,
      hsuffix, hxof, hout, and_self]

theorem absorbBytes_congr (m : List Byte) {s t : State} (h : SamePersistent s t) :
    SamePersistent (absorbBytes m s) (absorbBytes m t) := by
  induction m generalizing s t with
  | nil => exact h
  | cons b m ih => exact ih (stageByte_congr b h)

/-- The same point of an output: what the building of a response word reads. -/
structure SameOutput (s t : State) : Prop where
  z : t.z = s.z
  otot : t.otot = s.otot
  opos : t.opos = s.opos
  zpos : t.zpos = s.zpos
  rspr : t.rspr = s.rspr
  rate : t.rate = s.rate

theorem refillZ_congr {s t : State} (h : SameOutput s t) : SameOutput (refillZ s) (refillZ t) := by
  obtain ⟨hz, hotot, hopos, hzpos, hrspr, hrate⟩ := h
  simp only [refillZ, hzpos, hrate, hz]
  split <;> constructor <;> simp [hz, hotot, hopos, hzpos, hrspr, hrate]

theorem emitByte_congr {s t : State} (h : SameOutput s t) : SameOutput (emitByte s) (emitByte t) := by
  obtain ⟨hz, hotot, hopos, hzpos, hrspr, hrate⟩ := h
  constructor <;> simp [hz, hotot, hopos, hzpos, hrspr, hrate]

theorem emitBytes_congr (n : Nat) {s t : State} (h : SameOutput s t) : SameOutput (emitBytes n s) (emitBytes n t) := by
  induction n generalizing s t with
  | zero => exact h
  | succ n ih =>
    simp only [emitBytes, h.opos, h.otot]
    split
    · exact h
    · exact ih (emitByte_congr (refillZ_congr h))

theorem outputWord_rspr_congr {s t : State} (h : SameOutput s t) : (outputWord t).rspr = (outputWord s).rspr := by
  have hemit := emitBytes_congr Config.beatBytes h
  simp only [outputWord, presentOutput, present_fields, hemit.rspr, hemit.opos, hemit.otot]

/-- The first word of a FINALIZE reads persistent state only: Z, the counters and RSPR are written before they are
read. -/
theorem finalizeTo_rspr_congr (L : Word32) {s t : State} (h : SamePersistent s t) :
    (finalizeTo L t).rspr = (finalizeTo L s).rspr := by
  obtain ⟨hsp, hbuf, hblen, -, -, hrate, hsuffix, -, -⟩ := h
  have hinput : padInput t = padInput s := by
    simp only [padInput, stagedTail, hsp, hbuf, hblen, hrate, hsuffix]
  refine outputWord_rspr_congr ?_
  constructor <;> simp [hinput, hrate]

theorem samePersistent_finalizeTo (L : Word32) (s : State) : SamePersistent s (finalizeTo L s) := by
  obtain ⟨kp, ks, z, zp, op, r, hframe⟩ := finalizeTo_frame s L
  rw [hframe]
  exact ⟨rfl, rfl, rfl, rfl, rfl, rfl, rfl, rfl, rfl⟩

theorem outputLength_of_samePersistent (useLen : Bool) (len : Word32) {s t : State} (h : SamePersistent s t) :
    outputLength useLen len t = outputLength useLen len s := by
  obtain ⟨-, -, -, -, -, -, -, hxof, hout⟩ := h
  simp only [outputLength, hxof, hout]

theorem queryValue_congr (sel : Nibble) {s t : State} (h : SamePersistent s t) : queryValue sel t = queryValue sel s := by
  obtain ⟨-, -, hblen, hcfg, hfam, hrate, hsuffix, hxof, hout⟩ := h
  simp only [queryValue, statusWord, hblen, hcfg, hfam, hrate, hsuffix, hxof, hout]

theorem samePersistent_respondOk (op : Nibble) (v : Word32) {s t : State} (h : SamePersistent s t) :
    SamePersistent (respondOk op v s) (respondOk op v t) := h

/-- Each command's rule, by OP: what it writes to persistent state and to RSPR it computes from persistent state. -/
theorem ruleOf_congr (w : Word128) {s t : State} (h : SamePersistent s t) :
    SamePersistent (ruleOf w s) (ruleOf w t) ∧ (ruleOf w t).rspr = (ruleOf w s).rspr := by
  unfold ruleOf
  split_ifs
  · cases presetOf (cmdN w) <;> exact ⟨⟨rfl, rfl, rfl, rfl, rfl, rfl, rfl, rfl, rfl⟩, rfl⟩
  · exact ⟨absorbBytes_congr _ h, rfl⟩
  · rw [outputLength_of_samePersistent _ _ h]
    exact ⟨samePersistent_trans (samePersistent_symm (samePersistent_finalizeTo _ s))
      (samePersistent_trans h (samePersistent_finalizeTo _ t)), finalizeTo_rspr_congr _ h⟩
  · obtain ⟨-, -, -, hconfig⟩ := h
    exact ⟨⟨rfl, rfl, rfl, hconfig⟩, rfl⟩
  · rw [queryValue_congr _ h]
    exact ⟨h, rfl⟩
  · exact ⟨h, rfl⟩

/-- The checks read CFG_VALID and the word, and the rule is a function of persistent state. -/
theorem exec_congr (w : Word128) {s t s' : State} (h : SamePersistent s t) (hs : exec (decodeCommand w) s = .next s') :
    ∃ t', exec (decodeCommand w) t = .next t' ∧ SamePersistent s' t' ∧ t'.rspr = s'.rspr := by
  have hvalid : t.cfgValid = s.cfgValid := by
    obtain ⟨-, -, -, hcfg, -⟩ := h
    exact hcfg
  rcases exec_command_cases w s with ⟨e, -, -, he, herror⟩ | ⟨hpass, hok⟩
  · cases hs.symm.trans herror
    exact ⟨_, exec_of_error (hvalid ▸ he), h, rfl⟩
  · cases hs.symm.trans hok
    exact ⟨_, exec_of_ok (hvalid ▸ hpass), ruleOf_congr w h⟩

/-- Settles O37: by the checks and the rule of the word. -/
theorem commandsReadOnlyPersistentState : Obligations.CommandsReadOnlyPersistentState := by
  unfold Obligations.CommandsReadOnlyPersistentState
  intro w s t h
  obtain ⟨s', hs⟩ := exec_command_next w s
  obtain ⟨t', ht, hsame, hrspr⟩ := exec_congr w h hs
  exact ⟨s', t', hs, ht, hsame, hrspr.symm⟩

/-! ### Sequences of commands -/

theorem execAll_cons {w : Word128} {ws : List Word128} {s t : State} (h : exec (decodeCommand w) s = .next t) :
    execAll (w :: ws) s = (execAll ws t).map fun q => (q.1, t.rspr :: q.2) := by
  rw [execAll, h]

/-- The first command's next state, from which the others run. -/
theorem execAll_cons_eq_some {w : Word128} {ws rs : List Word128} {s u : State}
    (h : execAll (w :: ws) s = some (u, rs)) :
    ∃ t qs, exec (decodeCommand w) s = .next t ∧ execAll ws t = some (u, qs) ∧ rs = t.rspr :: qs := by
  obtain ⟨t, ht⟩ := exec_command_next w s
  rw [execAll_cons ht] at h
  obtain ⟨⟨u', qs⟩, hq, heq⟩ := Option.map_eq_some_iff.1 h
  cases heq
  exact ⟨t, qs, ht, hq, rfl⟩

theorem execAll_append_eq_some {ws vs rs : List Word128} {s u : State} (h : execAll (ws ++ vs) s = some (u, rs)) :
    ∃ t ps qs, execAll ws s = some (t, ps) ∧ execAll vs t = some (u, qs) := by
  induction ws generalizing s rs with
  | nil => exact ⟨s, [], rs, rfl, h⟩
  | cons w ws ih =>
    obtain ⟨t, qs, ht, hq, -⟩ := execAll_cons_eq_some h
    obtain ⟨a, ps, qs', ha, hu⟩ := ih hq
    exact ⟨a, t.rspr :: ps, qs', by rw [execAll_cons ht, ha]; rfl, hu⟩

theorem execAll_congr {ws rs qs : List Word128} {s t s' t' : State} (h : SamePersistent s t)
    (hs : execAll ws s = some (s', rs)) (ht : execAll ws t = some (t', qs)) : SamePersistent s' t' := by
  induction ws generalizing s t rs qs with
  | nil => cases hs; cases ht; exact h
  | cons w ws ih =>
    obtain ⟨a, rs', ha, hs', -⟩ := execAll_cons_eq_some hs
    obtain ⟨b, qs', hb, ht', -⟩ := execAll_cons_eq_some ht
    obtain ⟨c, hc, hsame, -⟩ := exec_congr w h ha
    cases hb.symm.trans hc
    exact ih hsame hs' ht'

/-! ### FINALIZE between two parts of a message -/

theorem ruleOf_finalize {w : Word128} (hop : cmdOp w = 0x3) (s : State) :
    ruleOf w s = finalizeTo (outputLength ((cmdN w).getLsbD 0) (cmdLen w) s) s := by
  rw [ruleOf, if_neg (by rw [hop]; decide), if_neg (by rw [hop]; decide), if_pos hop]

theorem exec_finalize_samePersistent {w : Word128} {s t : State} (hop : cmdOp w = 0x3)
    (h : exec (decodeCommand w) s = .next t) : SamePersistent s t := by
  rcases exec_command_cases w s with ⟨e, -, -, -, herror⟩ | ⟨-, hok⟩
  · cases h.symm.trans herror
    exact ⟨rfl, rfl, rfl, rfl, rfl, rfl, rfl, rfl, rfl⟩
  · cases h.symm.trans hok
    rw [ruleOf_finalize hop]
    exact samePersistent_finalizeTo _ s

/-- Settles O43: the FINALIZE leaves the persistent state of the first part, and the second part reads nothing else. -/
theorem finalizeDoesNotDisturbTheMessage : Obligations.FinalizeDoesNotDisturbTheMessage := by
  unfold Obligations.FinalizeDoesNotDisturbTheMessage
  intro s t u fin ws vs rs qs hop _ hwith hwithout
  obtain ⟨a, ps, rs', ha, hfin⟩ := execAll_append_eq_some hwith
  obtain ⟨a', ps', qs', ha', hu⟩ := execAll_append_eq_some hwithout
  cases ha.symm.trans ha'
  obtain ⟨b, rs'', hb, ht, -⟩ := execAll_cons_eq_some hfin
  exact execAll_congr (samePersistent_symm (exec_finalize_samePersistent hop hb)) ht hu

/-! ### RESET -/

theorem ruleOf_config {w : Word128} (hop : cmdOp w = 0x1) (s : State) :
    ∃ fc rate suffix xof outlen, ruleOf w s = constructed fc rate suffix xof outlen s := by
  rw [ruleOf, if_pos hop]
  cases presetOf (cmdN w) <;> exact ⟨_, _, _, _, _, rfl⟩

/-- Only CONFIG's rule writes the construction (42_commands.md R114). -/
theorem ruleOf_sameConfig {w : Word128} (hop : cmdOp w ≠ 0x1) (s : State) : SameConfig s (ruleOf w s) := by
  unfold ruleOf
  rw [if_neg hop]
  split_ifs
  · obtain ⟨sp, bf, bl, kp, n, hframe⟩ :=
      absorbBytes_frame (messageBytes (cmdN w).toNat (cmdData w)) { s with ipos := 0, started := true }
    rw [hframe]
    exact ⟨rfl, rfl, rfl, rfl, rfl, rfl⟩
  · obtain ⟨-, -, -, hconfig⟩ := samePersistent_finalizeTo (outputLength ((cmdN w).getLsbD 0) (cmdLen w) s) s
    exact hconfig
  all_goals exact ⟨rfl, rfl, rfl, rfl, rfl, rfl⟩

theorem exec_sameConfig {w : Word128} {s t : State} (hop : cmdOp w ≠ 0x1) (h : exec (decodeCommand w) s = .next t) :
    SameConfig s t := by
  rcases exec_command_cases w s with ⟨e, -, -, -, herror⟩ | ⟨-, hok⟩
  · cases h.symm.trans herror
    exact ⟨rfl, rfl, rfl, rfl, rfl, rfl⟩
  · cases h.symm.trans hok
    exact ruleOf_sameConfig hop s

theorem sameConfig_trans {s t u : State} (h : SameConfig s t) (h' : SameConfig t u) : SameConfig s u := by
  obtain ⟨hcfg, hfam, hrate, hsuffix, hxof, hout⟩ := h
  obtain ⟨hcfg', hfam', hrate', hsuffix', hxof', hout'⟩ := h'
  exact ⟨hcfg'.trans hcfg, hfam'.trans hfam, hrate'.trans hrate, hsuffix'.trans hsuffix, hxof'.trans hxof,
    hout'.trans hout⟩

theorem execAll_sameConfig {ws rs : List Word128} {s t : State} (hop : ∀ w ∈ ws, cmdOp w ≠ 0x1)
    (h : execAll ws s = some (t, rs)) : SameConfig s t := by
  induction ws generalizing s rs with
  | nil => cases h; exact ⟨rfl, rfl, rfl, rfl, rfl, rfl⟩
  | cons w ws ih =>
    obtain ⟨hw, hws⟩ := List.forall_mem_cons.1 hop
    obtain ⟨a, qs, ha, hu, -⟩ := execAll_cons_eq_some h
    exact sameConfig_trans (exec_sameConfig hw ha) (ih hws hu)

/-- RESET on a configured SF (42_commands.md R124). -/
theorem exec_reset_of_configured {s : State} (hs : s.cfgValid = true) :
    exec .reset s = .next (respondOk 0x4 0 (clearMessage s)) := by
  rw [exec_reset]
  exact checked_of_ok _ (by rw [hs]; rfl)

/-- An accepted CONFIG leaves an empty message and a construction. -/
theorem exec_config_accepted {w : Word128} {s c : State} (hop : cmdOp w = 0x1)
    (h : exec (decodeCommand w) s = .next c) (hok : rspStatus c.rspr = 0x0) :
    c.cfgValid = true ∧ c.sponge = zeroLanes ∧ c.buf = zeroBuffer ∧ c.blen = 0 := by
  rcases exec_command_cases w s with ⟨e, hpos, -, -, herror⟩ | ⟨-, hrule⟩
  · cases h.symm.trans herror
    rw [present, rspStatus_responseWord] at hok
    rw [hok] at hpos
    exact absurd hpos (by decide)
  · cases h.symm.trans hrule
    obtain ⟨fc, rate, suffix, xof, outlen, hc⟩ := ruleOf_config hop s
    rw [hc]
    exact ⟨rfl, rfl, rfl, rfl⟩

/-- Settles O42: the commands in between keep the construction, and RESET clears the message, to which a second RESET
has nothing to add. -/
theorem resetEqualsFreshConfig : Obligations.ResetEqualsFreshConfig := by
  unfold Obligations.ResetEqualsFreshConfig
  rintro i s c d ws rs ⟨w, rfl, hop⟩ hc hok hws hd
  obtain ⟨hvalid, hsp, hbuf, hblen⟩ := exec_config_accepted hop hc hok
  have hconfig : SameConfig c d := execAll_sameConfig hws hd
  have hdvalid : d.cfgValid = true := hconfig.1.trans hvalid
  exact ⟨_, _, exec_reset_of_configured hdvalid, ⟨hsp.symm, hbuf.symm, hblen.symm, hconfig⟩,
    exec_reset_of_configured (s := respondOk 0x4 0 (clearMessage d)) hdvalid, rfl⟩

end Sys2Proof.Machine
end

section
/-! Proofs of the laws of absorbing (41_sponge.md sections 1 and 4, 30_encoding.md section 8). -/

namespace Sys2Proof.Machine

open Sys2Proof.Claims

/-! ### The ABSORB word of a chunk -/

theorem messageBytes_packBytes {c : List Byte} (h : c.length ≤ 8) : messageBytes c.length (packBytes c) = c := by
  refine List.ext_getElem (by simp [messageBytes]) fun j hj hj' => ?_
  have hlt : j < 8 := by omega
  simp only [messageBytes, List.getElem_map, List.getElem_range, dataByte_packBytes c hlt]
  exact List.getD_eq_getElem c 0 hj'

theorem exec_absorbWord {c : List Byte} (h : c.length ≤ 8) {s : State} (hs : s.cfgValid = true) :
    exec (decodeCommand (absorbWord c)) s = .next (absorbed c s) := by
  have hn : (BitVec.ofNat 4 c.length).toNat = c.length := Nat.mod_eq_of_lt (by omega)
  have hv : (BitVec.ofNat 4 c.length).setWidth 32 = BitVec.ofNat 32 c.length :=
    BitVec.setWidth_ofNat_of_le_of_lt (by decide) (by omega)
  rw [absorbWord, decodeCommand_absorb (cmdOp_commandWord ..), exec_decodeAbsorb, cmdN_commandWord, cmdData_commandWord,
    absorbCommand_of_ok _ hs (by omega), hn, hv, messageBytes_packBytes h, absorbed]

theorem absorbed_sameConfig (m : List Byte) (s : State) : SameConfig s (absorbed m s) := by
  rw [absorbed_frame]
  exact ⟨rfl, rfl, rfl, rfl, rfl, rfl⟩

theorem absorbed_ready (m : List Byte) {s : State} (hs : Ready s) : Ready (absorbed m s) := by
  obtain ⟨-, -, hlt, -⟩ := absorbed_spec m hs
  obtain ⟨hvalid, -, hrate, -⟩ := absorbed_sameConfig m s
  obtain ⟨hcfg, hpos, hle, -⟩ := hs
  rw [Ready, hvalid, hrate]
  exact ⟨hcfg, hpos, hle, hlt⟩

/-! ### Sequences of ABSORB commands -/

/-- `t` is what staging the bytes `m` makes of the configured SF `s`: the message is StageByte of the bytes in order,
BLEN counts the staged ones, and the construction is the same. -/
structure Staged (m : List Byte) (s t : State) : Prop where
  ready : Ready t
  message : (t.sponge, stagedTail t) = m.foldl (stagePair s.rate.toNat) (s.sponge, stagedTail s)
  blen : t.blen.toNat = (stagedTail t).length
  config : SameConfig s t
  bufZero : BufZero s → BufZero t

theorem staged_nil {s : State} (hs : Ready s) : Staged [] s s := by
  refine ⟨hs, rfl, ?_, ⟨rfl, rfl, rfl, rfl, rfl, rfl⟩, id⟩
  obtain ⟨-, -, hle, hlt⟩ := hs
  exact (stagedTail_length s (by omega)).symm

theorem staged_absorbed (c : List Byte) {s : State} (hs : Ready s) : Staged c s (absorbed c s) := by
  obtain ⟨hmessage, hblen, -, -⟩ := absorbed_spec c hs
  refine ⟨absorbed_ready c hs, hmessage, hblen, absorbed_sameConfig c s, fun hzero => ?_⟩
  obtain ⟨-, -, hle, hlt⟩ := hs
  exact absorbBytes_bufZero c { s with ipos := 0, started := true } hle hlt hzero

theorem staged_append {m m' : List Byte} {s t u : State} (h : Staged m s t) (h' : Staged m' t u) :
    Staged (m ++ m') s u := by
  have hrate : t.rate = s.rate := by
    obtain ⟨-, -, hrate, -⟩ := h.config
    exact hrate
  refine ⟨h'.ready, ?_, h'.blen, sameConfig_trans h.config h'.config, fun hzero => h'.bufZero (h.bufZero hzero)⟩
  rw [h'.message, h.message, hrate, List.foldl_append]

/-- The chunks are staged one after another, and each is answered with its length. By induction on the chunks. -/
theorem execAll_absorbWords {chunks : List (List Byte)} {s : State} (hs : Ready s)
    (hlen : ∀ c ∈ chunks, c.length ≤ 8) : ∃ t rs, execAll (chunks.map absorbWord) s = some (t, rs) ∧
      Staged chunks.flatten s t ∧ rs.map (fun r => (rspValue r).toNat) = chunks.map List.length := by
  induction chunks generalizing s with
  | nil => exact ⟨s, [], rfl, staged_nil hs, rfl⟩
  | cons c chunks ih =>
    obtain ⟨hc, hchunks⟩ := List.forall_mem_cons.1 hlen
    obtain ⟨t, rs, hexec, hstaged, hvalues⟩ := ih (absorbed_ready c hs) hchunks
    have hvalue : (rspValue (absorbed c s).rspr).toNat = c.length := by
      rw [absorbed_frame, rspValue_responseWord]
      exact Nat.mod_eq_of_lt (by omega)
    refine ⟨t, (absorbed c s).rspr :: rs, ?_, staged_append (staged_absorbed c hs) hstaged, ?_⟩
    · rw [List.map_cons, execAll_cons (exec_absorbWord hc hs.1), hexec]
      rfl
    · rw [List.map_cons, List.map_cons, hvalue, hvalues]

/-! ### The closed form (41_sponge.md R102) -/

/-- The first q blocks of a longer message are the same. -/
theorem absorbedBlocks_append (rate : Nat) (M N : List Byte) (A : Lanes) {q : Nat} (h : q * rate ≤ M.length) :
    absorbedBlocks rate (M ++ N) A q = absorbedBlocks rate M A q := by
  induction q with
  | zero => rfl
  | succ q ih =>
    have hq : q * rate + rate ≤ M.length := by rwa [Nat.succ_mul] at h
    have hroom : rate ≤ (M.drop (q * rate)).length := by rw [List.length_drop]; omega
    rw [absorbedBlocks, absorbedBlocks, ih (by omega), List.drop_append_of_le_length (by omega),
      List.take_append_of_le_length hroom]

/-- A byte that fills a block counts one block more. -/
theorem succ_div_of_full {n rate : Nat} (h : n % rate + 1 = rate) : (n + 1) / rate = n / rate + 1 := by
  have hsplit := Nat.div_add_mod n rate
  exact Nat.succ_div_of_dvd ⟨n / rate + 1, by rw [Nat.mul_succ]; omega⟩

/-- A byte that fills no block counts no block more. -/
theorem succ_div_of_room {n rate : Nat} (h : n % rate + 1 < rate) : (n + 1) / rate = n / rate := by
  have hone : 1 % rate = 1 := Nat.mod_eq_of_lt (by omega)
  have hmod : (n + 1) % rate = n % rate + 1 % rate := Nat.add_mod_of_add_mod_lt (by omega)
  exact Nat.succ_div_of_not_dvd fun hdvd => by rw [Nat.mod_eq_zero_of_dvd hdvd] at hmod; omega

/-- StageByte over a message from an empty buffer: the full blocks are absorbed and the rest is staged. By induction on
the message, a byte at its end at a time. -/
theorem foldl_stagePair {rate : Nat} (hpos : 1 ≤ rate) (M : List Byte) (A : Lanes) :
    M.foldl (stagePair rate) (A, []) =
      (absorbedBlocks rate M A (M.length / rate), M.drop (M.length / rate * rate)) := by
  induction M using List.reverseRecOn with
  | nil => simp [absorbedBlocks]
  | append_singleton M b ih =>
    have hdiv : M.length / rate * rate ≤ M.length := Nat.div_mul_le_self ..
    have htail : (M.drop (M.length / rate * rate)).length = M.length % rate := by
      rw [List.length_drop, Nat.mod_eq_sub_div_mul]
    have hlen : (M ++ [b]).length = M.length + 1 := List.length_append
    have hmod : M.length % rate < rate := Nat.mod_lt _ hpos
    rw [List.foldl_append, ih, List.foldl_cons, List.foldl_nil, stagePair, htail, hlen]
    by_cases hfull : M.length % rate + 1 = rate
    · have hblock : ((M ++ [b]).drop (M.length / rate * rate)).take rate = M.drop (M.length / rate * rate) ++ [b] := by
        rw [List.drop_append_of_le_length hdiv]
        exact List.take_of_length_le (by rw [List.length_append, htail, List.length_singleton]; omega)
      have hrest : (M ++ [b]).drop ((M.length / rate + 1) * rate) = [] := by
        have hsplit := Nat.div_add_mod' M.length rate
        exact List.drop_eq_nil_of_le (by rw [hlen, Nat.succ_mul]; omega)
      rw [if_pos hfull, succ_div_of_full hfull, absorbedBlocks, absorbedBlocks_append rate M [b] A hdiv, hblock, hrest]
    · rw [if_neg hfull, succ_div_of_room (by omega), absorbedBlocks_append rate M [b] A hdiv,
        List.drop_append_of_le_length hdiv]

/-- Settles O40: from an empty message the chunks joined are staged, whose closed form is R102. -/
theorem closedFormOfTheAbsorbingState : Obligations.ClosedFormOfTheAbsorbingState := by
  unfold Obligations.ClosedFormOfTheAbsorbingState
  intro s chunks hs hsponge hblen hlen M q
  obtain ⟨t, rs, hexec, hstaged, -⟩ := execAll_absorbWords hs hlen
  have hempty : stagedTail s = [] := by rw [stagedTail, hblen]; rfl
  have hmessage := hstaged.message
  rw [hsponge, hempty, foldl_stagePair hs.2.1, Prod.mk.injEq] at hmessage
  obtain ⟨hblocks, htail⟩ := hmessage
  refine ⟨t, rs, hexec, hblocks, ?_, htail⟩
  rw [hstaged.blen, htail, List.length_drop, Nat.mod_eq_sub_div_mul]

/-! ### Streaming equivalence (41_sponge.md R109) -/

/-- A buffer that is 0 from BLEN on is its staged bytes. -/
theorem buf_eq_of_stagedTail {t u : State} (hblen : u.blen = t.blen) (htail : stagedTail u = stagedTail t)
    (ht : BufZero t) (hu : BufZero u) : u.buf = t.buf := by
  ext k hk : 1
  by_cases hlt : k < t.blen.toNat
  · have hbyte := congrArg (·[k]?) htail
    simpa [stagedTail, hblen, hlt, hk] using hbyte
  · have hge : t.blen.toNat ≤ k := Nat.le_of_not_lt hlt
    exact (hu ⟨k, hk⟩ (by rw [hblen]; exact hge)).trans (ht ⟨k, hk⟩ hge).symm

theorem staged_unique {m : List Byte} {s t u : State} (hzero : BufZero s) (ht : Staged m s t) (hu : Staged m s u) :
    SamePersistent t u := by
  have hmessage := hu.message.trans ht.message.symm
  rw [Prod.mk.injEq] at hmessage
  obtain ⟨hsponge, htail⟩ := hmessage
  have hblen : u.blen = t.blen := BitVec.eq_of_toNat_eq (by rw [hu.blen, ht.blen, htail])
  obtain ⟨hcfg, hfam, hrate, hsuffix, hxof, hout⟩ := ht.config
  obtain ⟨hcfg', hfam', hrate', hsuffix', hxof', hout'⟩ := hu.config
  exact ⟨hsponge, buf_eq_of_stagedTail hblen htail (ht.bufZero hzero) (hu.bufZero hzero), hblen, hcfg'.trans hcfg.symm,
    hfam'.trans hfam.symm, hrate'.trans hrate.symm, hsuffix'.trans hsuffix.symm, hxof'.trans hxof.symm,
    hout'.trans hout.symm⟩

/-- Settles O41: both runs stage the same bytes. -/
theorem streamingEquivalence : Obligations.StreamingEquivalence := by
  unfold Obligations.StreamingEquivalence
  intro s cs ds hs hzero hcs hds hflat
  obtain ⟨t, rs, ht, hstaged, -⟩ := execAll_absorbWords hs hcs
  obtain ⟨u, qs, hu, hstaged', -⟩ := execAll_absorbWords hs hds
  rw [hflat] at hstaged
  exact ⟨t, u, rs, qs, ht, hu, staged_unique hzero hstaged hstaged'⟩

/-! ### WRITE (30_encoding.md R77) -/

/-- The chunk of each line of WRITE. -/
def writeChunks (bytes : List Byte) : List (List Byte) :=
  (List.range (max 1 (ceilDiv bytes.length 8))).map fun c => (bytes.drop (8 * c)).take 8

theorem length_writeChunk {bytes c : List Byte} (h : c ∈ writeChunks bytes) : c.length ≤ 8 := by
  obtain ⟨i, -, rfl⟩ := List.mem_map.1 h
  exact List.length_take_le ..

/-- Chunks of eight bytes, enough of them, join to the whole. -/
theorem flatten_chunks (bytes : List Byte) (n : Nat) :
    ((List.range n).map fun c => (bytes.drop (8 * c)).take 8).flatten = bytes.take (8 * n) := by
  induction n with
  | zero => simp
  | succ n ih =>
    rw [List.range_succ, List.map_append, List.flatten_append, ih, List.map_singleton, List.flatten_singleton,
      Nat.mul_succ, List.take_add]

theorem flatten_writeChunks (bytes : List Byte) : (writeChunks bytes).flatten = bytes := by
  have hle : bytes.length ≤ ceilDiv bytes.length 8 * 8 := le_ceilDiv_mul (by decide) _
  rw [writeChunks, flatten_chunks]
  exact List.take_of_length_le (by omega)

theorem asmBytes_toNat (c : List Byte) : asmBytes (c.map BitVec.toNat) = some c := by
  induction c with
  | nil => rfl
  | cons b c ih => rw [List.map_cons, asmBytes, ih, asmField_toNat]

theorem assemble_chunk {c : List Byte} (h : c.length ≤ 8) :
    assemble (.absorbList (c.map BitVec.toNat)) = some (absorbWord c) :=
  assemble_absorbList (asmBytes_toNat c) h

theorem mapM_some_of_forall {α β : Type} {f : α → Option β} {g : α → β} {l : List α} (h : ∀ x ∈ l, f x = some (g x)) :
    l.mapM f = some (l.map g) := by
  induction l with
  | nil => rfl
  | cons x l ih =>
    obtain ⟨hx, hl⟩ := List.forall_mem_cons.1 h
    simp [hx, ih hl]

/-- The lines of WRITE assemble to the ABSORB words of its chunks. -/
theorem assemble_write (bytes : List Byte) :
    (expand (.write bytes)).mapM assemble = some ((writeChunks bytes).map absorbWord) := by
  by_cases hempty : bytes = []
  · subst hempty
    rfl
  · have hpos : 0 < bytes.length := List.length_pos_iff.2 hempty
    have hmax : max 1 (ceilDiv bytes.length 8) = ceilDiv bytes.length 8 := by
      rw [ceilDiv]
      omega
    rw [expand, if_neg hempty, writeChunks, hmax, List.mapM_map, List.map_map]
    exact mapM_some_of_forall fun c _ => assemble_chunk (List.length_take_le ..)

/-- Settles O44: the lines assemble to the words of the chunks, which stage the bytes joined. -/
theorem writeAbsorbsItsBytes : Obligations.WriteAbsorbsItsBytes := by
  unfold Obligations.WriteAbsorbsItsBytes
  intro bytes ws
  have hws : ws = (writeChunks bytes).map absorbWord := by
    rw [writeChunks, List.map_map]; rfl
  refine ⟨hws ▸ assemble_write bytes, fun w hw => ?_, fun s hs => ?_⟩
  · obtain ⟨c, -, rfl⟩ := List.mem_map.1 hw
    exact cmdOp_commandWord ..
  · obtain ⟨t, rs, hexec, hstaged, hvalues⟩ := execAll_absorbWords hs fun c => length_writeChunk (bytes := bytes)
    rw [flatten_writeChunks] at hstaged
    refine ⟨t, rs, hws ▸ hexec, hstaged.message, ?_⟩
    rw [hvalues, ← List.length_flatten, flatten_writeChunks]

end Sys2Proof.Machine
end

section
/-! Proofs of the statements about single edges of SF: EXEC, WAIT_KP, reset and refusal (43_sponge_fsm.md,
70_reset_and_hazards.md). -/

namespace Sys2Proof.Machine

open Sys2Proof.Claims

/-! ### SF's work in EXEC -/

theorem sfWork_of_stall {p : SfPins} {a : State} (hph : a.ph = .exec) (hstall : p.stall = true) :
    sfWork p a = .next a := by
  rw [sfWork, hph, hstall]
  rfl

theorem sfWork_begins {p : SfPins} {a : State} (hph : a.ph = .exec) (hstall : p.stall = false)
    (hs : a.started = false) : sfWork p a = beginCommand a := by
  rw [sfWork, hph, hstall, hs]
  rfl

theorem sfWork_continues {p : SfPins} {a : State} (hph : a.ph = .exec) (hstall : p.stall = false)
    (hs : a.started = true) : sfWork p a = .next (continueCommand a) := by
  rw [sfWork, hph, hstall, hs]
  rfl

theorem sfWork_of_waitKp {p : SfPins} {a : State} (hph : a.ph = .waitKp) : sfWork p a = waitEdge p.rounds a := by
  rw [sfWork, hph]

theorem beginCommand_of_transaction {a : State} (h : a.level = .transaction) :
    beginCommand a = exec (decodeCommand a.cmdr) a := by
  rw [beginCommand, h]

/-! ### Steps of SF in EXEC and WAIT_KP -/

theorem step_exec_begins {s : State} {p : SfPins} {rest : List Input} (hin : SfEdgeNext s p rest)
    (hrst : p.rst = false) (hold : Holds s.offer p) (hph : s.ph = .exec) (hstall : p.stall = false)
    (hs : s.started = false) : step s = beginCommand { s with inputs := rest, offer := raised p } := by
  rw [step_of_sfEdgeNext hin hrst hold, atEdge, offerAfter_of_busy (by simp [hph])]
  exact sfWork_begins hph hstall hs

theorem step_exec_continues {s : State} {p : SfPins} {rest : List Input} (hin : SfEdgeNext s p rest)
    (hrst : p.rst = false) (hold : Holds s.offer p) (hph : s.ph = .exec) (hstall : p.stall = false)
    (hs : s.started = true) : step s = .next (continueCommand { s with inputs := rest, offer := raised p }) := by
  rw [step_of_sfEdgeNext hin hrst hold, atEdge, offerAfter_of_busy (by simp [hph])]
  exact sfWork_continues hph hstall hs

theorem step_exec_stalls {s : State} {p : SfPins} {rest : List Input} (hin : SfEdgeNext s p rest)
    (hrst : p.rst = false) (hold : Holds s.offer p) (hph : s.ph = .exec) (hstall : p.stall = true) :
    step s = .next { s with inputs := rest, offer := raised p } := by
  rw [step_of_sfEdgeNext hin hrst hold, atEdge, offerAfter_of_busy (by simp [hph])]
  exact sfWork_of_stall hph hstall

theorem step_waitKp {s : State} {p : SfPins} {rest : List Input} (hin : SfEdgeNext s p rest)
    (hrst : p.rst = false) (hold : Holds s.offer p) (hph : s.ph = .waitKp) :
    step s = waitEdge p.rounds { s with inputs := rest, offer := raised p } := by
  rw [step_of_sfEdgeNext hin hrst hold, atEdge, offerAfter_of_busy (by simp [hph])]
  exact sfWork_of_waitKp hph

/-- At the transaction level the first EXEC edge is the command's meaning. -/
theorem step_exec_command {s : State} {p : SfPins} {rest : List Input} (hin : SfEdgeNext s p rest)
    (hrst : p.rst = false) (hold : Holds s.offer p) (hph : s.ph = .exec) (hstall : p.stall = false)
    (hs : s.started = false) (hlevel : s.level = .transaction) :
    step s = exec (decodeCommand s.cmdr) { s with inputs := rest, offer := raised p } := by
  rw [step_exec_begins hin hrst hold hph hstall hs]
  exact beginCommand_of_transaction hlevel

theorem holds_of_none {o : Option Word128} (h : o = none) (p : SfPins) : Holds o p := by
  intro w hw
  rw [h] at hw
  cases hw

/-! ### Placed instructions -/

theorem decode_natBytes_command (v : Nat) : decode (natBytes 16 v) = .ok (decodeCommand (BitVec.ofNat 128 v)) := by
  have hword : BitVec.ofNat 128 (v % 256 ^ 16) = BitVec.ofNat 128 v :=
    BitVec.eq_of_toNat_eq (by simp)
  rw [decode, packetOfBytes, natBytes_length, if_pos rfl, bytesNat_natBytes, hword]
  rfl

theorem decode_natBytes_bus (v : Nat) : decode (natBytes 200 v) = .ok (.permute (BitVec.ofNat 1600 v)) := by
  have hpow : (256 : Nat) ^ 200 = 2 ^ 1600 := by
    rw [show (256 : Nat) = 2 ^ 8 by rfl, ← pow_mul]
  have hword : BitVec.ofNat 1600 (v % 256 ^ 200) = BitVec.ofNat 1600 v :=
    BitVec.eq_of_toNat_eq (by simp only [hpow, BitVec.toNat_ofNat, Nat.mod_mod])
  rw [decode, packetOfBytes, natBytes_length, if_neg (by decide), if_pos rfl, bytesNat_natBytes, hword]
  rfl

/-- A table word of 1 to 128 bits is a command word, and any other that decodes is a KP bus. -/
theorem decodeTableWord_eq_some {nbits w : Nat} {i : Instr} (h : decodeTableWord nbits w = some i) :
    if nbits = 0 ∨ 128 < nbits then i = .permute (BitVec.ofNat 1600 (w % 2 ^ nbits))
    else i = decodeCommand (BitVec.ofNat 128 (w % 2 ^ nbits)) := by
  rw [decodeTableWord] at h
  by_cases h0 : nbits = 0
  · rw [if_pos (.inl h0)]
    rw [if_pos h0, decode_natBytes_bus] at h
    exact (Option.some.inj h).symm
  by_cases h128 : nbits ≤ 128
  · rw [if_neg (by omega)]
    rw [if_neg h0, if_pos h128, decode_natBytes_command] at h
    exact (Option.some.inj h).symm
  · rw [if_pos (by omega)]
    rw [if_neg h0, if_neg h128] at h
    split at h
    · rw [decode_natBytes_bus] at h
      exact (Option.some.inj h).symm
    · cases h

theorem decodeCommand_ne_permute (w : Word128) (bus : Bus) : decodeCommand w ≠ .permute bus := by
  intro h
  obtain ⟨n, rate, sufx, len, data, henc⟩ := encodePacket_decodeCommand w
  rw [h] at henc
  cases henc

theorem step_kp_handshake {s : State} {p : KpPins} {rest : List Input} (hin : s.inputs = .kp p :: rest)
    (hrst : p.rst = false) (hv : p.pInValid = true) (hk : s.alone.kph = .idle) :
    step s = exec (.permute p.pInState) { s with inputs := rest } := by
  rw [step_kp hin]
  simp only [kpEdge, hrst, hk, hv]
  rfl

theorem step_placePermute (bus : Bus) (s : State) :
    step (placePermute bus s) = exec (.permute bus) { s with alone := { s.alone with kph := .idle } } :=
  step_kp_handshake (s := placePermute bus s) (p := KpPins.feeding bus) (rest := s.inputs) rfl rfl rfl rfl

theorem step_placeCommand (c : Word128) (s : State) :
    step (placeCommand c s) = exec (decodeCommand c)
      { s with cmdr := c, ph := .exec, started := false, level := .transaction, offer := none } :=
  step_exec_command (s := placeCommand c s) (.inl rfl) rfl (holds_of_none rfl _) rfl rfl rfl rfl

/-- Settles O46: an EXEC edge and an input handshake by their pins, and a placed instruction as one of the two. -/
theorem aStepRunsTheDecodedInstruction : Obligations.AStepRunsTheDecodedInstruction := by
  unfold Obligations.AStepRunsTheDecodedInstruction
  refine ⟨fun s p rest hin hrst hstall hold hph hs hlevel => step_exec_command hin hrst hold hph hstall hs hlevel,
    fun s p rest hin hrst hv hk => step_kp_handshake hin hrst hv hk, fun s nbits w i hi => ?_⟩
  have hdecoded := decodeTableWord_eq_some hi
  rw [State.withFetchWord]
  split_ifs at hdecoded ⊢
  · subst hdecoded
    exact ⟨_, step_placePermute _ s, fun _ _ => rfl, fun hne => absurd rfl (hne _)⟩
  · subst hdecoded
    exact ⟨_, step_placeCommand _ s, fun bus hbus => absurd hbus (decodeCommand_ne_permute _ bus),
      fun _ => ⟨_, rfl, rfl⟩⟩

/-! ### SF and its KP -/

/-- What SF asks of its KP, which is `k`, at an EXEC edge to `t`: with a state to drive, KP has taken it and SF waits;
without one, KP is as it was and SF does not wait. -/
def Drives (request : Option Lanes) (k : Kp) (t : State) : Prop :=
  match request with
  | some A => t.kp = Kp.load A ∧ t.ph = .waitKp
  | none => t.kp = k ∧ t.ph ≠ .waitKp

theorem kpRequest_drives {a : State} (A : Lanes) (h : a.kp.kph = .idle) : Drives (some A) a.kp (kpRequest A a) := by
  rw [kpRequest, if_pos h]
  exact ⟨rfl, rfl⟩

theorem absorbEdge_drives {a : State} (hph : a.ph = .exec) (hk : a.kp.kph = .idle) :
    Drives (if a.blen = a.rate then some (blockInput a) else none) a.kp (absorbEdge a) := by
  unfold absorbEdge
  split_ifs
  · exact kpRequest_drives _ hk
  · exact ⟨rfl, by simp [hph]⟩
  · exact ⟨rfl, by simp [respondOk]⟩

theorem finalizeStart_drives {a : State} (hk : a.kp.kph = .idle) :
    Drives (some (padInput a)) a.kp (finalizeStart a) := by
  rw [finalizeStart, if_pos hk]
  exact kpRequest_drives (a := beginOutput (outputLength ((cmdN a.cmdr).getLsbD 0) (cmdLen a.cmdr) a) a) _ hk

theorem finalizeEdge_drives {a : State} (hph : a.ph = .exec) (hk : a.kp.kph = .idle) :
    Drives (if a.opos = a.otot ∨ rspNb a.rspr = 8 then none else if a.zpos = a.rate then some a.z else none) a.kp
      (finalizeEdge a) := by
  unfold finalizeEdge
  split_ifs
  · exact ⟨rfl, by simp [presentOutput]⟩
  · exact kpRequest_drives _ hk
  · exact ⟨rfl, by simp [hph]⟩

/-- The latched command is an ABSORB or a FINALIZE that passes its checks. -/
abbrev Works (a : State) : Prop :=
  a.cfgValid = true ∧ ((cmdOp a.cmdr = 0x2 ∧ (cmdN a.cmdr).toNat ≤ 8) ∨ cmdOp a.cmdr = 0x3)

theorem works_of_pass {a : State} (hop : cmdOp a.cmdr = 0x2 ∨ cmdOp a.cmdr = 0x3)
    (h : firstError a.cfgValid (cmdOp a.cmdr) (cmdN a.cmdr) (cmdRate a.cmdr) (cmdSufx a.cmdr) = none) : Works a := by
  have hv : a.cfgValid = true := by
    by_contra hv
    have hneeds : needsConfig (cmdOp a.cmdr) (cmdN a.cmdr) = true := (needsConfig_iff _ _).2 (by tauto)
    rw [Bool.not_eq_true] at hv
    rw [hv, firstError_of_unconfigured _ _ hneeds] at h
    cases h
  refine ⟨hv, hop.imp_left fun h2 => ⟨h2, ?_⟩⟩
  by_contra hn
  rw [hv, h2, firstError_absorb, if_pos (Nat.lt_of_not_le hn)] at h
  cases h

/-- Any other command is its meaning at once, at the cycle level too. -/
theorem beginCommand_of_not_works {a : State} (h : ¬Works a) : beginCommand a = exec (decodeCommand a.cmdr) a := by
  rcases beginCommand_cases a with e | ⟨-, hv, h2, hn, -⟩ | ⟨-, hv, h3, -⟩
  · exact e
  · exact absurd ⟨hv, .inl ⟨h2, hn⟩⟩ h
  · exact absurd ⟨hv, .inr h3⟩ h

theorem beginCommand_absorb {a : State} (hlevel : a.level = .cycle) (hv : a.cfgValid = true)
    (h2 : cmdOp a.cmdr = 0x2) (hn : (cmdN a.cmdr).toNat ≤ 8) :
    beginCommand a = .next (absorbEdge { a with ipos := 0, started := true }) := by
  simp [beginCommand, hlevel, hv, h2, hn, Config.beatBytes]

theorem beginCommand_finalize {a : State} (hlevel : a.level = .cycle) (hv : a.cfgValid = true)
    (h3 : cmdOp a.cmdr = 0x3) : beginCommand a = .next (finalizeStart a) := by
  simp [beginCommand, hlevel, hv, h3]

/-- A command that is no ABSORB or FINALIZE at work leaves SF's KP alone. -/
theorem exec_drives_none {a t : State} (h : ¬Works a) (hexec : exec (decodeCommand a.cmdr) a = .next t) :
    Drives none a.kp t := by
  rcases exec_command_cases a.cmdr a with ⟨e, -, -, -, herror⟩ | ⟨hpass, hok⟩
  · cases hexec.symm.trans herror
    exact ⟨rfl, by simp⟩
  · cases hexec.symm.trans hok
    rw [ruleOf, if_neg (fun h2 => h (works_of_pass (.inl h2) hpass)), if_neg (fun h3 => h (works_of_pass (.inr h3) hpass))]
    split_ifs
    · cases presetOf (cmdN a.cmdr) <;> exact ⟨rfl, by simp [construct, respondOk]⟩
    all_goals exact ⟨rfl, by simp [respondOk]⟩

theorem kpRequested_of_exec {s : State} (hph : s.ph = .exec) (hlevel : s.level = .cycle) : kpRequested s =
    if s.cfgValid = true then
      if cmdOp s.cmdr = 0x2 then (if s.blen = s.rate then some (blockInput s) else none)
      else if cmdOp s.cmdr = 0x3 then
        if !s.started then some (padInput s)
        else if s.opos = s.otot ∨ rspNb s.rspr = 8 then none
        else if s.zpos = s.rate then some s.z
        else none
      else none
    else none := by
  simp only [kpRequested, hph, hlevel, true_and]

/-- The first EXEC edge at the cycle level: only a FINALIZE drives KP, since BLEN < RATE. -/
theorem beginCommand_drives {a : State} (h : a.Inv) (hph : a.ph = .exec) (hlevel : a.level = .cycle)
    (hs : a.started = false) : ∃ t, beginCommand a = .next t ∧ Drives (kpRequested a) a.kp t := by
  have hk := idle_of_exec a h hph
  have hroom (hv : a.cfgValid = true) : a.blen ≠ a.rate := by
    intro heq
    obtain ⟨-, -, -, hlt⟩ := inv_ready a h hv (not_absorbing_of_not_started hs)
    rw [heq] at hlt
    exact absurd hlt (lt_irrefl _)
  rw [kpRequested_of_exec hph hlevel, hs, Bool.not_false, if_pos rfl]
  by_cases hworks : Works a
  · obtain ⟨hv, ⟨h2, hn⟩ | h3⟩ := hworks
    · have hdrives := absorbEdge_drives (a := { a with ipos := 0, started := true }) hph hk
      rw [if_neg (hroom hv)] at hdrives
      rw [if_pos hv, if_pos h2, if_neg (hroom hv)]
      exact ⟨_, beginCommand_absorb hlevel hv h2 hn, hdrives⟩
    · rw [if_pos hv, if_neg (by rw [h3]; decide), if_pos h3]
      exact ⟨_, beginCommand_finalize hlevel hv h3, finalizeStart_drives hk⟩
  · obtain ⟨t, ht⟩ := exec_command_next a.cmdr a
    refine ⟨t, (beginCommand_of_not_works hworks).trans ht, ?_⟩
    split_ifs with hv h2 hfull h3
    · exact absurd hfull (hroom hv)
    · exact exec_drives_none hworks ht
    · exact absurd ⟨hv, .inr h3⟩ hworks
    all_goals exact exec_drives_none hworks ht

/-- A later EXEC edge at the cycle level, of an ABSORB or a FINALIZE. -/
theorem continueCommand_drives {a : State} (h : a.Inv) (hph : a.ph = .exec) (hlevel : a.level = .cycle)
    (hs : a.started = true) : Drives (kpRequested a) a.kp (continueCommand a) := by
  have hk := idle_of_exec a h hph
  obtain ⟨hv, -⟩ := h.phase.2.2.1 (.inl hph) hs
  rw [kpRequested_of_exec hph hlevel, if_pos hv, continueCommand, hlevel]
  rcases working_op h (.inl hph) hs with hop | hop
  · rw [if_pos hop, if_pos hop]
    exact absorbEdge_drives hph hk
  · have h2 : cmdOp a.cmdr ≠ 0x2 := by rw [hop]; decide
    rw [if_neg h2, if_neg h2, if_pos hop, hs]
    exact finalizeEdge_drives hph hk

/-- What SF has to drive does not depend on the agenda and the raised command. -/
theorem kpRequested_atEdge (s : State) (rest : List Input) (o : Option Word128) :
    kpRequested { s with inputs := rest, offer := o } = kpRequested s := rfl

theorem kpInState_of_not_stalled {p : SfPins} (s : State) (hrst : p.rst = false) (hstall : p.stall = false) :
    kpInState p s = (kpRequested s).map packLanes := by
  cases hr : kpRequested s <;> simp [kpInState, kpInValid, hrst, hstall, hr]

theorem step_drives {s : State} {p : SfPins} {rest : List Input} (h : s.Inv) (hin : SfEdgeNext s p rest)
    (hrst : p.rst = false) (hstall : p.stall = false) (hold : Holds s.offer p) (hph : s.ph = .exec)
    (hlevel : s.level = .cycle) : ∃ t, step s = .next t ∧ Drives (kpRequested s) s.kp t := by
  have ha : State.Inv { s with inputs := rest, offer := raised p } := inv_atEdge s h rest (raised p)
  rw [← kpRequested_atEdge s rest (raised p)]
  rcases Bool.eq_false_or_eq_true s.started with hs | hs
  · exact ⟨_, step_exec_continues hin hrst hold hph hstall hs, continueCommand_drives ha hph hlevel hs⟩
  · rw [step_exec_begins hin hrst hold hph hstall hs]
    exact beginCommand_drives ha hph hlevel hs

/-- Settles O49: by what SF has to drive; a stalled edge drives nothing. -/
theorem kpTakesWhatSfDrives : Obligations.KpTakesWhatSfDrives := by
  unfold Obligations.KpTakesWhatSfDrives
  refine ⟨fun s p rest hin hrst hstall hold hph => ?_, fun s p rest h hin hrst hstall hold hph hlevel => ?_⟩
  · have hquiet : kpInValid p s = false := by simp [kpInValid, hstall]
    exact ⟨hquiet, by simp [kpInState, hquiet], step_exec_stalls hin hrst hold hph hstall⟩
  · obtain ⟨t, hstep, hdrives⟩ := step_drives h hin hrst hstall hold hph hlevel
    refine ⟨by simp [kpOutReady, hph], by simp [Kp.inReady, idle_of_exec s h hph], by simp [kpInValid, hrst, hstall],
      t, hstep, ?_⟩
    rw [kpInState_of_not_stalled s hrst hstall]
    cases hr : kpRequested s with
    | none =>
      rw [hr] at hdrives
      obtain ⟨hkp, hwait⟩ := hdrives
      exact ⟨by simp [kpOutReady, hwait], hkp⟩
    | some A =>
      rw [hr] at hdrives
      obtain ⟨hkp, hwait⟩ := hdrives
      exact ⟨by simp [kpOutReady, hwait], by simp [hkp, Kp.load], hwait⟩

/-! ### WAIT_KP -/

theorem waitEdge_of_run {a : State} (n : Nat) (h : a.kp.kph = .run) (hk : a.kp.krnd.toNat < 24) :
    waitEdge n a = .next { a with kp := a.kp.roundEdges n } := by
  simp only [waitEdge, h, kpRun_of_lt _ hk]

theorem waitEdge_of_done {a : State} (n : Nat) (h : a.kp.kph = .done) : waitEdge n a = .next (takeKpResult a) := by
  simp only [waitEdge, h]

theorem takeKpResult_of_absorb {a : State} (h : cmdOp a.cmdr = 0x2) :
    takeKpResult a = finishBlock { a with kp := a.kp.take, ph := .exec } :=
  if_pos h

theorem takeKpResult_of_finalize {a : State} (h : cmdOp a.cmdr = 0x3) :
    takeKpResult a = loadZ { a with kp := a.kp.take, ph := .exec } :=
  if_neg (by show cmdOp a.cmdr ≠ 0x2; rw [h]; decide)

/-- Settles O50: an edge of WAIT_KP by the phase of KP, and the result by OP. -/
theorem kpResultReachesItsRegister : Obligations.KpResultReachesItsRegister := by
  unfold Obligations.KpResultReachesItsRegister
  intro s p rest hin hrst hold hph
  rw [step_waitKp hin hrst hold hph]
  refine ⟨by simp [kpOutReady, hph], fun hrun hk => ?_, fun hdone => ⟨Kp.outValid_of_done hdone, fun hop => ?_,
    fun hop => ?_⟩⟩
  · rw [waitEdge_of_run (a := { s with inputs := rest, offer := raised p }) _ hrun hk]
    exact ⟨by rw [roundEdges_eq_afterRounds _ hrun hk], fun h0 => by rw [h0, Kp.roundEdges]⟩
  · rw [waitEdge_of_done (a := { s with inputs := rest, offer := raised p }) _ hdone,
      takeKpResult_of_absorb (a := { s with inputs := rest, offer := raised p }) hop]
    rfl
  · rw [waitEdge_of_done (a := { s with inputs := rest, offer := raised p }) _ hdone,
      takeKpResult_of_finalize (a := { s with inputs := rest, offer := raised p }) hop]
    rfl

/-! ### A command with one response word -/

theorem decodeCommand_frame {w : Word128} {a t : State} (h : exec (decodeCommand w) a = .next t) :
    t.ph = .rsp ∧ t.inputs = a.inputs ∧ t.offer = a.offer ∧ t.received = a.received := by
  obtain ⟨t', h', hph, -, -, -, hin, hoffer, hrec, -⟩ :=
    everyCommandAnswers (decodeCommand w) a (decodeCommand_ne_permute w)
  cases h.symm.trans h'
  exact ⟨hph, hin, hoffer, hrec⟩

/-- The host takes the LAST word (43_sponge_fsm.md R137). -/
theorem step_takes_last {t : State} {rest : List Input} (hph : t.ph = .rsp) (hin : t.inputs = .sf SfPins.taking :: rest)
    (ho : t.offer = none) (hlast : rspLast t.rspr = true) :
    step t = .next { t with inputs := rest, received := t.received ++ [t.rspr], ph := .idle } := by
  have hready : SfPins.taking.rspReady = true := rfl
  have hoffer : raised SfPins.taking = t.offer := ho.symm
  rw [step_rsp (.inl hin) rfl hph (holds_of_none ho _), if_pos hready, transferResponse, hoffer]
  simp only [hlast, if_true, rspWord]

/-- Settles O51: acceptance, the command's meaning, and the transfer, an edge each. -/
theorem oneWordTransaction : Obligations.OneWordTransaction := by
  unfold Obligations.OneWordTransaction
  intro s t w rest hph hlevel ho hin hexec hlast
  obtain ⟨htph, htin, htoffer, htrec⟩ := decodeCommand_frame hexec
  let accepted : State := acceptCommand w { s with
    inputs := .sf SfPins.quiet :: .sf SfPins.taking :: rest, offer := none }
  have haccept : step s = .next accepted := step_accepts hin rfl hph rfl (holds_of_none ho _)
  have hmeaning : step accepted = .next t := by
    have hoffer : raised SfPins.quiet = s.offer := ho.symm
    rw [step_exec_command (s := accepted) (.inl rfl) rfl (holds_of_none rfl _) rfl rfl rfl hlevel, hoffer]
    exact hexec
  have htake := step_takes_last htph htin (htoffer.trans ho) hlast
  calc run 3 s
    _ = run 2 accepted := run_succ 2 haccept
    _ = run 1 t := run_succ 1 hmeaning
    _ = .next { t with inputs := rest, received := s.received ++ [t.rspr], ph := .idle } := by
      rw [run_succ 0 htake, htrec]
      rfl

/-! ### Reset -/

theorem step_reset {s : State} {p : SfPins} {rest : List Input} (hin : s.inputs = .sf p :: rest) (hrst : p.rst = true) :
    step s = .next { hardwareReset { s with inputs := rest } with offer := offerAfter p s } := by
  rw [step_sf s p rest hin, sfEdge, hrst]
  rfl

theorem step_kp_reset {s : State} {p : KpPins} {rest : List Input} (hin : s.inputs = .kp p :: rest)
    (hrst : p.rst = true) : step s = .next { s with inputs := rest, alone := Kp.reset } := by
  rw [step_kp hin, kpEdge, hrst]
  rfl

theorem zeroLanes_get (i : Fin 25) : zeroLanes[i] = 0 := by simp [zeroLanes]

/-- Settles O52: the ports by `rst`, and a reset edge of each unit, whose registers are those of `State.reset`. -/
theorem hardwareResetFromEveryState : Obligations.HardwareResetFromEveryState := by
  unfold Obligations.HardwareResetFromEveryState
  refine ⟨fun s => ⟨rfl, rfl, rfl, rfl⟩, fun s p rest hin hrst => ⟨_, step_reset hin hrst, ?_⟩,
    fun s p rest hin hrst => step_kp_reset hin hrst⟩
  refine ⟨fun i => ⟨zeroLanes_get i, zeroLanes_get i, zeroLanes_get i⟩, rfl, rfl, zeroBuffer_get, ?_⟩
  exact ⟨rfl, rfl, rfl, rfl, rfl, rfl, rfl, -- BLEN and the configuration registers
    rfl, rfl, rfl, rfl, rfl, rfl, rfl, -- OTOT, OPOS, ZPOS, IPOS, PH, CMDR, RSPR
    rfl, rfl, rfl⟩ -- the response words, the stand-alone KP and `cmd_ready`

/-! ### Refusal -/

theorem breaksOffer_iff (p : SfPins) (s : State) :
    breaksOffer p s = true ↔ ∃ w, s.offer = some w ∧ ¬(p.cmdValid = true ∧ p.cmdWord = w) := by
  unfold breaksOffer
  cases s.offer <;> simp [imp_iff_not_or]

theorem step_sfEdgeNext {s : State} {p : SfPins} {rest : List Input} (hin : SfEdgeNext s p rest) :
    step s = sfEdge p { s with inputs := rest } := by
  rcases hin with hin | ⟨hin, hk, rfl, rfl⟩
  · exact step_sf s p rest hin
  · cases s
    subst hin
    exact if_neg hk

theorem sfEdge_refused_iff (p : SfPins) (a : State) (r : Refusal) :
    sfEdge p a = .refused r ↔ r = .hostChangedCommand ∧ p.rst = false ∧ breaksOffer p a = true := by
  unfold sfEdge
  cases hrst : p.rst with
  | true => simp
  | false =>
    cases hbreaks : breaksOffer p a with
    | true => simp [eq_comm]
    | false =>
      have hwork : sfWork p { a with offer := offerAfter p a } ≠ .refused r := by
        rcases sfWork_next_or_fault p { a with offer := offerAfter p a } with ⟨t, e⟩ | ⟨-, e⟩ <;> simp [e]
      simp [hwork]

theorem kpEdge_ne_refused (p : KpPins) (a : State) (r : Refusal) : kpEdge p a ≠ .refused r := by
  rcases kpEdge_cases p a with ⟨k, taken, e, -⟩ | ⟨-, -, e⟩ <;> simp [e]

/-- Settles O54: the refusal of an edge of SF by its pins; an edge of the stand-alone KP refuses nothing. -/
theorem refusedExactlyWhenTheHostBreaksStability : Obligations.RefusedExactlyWhenTheHostBreaksStability := by
  unfold Obligations.RefusedExactlyWhenTheHostBreaksStability
  intro s r
  constructor
  · intro h
    rcases step_edge s with ⟨p, rest, hin, -⟩ | ⟨p, rest, -, e⟩
    · rw [step_sfEdgeNext hin, sfEdge_refused_iff, breaksOffer_iff] at h
      obtain ⟨hr, hrst, w, hoffer, hbroken⟩ := h
      exact ⟨hr, p, rest, w, hin, hrst, hoffer, hbroken⟩
    · rw [e] at h
      exact absurd h (kpEdge_ne_refused p _ r)
  · rintro ⟨hr, p, rest, w, hin, hrst, hoffer, hbroken⟩
    rw [step_sfEdgeNext hin, sfEdge_refused_iff, breaksOffer_iff]
    exact ⟨hr, hrst, w, hoffer, hbroken⟩

/-! ### Which work writes persistent state -/

/-- S, BUF and BLEN are the same. -/
abbrev SameMessage (s t : State) : Prop := t.sponge = s.sponge ∧ t.buf = s.buf ∧ t.blen = s.blen

theorem ruleOf_sameMessage {w : Word128} (h1 : cmdOp w ≠ 0x1) (h2 : cmdOp w ≠ 0x2) (h4 : cmdOp w ≠ 0x4) (s : State) :
    SameMessage s (ruleOf w s) := by
  rw [ruleOf, if_neg h1, if_neg h2]
  split_ifs
  · obtain ⟨hsp, hbuf, hblen, -⟩ := samePersistent_finalizeTo (outputLength ((cmdN w).getLsbD 0) (cmdLen w) s) s
    exact ⟨hsp, hbuf, hblen⟩
  all_goals exact ⟨rfl, rfl, rfl⟩

/-- From `a` to `t` only what the latched command may write of persistent state is written (42_commands.md R114). -/
def WritesItsOwn (a t : State) : Prop :=
  (SameConfig a t ∨ (a.ph = .exec ∧ cmdOp a.cmdr = 0x1)) ∧
  (SameMessage a t ∨
    ((a.ph = .exec ∨ a.ph = .waitKp) ∧ (cmdOp a.cmdr = 0x1 ∨ cmdOp a.cmdr = 0x2 ∨ cmdOp a.cmdr = 0x4)))

theorem writesItsOwn_of_samePersistent {a t : State} (h : SamePersistent a t) : WritesItsOwn a t := by
  obtain ⟨hsp, hbuf, hblen, hconfig⟩ := h
  exact ⟨.inl hconfig, .inl ⟨hsp, hbuf, hblen⟩⟩

theorem exec_writesItsOwn {a t : State} (hph : a.ph = .exec) (h : exec (decodeCommand a.cmdr) a = .next t) :
    WritesItsOwn a t := by
  constructor
  · by_cases h1 : cmdOp a.cmdr = 0x1
    · exact .inr ⟨hph, h1⟩
    · exact .inl (exec_sameConfig h1 h)
  · by_cases hop : cmdOp a.cmdr = 0x1 ∨ cmdOp a.cmdr = 0x2 ∨ cmdOp a.cmdr = 0x4
    · exact .inr ⟨.inl hph, hop⟩
    · obtain ⟨h1, h2, h4⟩ : cmdOp a.cmdr ≠ 0x1 ∧ cmdOp a.cmdr ≠ 0x2 ∧ cmdOp a.cmdr ≠ 0x4 := by simpa only [not_or] using hop
      rcases exec_command_cases a.cmdr a with ⟨e, -, -, -, herror⟩ | ⟨-, hok⟩
      · cases h.symm.trans herror
        exact .inl ⟨rfl, rfl, rfl⟩
      · cases h.symm.trans hok
        exact .inl (ruleOf_sameMessage h1 h2 h4 a)

/-- An EXEC edge of an ABSORB, which may first set IPOS and the model's own bit. -/
theorem absorbEdge_writesItsOwn {a b : State} (hph : a.ph = .exec) (hop : cmdOp a.cmdr = 0x2) (h : SameConfig a b) :
    WritesItsOwn a (absorbEdge b) := by
  obtain ⟨kp, ph, n, bf, bl, ip, r, -, hframe⟩ := absorbEdge_frame b
  rw [hframe]
  exact ⟨.inl h, .inr ⟨.inl hph, .inr (.inl hop)⟩⟩

theorem continueCommand_writesItsOwn {a : State} (hph : a.ph = .exec) : WritesItsOwn a (continueCommand a) := by
  unfold continueCommand
  split
  · next hop => exact absorbEdge_writesItsOwn hph hop ⟨rfl, rfl, rfl, rfl, rfl, rfl⟩
  · refine writesItsOwn_of_samePersistent ?_
    cases a.level with
    | transaction =>
      obtain ⟨kp, ks, z, zp, op, r, hframe⟩ := outputWord_frame a
      simp only [hframe]
      exact ⟨rfl, rfl, rfl, rfl, rfl, rfl, rfl, rfl, rfl⟩
    | cycle =>
      obtain ⟨kp, ph, n, zp, op, r, -, hframe⟩ := finalizeEdge_frame a
      simp only [hframe]
      exact ⟨rfl, rfl, rfl, rfl, rfl, rfl, rfl, rfl, rfl⟩

theorem takeKpResult_writesItsOwn {a : State} (hph : a.ph = .waitKp) : WritesItsOwn a (takeKpResult a) := by
  by_cases hop : cmdOp a.cmdr = 0x2
  · rw [takeKpResult_of_absorb hop]
    exact ⟨.inl ⟨rfl, rfl, rfl, rfl, rfl, rfl⟩, .inr ⟨.inr hph, .inr (.inl hop)⟩⟩
  · refine writesItsOwn_of_samePersistent ?_
    rw [show takeKpResult a = loadZ { a with kp := a.kp.take, ph := .exec } from if_neg hop]
    exact ⟨rfl, rfl, rfl, rfl, rfl, rfl, rfl, rfl, rfl⟩

theorem sfWork_writesItsOwn {p : SfPins} {a t : State} (h : sfWork p a = .next t) : WritesItsOwn a t := by
  have hkeeps : SamePersistent a a := ⟨rfl, rfl, rfl, rfl, rfl, rfl, rfl, rfl, rfl⟩
  rcases sfWork_next h with ⟨-, -, rfl⟩ | rfl | ⟨hph, -, rfl⟩ | ⟨hph, -, hexec⟩ | ⟨hph, -, -, -, hop, -, rfl⟩ |
    ⟨-, -, -, -, -, rfl⟩ | ⟨-, -, -, rfl⟩ | ⟨hph, -, rfl⟩ | ⟨-, -, rfl⟩
  · exact writesItsOwn_of_samePersistent hkeeps
  · exact writesItsOwn_of_samePersistent hkeeps
  · exact continueCommand_writesItsOwn hph
  · exact exec_writesItsOwn hph hexec
  · exact absorbEdge_writesItsOwn (b := { a with ipos := 0, started := true }) hph hop ⟨rfl, rfl, rfl, rfl, rfl, rfl⟩
  · obtain ⟨kp, ph, n, ot, op, st, r, -, hframe⟩ := finalizeStart_frame a
    rw [hframe]
    exact writesItsOwn_of_samePersistent hkeeps
  · exact writesItsOwn_of_samePersistent hkeeps
  · exact takeKpResult_writesItsOwn hph
  · obtain ⟨-, -, hsame, -⟩ := transferResponse_spec a
    exact writesItsOwn_of_samePersistent hsame

/-- Settles O56: by the kind of step; an edge of the stand-alone KP writes nothing of SF. -/
theorem onlyTheseCommandsWritePersistentState : Obligations.OnlyTheseCommandsWritePersistentState := by
  unfold Obligations.OnlyTheseCommandsWritePersistentState
  intro s t h hreset
  rcases step_next_cases h with ⟨p, rest, hin, hrst, -⟩ | ⟨p, rest, -, -, -, hwork⟩ | ⟨p, rest, k, taken, -, rfl, -⟩
  · exact absurd ⟨p, rest, hin, hrst⟩ hreset
  · have hown := sfWork_writesItsOwn hwork
    exact hown
  · exact ⟨.inl ⟨rfl, rfl, rfl, rfl, rfl, rfl⟩, .inl ⟨rfl, rfl, rfl⟩⟩

end Sys2Proof.Machine
end

section
/-! Proofs of the statements about the response words of FINALIZE (42_commands.md, section FINALIZE). -/

namespace Sys2Proof.Machine

open Sys2Proof.Claims

/-! ### The words of an output -/

/-- The response word of the output bytes from byte o on, at most eight, of an output of `total` bytes. -/
def wordAt (rate : Nat) (Z : Lanes) (total : Word32) (o : Nat) : Word128 :=
  let n := min 8 (total.toNat - o)
  responseWord 0x3 statusOk (BitVec.ofNat 4 n) (decide (o + n = total.toNat)) total (packBytes (streamBytes rate Z o n))

/-- How many response words an output of `total` bytes takes (42_commands.md R122). -/
def wordCount (total : Nat) : Nat := max 1 (ceilDiv total 8)

theorem take_drop_map_range {α : Type} (f : Nat → α) (total o : Nat) :
    (((List.range total).map f).drop o).take 8 = (List.range (min 8 (total - o))).map fun j => f (o + j) := by
  refine List.ext_getElem (by simp) fun j hj hj' => ?_
  simp

/-- LAST is at the word that reaches the total length. -/
theorem wordCount_last {total b : Nat} (h : b < wordCount total) :
    b + 1 = wordCount total ↔ 8 * b + min 8 (total - 8 * b) = total := by
  simp only [wordCount, ceilDiv] at *
  omega

/-- The words of a digest are those of its stream (41_sponge.md R106, 42_commands.md R122). -/
theorem outputWords_digest {rate : Nat} (h : 1 ≤ rate) (suffix : Byte) (A : Lanes) (t : List Byte) (total : Word32) :
    outputWords (digest rate suffix A t total.toNat) = (List.range (wordCount total.toNat)).map fun b =>
      wordAt rate (finalState rate suffix A t) total (8 * b) := by
  have hlen := length_digest h suffix A t total.toNat
  unfold outputWords
  simp only [hlen]
  refine List.map_congr_left fun b hb => ?_
  have hlast := wordCount_last (List.mem_range.1 hb)
  have htotal : BitVec.ofNat 32 total.toNat = total := by simp
  rw [digest_eq_map_streamByte h, take_drop_map_range, htotal, List.length_map, List.length_range, wordAt]
  simp only [wordCount] at hlast
  simp only [hlast]

/-- `outputWord` presents the next word of the output. -/
theorem outputWord_wordAt {Z : Lanes} {k : Nat} {a : State} (h : Emits Z k a) (hw : a.rspr = emptyWord a.otot) :
    (outputWord a).rspr = wordAt a.rate.toNat Z a.otot a.opos.toNat := by
  obtain ⟨-, -, -, hrspr⟩ := outputWord_spec h hw
  exact hrspr

/-- The first word FINALIZE presents is word 0 of its digest. -/
theorem finalizeTo_firstWord {s : State} (hs : Ready s) (total : Word32) :
    (outputWords (digest s.rate.toNat s.suffix s.sponge (stagedTail s) total.toNat))[0]? =
      some (finalizeTo total s).rspr := by
  obtain ⟨-, hpos, hle, -⟩ := hs
  have hcount : 0 < wordCount total.toNat := by
    rw [wordCount]
    omega
  have hfirst := outputWord_wordAt (emits_start s (padInput s) total hpos hle) rfl
  rw [outputWords_digest hpos, List.getElem?_map, List.getElem?_range hcount]
  exact congrArg some hfirst.symm

theorem finalizeCommand_of_configured (useLen : Bool) (len : Word32) {s : State} (hs : s.cfgValid = true) :
    finalizeCommand useLen len s = .next (finalizeTo (outputLength useLen len s) s) :=
  checked_of_ok _ (by rw [hs]; rfl)

theorem finalizeTo_presents {s : State} (hs : Ready s) (total : Word32) :
    (outputWords (digest s.rate.toNat s.suffix s.sponge (stagedTail s) total.toNat))[0]? =
      some (finalizeTo total s).rspr ∧
    finalizeTo total s = { s with
      rspr := (finalizeTo total s).rspr, ph := .rsp, started := true, z := (finalizeTo total s).z, otot := total,
      opos := (finalizeTo total s).opos, zpos := (finalizeTo total s).zpos, kp := (finalizeTo total s).kp,
      kpStarts := (finalizeTo total s).kpStarts } := by
  refine ⟨finalizeTo_firstWord hs total, ?_⟩
  obtain ⟨kp, ks, z, zp, op, r, hframe⟩ := finalizeTo_frame s total
  rw [hframe]

/-- Settles O28: FINALIZE with and without USE_LEN is `finalizeTo` of its length. -/
theorem finalizePresentsTheFirstWord : Obligations.FinalizePresentsTheFirstWord := by
  unfold Obligations.FinalizePresentsTheFirstWord
  intro s len hs q hq
  have hlenFalse : outputLength false 0 s = s.outlen := by simp [outputLength]
  have hlenTrue : outputLength true len s = if s.xof then len else s.outlen := by simp [outputLength]
  fin_cases hq
  · refine ⟨_, finalizeCommand_of_configured false 0 hs.1, ?_⟩
    rw [hlenFalse]
    exact finalizeTo_presents hs s.outlen
  · refine ⟨_, finalizeCommand_of_configured true len hs.1, ?_⟩
    rw [hlenTrue]
    exact finalizeTo_presents hs _

/-! ### The transfer of all the words -/

/-- SF at the transaction level where the next word of a FINALIZE is built: n + 1 words are left, and the agenda has the
edges of a host that takes them, the first edge for the word that is presented next. -/
structure BuildsWords (Z : Lanes) (k n : Nat) (rest : List Input) (a : State) : Prop where
  emits : Emits Z k a
  empty : a.rspr = emptyWord a.otot
  enough : a.otot.toNat ≤ a.opos.toNat + 8 * (n + 1)
  needed : n = 0 ∨ a.opos.toNat + 8 * n < a.otot.toNat
  op : cmdOp a.cmdr = 0x3
  started : a.started = true
  level : a.level = .transaction
  offer : a.offer = none
  inputs : a.inputs = List.replicate (2 * n + 1) (.sf SfPins.taking) ++ rest

/-- What the transfer of the n + 1 words leaves. -/
structure WordsTaken (Z : Lanes) (k n : Nat) (rest : List Input) (a t : State) : Prop where
  received : t.received = a.received ++
    (List.range (n + 1)).map fun b => wordAt a.rate.toNat Z a.otot (a.opos.toNat + 8 * b)
  ph : t.ph = .idle
  same : SamePersistent a t
  inputs : t.inputs = rest
  emits : Emits Z k t
  all : t.opos.toNat = a.otot.toNat

theorem samePersistent_outputWord (a : State) : SamePersistent a (outputWord a) := by
  obtain ⟨kp, ks, z, zp, op, r, hframe⟩ := outputWord_frame a
  rw [hframe]
  exact ⟨rfl, rfl, rfl, rfl, rfl, rfl, rfl, rfl, rfl⟩

/-- Building a word leaves these fields as they are. -/
theorem outputWord_keeps (a : State) : (outputWord a).ph = .rsp ∧ (outputWord a).cmdr = a.cmdr ∧
    (outputWord a).started = a.started ∧ (outputWord a).level = a.level ∧ (outputWord a).offer = a.offer ∧
    (outputWord a).inputs = a.inputs ∧ (outputWord a).received = a.received ∧ (outputWord a).rate = a.rate := by
  obtain ⟨kp, ks, z, zp, op, r, hframe⟩ := outputWord_frame a
  rw [hframe]
  exact ⟨rfl, rfl, rfl, rfl, rfl, rfl, rfl, rfl⟩

/-- The host takes a word that is not the LAST (43_sponge_fsm.md R137). -/
theorem step_takes_word {t : State} {rest : List Input} (hph : t.ph = .rsp) (hin : t.inputs = .sf SfPins.taking :: rest)
    (ho : t.offer = none) (hlast : rspLast t.rspr = false) :
    step t = .next { t with
      inputs := rest, received := t.received ++ [t.rspr], ph := .exec, rspr := emptyWord t.otot } := by
  have hready : SfPins.taking.rspReady = true := rfl
  have hoffer : raised SfPins.taking = t.offer := ho.symm
  rw [step_rsp (.inl hin) rfl hph (holds_of_none ho _), if_pos hready, transferResponse, hoffer]
  simp only [hlast, rspWord]
  rfl

/-- A further word at the transaction level is built at one edge (43_sponge_fsm.md R139). -/
theorem step_builds_word {a : State} {p : SfPins} {rest : List Input} (hin : SfEdgeNext a p rest)
    (hrst : p.rst = false) (hold : Holds a.offer p) (hph : a.ph = .exec) (hstall : p.stall = false)
    (hop : cmdOp a.cmdr = 0x3) (hs : a.started = true) (hlevel : a.level = .transaction) :
    step a = .next (outputWord { a with inputs := rest, offer := raised p }) := by
  have h2 : cmdOp a.cmdr ≠ 0x2 := by rw [hop]; decide
  rw [step_exec_continues hin hrst hold hph hstall hs, continueCommand, if_neg h2, hlevel]

theorem emits_of_frame {Z : Lanes} {k : Nat} {a t : State} (h : Emits Z k a) (hrate : t.rate = a.rate)
    (hzpos : t.zpos = a.zpos) (hopos : t.opos = a.opos) (hotot : t.otot = a.otot) (hz : t.z = a.z)
    (hstarts : t.kpStarts = a.kpStarts) : Emits Z k t := by
  obtain ⟨hpos, hle, hzle, hole, hblock⟩ := h
  exact ⟨hrate ▸ hpos, hrate ▸ hle, by rw [hzpos, hrate]; exact hzle, by rw [hopos, hotot]; exact hole,
    by rw [hz, hopos, hrate, hzpos, hstarts]; exact hblock⟩

/-- Two edges a word, one that takes it and one that builds the next. By induction on the words left. -/
theorem run_words (n : Nat) {Z : Lanes} {k : Nat} {rest : List Input} {a : State} (h : BuildsWords Z k n rest a) :
    ∃ t, run (2 * n + 1) (outputWord a) = .next t ∧ WordsTaken Z k n rest a t := by
  induction n generalizing a with
  | zero =>
    obtain ⟨hemits, hempty, henough, -, -, -, -, hoffer, hin⟩ := h
    obtain ⟨hemits', hopos, hotot, hrspr⟩ := outputWord_spec hemits hempty
    obtain ⟨hph, -, -, -, hoffer', hin', hrec, -⟩ := outputWord_keeps a
    have hall : a.opos.toNat + min 8 (a.otot.toNat - a.opos.toNat) = a.otot.toNat := by
      have := hemits.opos_le
      omega
    have hlast : rspLast (outputWord a).rspr = true := by
      rw [hrspr, rspLast_responseWord, hall, decide_eq_true rfl]
    refine ⟨_, run_succ 0 (step_takes_last hph (hin'.trans hin) (hoffer'.trans hoffer) hlast), ?_, rfl,
      samePersistent_outputWord a, rfl, emits_of_frame hemits' rfl rfl rfl rfl rfl rfl, hopos.trans hall⟩
    rw [outputWord_wordAt hemits hempty, hrec]
    rfl
  | succ n ih =>
    obtain ⟨hemits, hempty, henough, hneeded, hop, hs, hlevel, hoffer, hin⟩ := h
    obtain ⟨hemits', hopos, hotot, hrspr⟩ := outputWord_spec hemits hempty
    obtain ⟨hph, hcmdr, hstarted, hlevel', hoffer', hin', hrec, hrate⟩ := outputWord_keeps a
    have hmore : a.opos.toNat + 8 * (n + 1) < a.otot.toNat := by omega
    have hmin : min 8 (a.otot.toNat - a.opos.toNat) = 8 := by omega
    have hlast : rspLast (outputWord a).rspr = false := by
      rw [hrspr, rspLast_responseWord, hmin]
      exact decide_eq_false (by omega)
    have hagenda : (outputWord a).inputs =
        .sf SfPins.taking :: .sf SfPins.taking :: (List.replicate (2 * n + 1) (.sf SfPins.taking) ++ rest) :=
      hin'.trans hin
    have htake := step_takes_word hph hagenda (hoffer'.trans hoffer) hlast
    set b : State := { outputWord a with
      inputs := .sf SfPins.taking :: (List.replicate (2 * n + 1) (.sf SfPins.taking) ++ rest),
      received := (outputWord a).received ++ [(outputWord a).rspr], ph := .exec,
      rspr := emptyWord (outputWord a).otot } with hb
    have hbuild := step_builds_word (a := b) (.inl rfl) rfl (holds_of_none (hoffer'.trans hoffer) _) rfl rfl
      ((congrArg cmdOp hcmdr).trans hop) (hstarted.trans hs) (hlevel'.trans hlevel)
    set c : State := { b with
      inputs := List.replicate (2 * n + 1) (.sf SfPins.taking) ++ rest, offer := raised SfPins.taking } with hc
    have hcopos : c.opos.toNat = a.opos.toNat + 8 := by rw [← hmin]; exact hopos
    have hcotot : c.otot = a.otot := hotot
    have hcrate : c.rate = a.rate := hrate
    obtain ⟨t, hrun, htaken⟩ := ih (a := c) {
      emits := emits_of_frame hemits' rfl rfl rfl rfl rfl rfl
      empty := rfl
      enough := by rw [hcopos, hcotot]; omega
      needed := .inr (by rw [hcopos, hcotot]; omega)
      op := (congrArg cmdOp hcmdr).trans hop
      started := hstarted.trans hs
      level := hlevel'.trans hlevel
      offer := rfl
      inputs := rfl }
    refine ⟨t, ?_, ?_, htaken.ph, samePersistent_trans (samePersistent_outputWord a) htaken.same, htaken.inputs,
      htaken.emits, htaken.all.trans (congrArg _ hcotot)⟩
    · exact (run_succ _ htake).trans ((run_succ _ hbuild).trans hrun)
    · have hcrec : c.received = a.received ++ [wordAt a.rate.toNat Z a.otot a.opos.toNat] := by
        rw [← outputWord_wordAt hemits hempty, ← hrec]
      rw [htaken.received, hcrec, hcrate, hcotot, hcopos, List.range_succ_eq_map (n := n + 1), List.append_assoc]
      simp [Function.comp_def, Nat.mul_succ, Nat.add_assoc, Nat.add_comm 8]

/-- The KP computations of a whole output (41_sponge.md R108): one for the padding block and one for each squeezed block
after the first. -/
theorem emits_kpStarts {Z : Lanes} {k : Nat} {t : State} (h : Emits Z k t) :
    t.kpStarts = k + (ceilDiv t.opos.toNat t.rate.toNat - 1) := by
  obtain ⟨hpos, -, hzle, -, m, -, hopos, hstarts, hzero⟩ := h
  have hceil : ceilDiv t.opos.toNat t.rate.toNat - 1 = m := by
    rw [ceilDiv, hopos]
    rcases hzero with rfl | hz
    · have hle : (0 * t.rate.toNat + t.zpos.toNat + t.rate.toNat - 1) / t.rate.toNat < 2 :=
        (Nat.div_lt_iff_lt_mul hpos).2 (by omega)
      omega
    · have hsplit : m * t.rate.toNat + t.zpos.toNat + t.rate.toNat - 1 =
          (t.zpos.toNat - 1) + (m + 1) * t.rate.toNat := by
        rw [Nat.succ_mul]
        omega
      rw [hsplit, Nat.add_mul_div_right _ _ hpos, Nat.div_eq_of_lt (by omega)]
      omega
  rw [hstarts, hceil]

theorem exec_finalize_of_unconfigured {w : Word128} {s : State} (hop : cmdOp w = 0x3) (hs : s.cfgValid = false) :
    exec (decodeCommand w) s = .next (answered 0x00000000000000000000000000001023 s) := by
  rw [decodeCommand_finalize hop, exec_decodeFinalize]
  exact finalizeCommand_of_unconfigured _ _ hs

theorem exec_finalize_of_configured {w : Word128} {s : State} (hop : cmdOp w = 0x3) (hs : s.cfgValid = true) :
    exec (decodeCommand w) s = .next (finalizeTo (outputLength ((cmdN w).getLsbD 0) (cmdLen w) s) s) := by
  rw [decodeCommand_finalize hop, exec_decodeFinalize]
  exact finalizeCommand_of_configured _ _ hs

/-- An output of `wordCount` words has the words it needs and no more. -/
theorem wordCount_covers {total n : Nat} (h : wordCount total = n + 1) :
    total ≤ 8 * (n + 1) ∧ (n = 0 ∨ 8 * n < total) := by
  simp only [wordCount, ceilDiv] at h
  omega

/-- The first EXEC edge of a FINALIZE starts its output, and from there the words are taken and built in turn. -/
theorem run_finalize {s : State} {rest : List Input} {n : Nat} {total : Word32} (hready : Ready s) (hph : s.ph = .exec)
    (hs : s.started = false) (hlevel : s.level = .transaction) (ho : s.offer = none) (hop : cmdOp s.cmdr = 0x3)
    (htotal : outputLength ((cmdN s.cmdr).getLsbD 0) (cmdLen s.cmdr) s = total) (hn : wordCount total.toNat = n + 1)
    (hin : s.inputs = List.replicate (2 * (n + 1)) (.sf SfPins.taking) ++ rest) :
    ∃ t, run (2 * (n + 1)) s = .next t ∧ t.received = s.received ++
        outputWords (digest s.rate.toNat s.suffix s.sponge (stagedTail s) total.toNat) ∧
      t.ph = .idle ∧ SamePersistent s t ∧ t.inputs = rest ∧
      t.kpStarts = s.kpStarts + finalizeCalls s.rate.toNat total.toNat := by
  obtain ⟨hv, hpos, hle, -⟩ := hready
  obtain ⟨henough, hneeded⟩ := wordCount_covers hn
  set a : State := { s with inputs := List.replicate (2 * n + 1) (.sf SfPins.taking) ++ rest, offer := none } with ha
  have hfirst : step s = .next (finalizeTo total a) := by
    have hstep : step s = exec (decodeCommand s.cmdr) a :=
      step_exec_command (.inl hin) rfl (holds_of_none ho _) hph rfl hs hlevel
    rw [hstep, exec_finalize_of_configured (s := a) hop hv, show outputLength _ _ a = total from htotal]
  set b : State := loadZ (kpCall (padInput a) (beginOutput total a)) with hb
  obtain ⟨t, hrun, htaken⟩ := run_words n (a := b) {
    emits := emits_start a (padInput a) total hpos hle
    empty := rfl
    enough := by simpa [hb, kpCall, loadZ, beginOutput] using henough
    needed := by simpa [hb, kpCall, loadZ, beginOutput] using hneeded
    op := hop
    started := rfl
    level := hlevel
    offer := rfl
    inputs := rfl }
  have hsame : SamePersistent s b := ⟨rfl, rfl, rfl, rfl, rfl, rfl, rfl, rfl, rfl⟩
  refine ⟨t, (run_succ _ hfirst).trans hrun, ?_, htaken.ph, samePersistent_trans hsame htaken.same, htaken.inputs, ?_⟩
  · rw [htaken.received, outputWords_digest hpos, hn]
    refine congrArg _ (List.map_congr_left fun j _ => congrArg _ ?_)
    exact Nat.zero_add _
  · obtain ⟨-, -, -, -, -, hrate, -⟩ := htaken.same
    rw [emits_kpStarts htaken.emits, htaken.all, hrate]
    exact Nat.add_assoc s.kpStarts 1 _

/-- Settles O29: with the number of words written n + 1. -/
theorem finalizeTransfersTheDigest : Obligations.FinalizeTransfersTheDigest := by
  unfold Obligations.FinalizeTransfersTheDigest
  refine ⟨fun s w hop hs => exec_finalize_of_unconfigured hop hs, ?_⟩
  intro s rest hready hph hs hlevel ho hop L words hin
  have hpos : 1 ≤ s.rate.toNat := hready.2.1
  obtain ⟨n, hn⟩ : ∃ n, wordCount L = n + 1 := Nat.exists_eq_succ_of_ne_zero (by simp [wordCount])
  have hlength : words.length = n + 1 := by
    rw [← hn]
    exact (congrArg List.length (outputWords_digest hpos s.suffix s.sponge (stagedTail s) _)).trans (by simp [L])
  rw [hlength] at hin ⊢
  exact run_finalize hready hph hs hlevel ho hop rfl hn hin

end Sys2Proof.Machine
end

section
/-! Proof that the cycle level refines the transaction level (43_sponge_fsm.md R139): an EXEC or WAIT_KP edge is a map of
the state that does not read the rule level, the agenda or the raised command, so the work of a command is a chain of such
edges, whatever the agenda. -/

namespace Sys2Proof.Machine

open Sys2Proof.Claims

/-! ### The work of SF does not read the outside -/

/-- `a` at rule level `l`, with raised command `o` and agenda `i`. -/
def State.under (a : State) (l : RuleLevel) (o : Option Word128) (i : List Input) : State :=
  { a with level := l, offer := o, inputs := i }

section
variable (a : State) (l : RuleLevel) (o : Option Word128) (i : List Input)

theorem ite_under (c : Prop) [Decidable c] (a b : State) :
    (if c then a else b).under l o i = if c then a.under l o i else b.under l o i :=
  apply_ite (fun t : State => t.under l o i) c a b

theorem kpRequest_under (A : Lanes) : kpRequest A (a.under l o i) = (kpRequest A a).under l o i := by
  rw [kpRequest, kpRequest, ite_under]
  rfl

theorem stageByte_under (b : Byte) : stageByte (a.under l o i) b = (stageByte a b).under l o i := by
  simp only [stageByte, ite_under]
  rfl

theorem absorbBytes_under (m : List Byte) : absorbBytes m (a.under l o i) = (absorbBytes m a).under l o i := by
  induction m generalizing a with
  | nil => rfl
  | cons b m ih =>
    show absorbBytes m (stageByte (a.under l o i) b) = (absorbBytes m (stageByte a b)).under l o i
    rw [stageByte_under]
    exact ih _

theorem refillZ_under : refillZ (a.under l o i) = (refillZ a).under l o i := by
  rw [refillZ, refillZ, ite_under]
  rfl

theorem emitBytes_under (n : Nat) : emitBytes n (a.under l o i) = (emitBytes n a).under l o i := by
  induction n generalizing a with
  | zero => rfl
  | succ n ih =>
    rw [emitBytes, emitBytes, refillZ_under, ite_under, ← ih]
    rfl

theorem outputWord_under : outputWord (a.under l o i) = (outputWord a).under l o i := by
  rw [outputWord, emitBytes_under]
  rfl

theorem finalizeTo_under (total : Word32) : finalizeTo total (a.under l o i) = (finalizeTo total a).under l o i :=
  outputWord_under (loadZ (kpCall (padInput a) (beginOutput total a))) l o i

theorem absorbEdge_under : absorbEdge (a.under l o i) = (absorbEdge a).under l o i := by
  rw [absorbEdge, absorbEdge, kpRequest_under, ite_under, ite_under]
  rfl

theorem finalizeStart_under : finalizeStart (a.under l o i) = (finalizeStart a).under l o i := by
  rw [finalizeStart, finalizeStart, ite_under, ← kpRequest_under]
  rfl

theorem finalizeEdge_under : finalizeEdge (a.under l o i) = (finalizeEdge a).under l o i := by
  rw [finalizeEdge, finalizeEdge, kpRequest_under, ite_under, ite_under]
  rfl

theorem takeKpResult_under : takeKpResult (a.under l o i) = (takeKpResult a).under l o i := by
  simp only [takeKpResult, ite_under]
  rfl

theorem ruleOf_under (w : Word128) : ruleOf w (a.under l o i) = (ruleOf w a).under l o i := by
  unfold ruleOf
  split_ifs
  · cases presetOf (cmdN w) <;> rfl
  · exact congrArg (respondOk 0x2 _) (absorbBytes_under { a with ipos := 0, started := true } l o i _)
  · exact finalizeTo_under a l o i _
  all_goals rfl

end

theorem exec_under {w : Word128} {a t : State} (h : exec (decodeCommand w) a = .next t) (l : RuleLevel)
    (o : Option Word128) (i : List Input) : exec (decodeCommand w) (a.under l o i) = .next (t.under l o i) := by
  rcases exec_command_cases w a with ⟨e, -, -, he, herror⟩ | ⟨hpass, hok⟩
  · cases h.symm.trans herror
    exact exec_of_error (s := a.under l o i) he
  · cases h.symm.trans hok
    rw [exec_of_ok (s := a.under l o i) hpass, ruleOf_under]

/-! ### Chains of edges -/

/-- An edge that is not stalled and has a round. -/
def usable (p : SfPins) : Bool := !p.stall && decide (0 < p.rounds)

/-- SF's work at an edge with pins `p` at the cycle level, from `a` to `b`, whatever the agenda and the raised command. -/
def EdgeTo (p : SfPins) (a b : State) : Prop := ∀ o i, sfWork p (a.under .cycle o i) = .next (b.under .cycle o i)

/-- However the edges of SF turn out, `b` is reached from `a` in EXEC and WAIT_KP with at most `n` usable edges. -/
def Leads (b : State) : Nat → State → Prop
  | 0, a => a = b
  | n + 1, a => a = b ∨ (a.ph ≠ .idle ∧ ∀ p, ∃ a', EdgeTo p a a' ∧ (Leads b n a' ∨ (a' = a ∧ usable p = false)))

/-- `b` is reached from `a` with a bounded number of usable edges. -/
def Arrives (b a : State) : Prop := ∃ n, Leads b n a

theorem leads_refl (n : Nat) (a : State) : Leads a n a := by
  cases n with
  | zero => rfl
  | succ n => exact .inl rfl

theorem leads_succ {n : Nat} {a b : State} (h : Leads b n a) : Leads b (n + 1) a := by
  induction n generalizing a with
  | zero => exact .inl h
  | succ n ih =>
    refine h.imp_right fun ⟨hph, hedge⟩ => ⟨hph, fun p => ?_⟩
    obtain ⟨a', hwork, hnext⟩ := hedge p
    exact ⟨a', hwork, hnext.imp_left ih⟩

theorem leads_trans {m n : Nat} {a b c : State} (h : Leads b m a) (h' : Leads c n b) : Leads c (n + m) a := by
  induction m generalizing a with
  | zero =>
    cases h
    exact h'
  | succ m ih =>
    rcases h with rfl | ⟨hph, hedge⟩
    · exact leads_succ (ih (leads_refl m a))
    · refine .inr ⟨hph, fun p => ?_⟩
      obtain ⟨a', hwork, hnext⟩ := hedge p
      exact ⟨a', hwork, hnext.imp_left ih⟩

theorem arrives_refl (a : State) : Arrives a a := ⟨0, rfl⟩

theorem arrives_trans {a b c : State} (h : Arrives b a) (h' : Arrives c b) : Arrives c a := by
  obtain ⟨m, hm⟩ := h
  obtain ⟨n, hn⟩ := h'
  exact ⟨n + m, leads_trans hm hn⟩

theorem step_edgeTo {p : SfPins} {a b : State} {o : Option Word128} {rest : List Input} (h : EdgeTo p a b)
    (hph : a.ph ≠ .idle) (hrst : p.rst = false) (hold : Holds o p) :
    step (a.under .cycle o (.sf p :: rest)) = .next (b.under .cycle (raised p) rest) := by
  rw [step_of_sfEdgeNext (s := a.under .cycle o (.sf p :: rest)) (.inl rfl) hrst hold, atEdge,
    offerAfter_of_busy (s := a.under .cycle o (.sf p :: rest)) hph]
  exact h (raised p) rest

theorem filter_usable_cons_le (p : SfPins) (edges : List SfPins) :
    ((p :: edges).filter usable).length ≤ (edges.filter usable).length + 1 := by
  rw [List.filter_cons]
  split <;> simp

/-- Some number of these edges reaches `b` from `a`, with raised command `o`. -/
def ReachedOver (edges : List SfPins) (rest : List Input) (o : Option Word128) (a b : State) : Prop :=
  ∃ m o', m ≤ edges.length ∧ run m (a.under .cycle o (edges.map Input.sf ++ rest)) =
    .next (b.under .cycle o' ((edges.drop m).map Input.sf ++ rest))

theorem reachedOver_refl (edges : List SfPins) (rest : List Input) (o : Option Word128) (a : State) :
    ReachedOver edges rest o a a := ⟨0, o, Nat.zero_le _, rfl⟩

/-- Over any edges without reset, with a host that holds its commands and enough usable edges, `b` is reached. By
induction on the edges. -/
theorem reachedOver_of_leads (edges : List SfPins) (rest : List Input) {n : Nat} {a b : State} {o : Option Word128}
    (h : Leads b n a) (hrst : ∀ p ∈ edges, p.rst = false) (hold : HoldsOver o edges)
    (hn : n ≤ (edges.filter usable).length) : ReachedOver edges rest o a b := by
  induction edges generalizing n a o with
  | nil =>
    obtain rfl : n = 0 := Nat.le_zero.1 hn
    cases h
    exact reachedOver_refl _ _ _ _
  | cons p edges ih =>
    obtain ⟨hp, hedges⟩ := List.forall_mem_cons.1 hrst
    obtain ⟨hheld, hrest⟩ := hold
    match n, h with
    | 0, rfl => exact reachedOver_refl _ _ _ _
    | n + 1, .inl rfl => exact reachedOver_refl _ _ _ _
    | n + 1, .inr ⟨hph, hedge⟩ =>
      obtain ⟨a', hwork, hnext⟩ := hedge p
      have hleads : ∃ n', Leads b n' a' ∧ n' ≤ (edges.filter usable).length := by
        rcases hnext with hleads | ⟨rfl, hunusable⟩
        · have hle := filter_usable_cons_le p edges
          exact ⟨n, hleads, by omega⟩
        · rw [List.filter_cons_of_neg (by simp [hunusable])] at hn
          exact ⟨n + 1, .inr ⟨hph, hedge⟩, hn⟩
      obtain ⟨n', hleads, hn'⟩ := hleads
      obtain ⟨m, o', hm, hrun⟩ := ih hleads hedges hrest hn'
      exact ⟨m + 1, o', Nat.succ_le_succ hm, (run_succ m (step_edgeTo hwork hph hp hheld)).trans hrun⟩

/-! ### EXEC -/

theorem edgeTo_stalls {p : SfPins} {a : State} (hph : a.ph = .exec) (hstall : p.stall = true) : EdgeTo p a a :=
  fun o i => sfWork_of_stall (a := a.under .cycle o i) hph hstall

theorem arrives_exec {a b c : State} (hph : a.ph = .exec) (hwork : ∀ p, p.stall = false → EdgeTo p a b)
    (h : Arrives c b) : Arrives c a := by
  obtain ⟨n, hn⟩ := h
  refine ⟨n + 1, .inr ⟨by simp [hph], fun p => ?_⟩⟩
  rcases Bool.eq_false_or_eq_true p.stall with hstall | hstall
  · exact ⟨a, edgeTo_stalls hph hstall, .inr ⟨rfl, by simp [usable, hstall]⟩⟩
  · exact ⟨b, hwork p hstall, .inl hn⟩

/-- The first edge of a command that is no ABSORB or FINALIZE at work is its meaning. -/
theorem arrives_exec_not_works {a t : State} (hph : a.ph = .exec) (hs : a.started = false) (hworks : ¬Works a)
    (h : exec (decodeCommand a.cmdr) a = .next t) : Arrives t a := by
  refine arrives_exec hph (fun p hstall o i => ?_) (arrives_refl t)
  rw [sfWork_begins (a := a.under .cycle o i) hph hstall hs, beginCommand_of_not_works (a := a.under .cycle o i) hworks]
  exact exec_under h .cycle o i

theorem arrives_beginAbsorb {a c : State} (hph : a.ph = .exec) (hs : a.started = false) (hv : a.cfgValid = true)
    (hop : cmdOp a.cmdr = 0x2) (hn : (cmdN a.cmdr).toNat ≤ 8)
    (h : Arrives c (absorbEdge { a with ipos := 0, started := true })) : Arrives c a := by
  refine arrives_exec hph (fun p hstall o i => ?_) h
  rw [sfWork_begins (a := a.under .cycle o i) hph hstall hs, beginCommand_absorb (a := a.under .cycle o i) rfl hv hop hn,
    ← absorbEdge_under]
  rfl

theorem arrives_beginFinalize {a c : State} (hph : a.ph = .exec) (hs : a.started = false) (hv : a.cfgValid = true)
    (hop : cmdOp a.cmdr = 0x3) (h : Arrives c (finalizeStart a)) : Arrives c a := by
  refine arrives_exec hph (fun p hstall o i => ?_) h
  rw [sfWork_begins (a := a.under .cycle o i) hph hstall hs, beginCommand_finalize (a := a.under .cycle o i) rfl hv hop,
    finalizeStart_under]

theorem arrives_absorbEdge {a c : State} (hph : a.ph = .exec) (hs : a.started = true) (hop : cmdOp a.cmdr = 0x2)
    (h : Arrives c (absorbEdge a)) : Arrives c a := by
  refine arrives_exec hph (fun p hstall o i => ?_) h
  rw [sfWork_continues (a := a.under .cycle o i) hph hstall hs, continueCommand,
    if_pos (show cmdOp (a.under .cycle o i).cmdr = 0x2 from hop), absorbEdge_under]

theorem arrives_finalizeEdge {a c : State} (hph : a.ph = .exec) (hs : a.started = true) (hop : cmdOp a.cmdr = 0x3)
    (h : Arrives c (finalizeEdge a)) : Arrives c a := by
  have h2 : cmdOp a.cmdr ≠ 0x2 := by rw [hop]; decide
  refine arrives_exec hph (fun p hstall o i => ?_) h
  rw [sfWork_continues (a := a.under .cycle o i) hph hstall hs, continueCommand,
    if_neg (show cmdOp (a.under .cycle o i).cmdr ≠ 0x2 from h2), ← finalizeEdge_under]
  rfl

/-! ### WAIT_KP -/

theorem roundEdges_load (A : Lanes) : (Kp.load A).roundEdges 24 = ⟨keccakF A, 0, .done⟩ := by
  rw [roundEdges_spec 24 (Kp.load A) rfl (ok_load A).1, if_pos (by omega), keccakF]
  rfl

theorem edgeTo_rounds {a : State} (p : SfPins) (hph : a.ph = .waitKp) (hrun : a.kp.kph = .run)
    (hk : a.kp.krnd.toNat < 24) : EdgeTo p a { a with kp := a.kp.roundEdges p.rounds } := fun o i =>
  (sfWork_of_waitKp (a := a.under .cycle o i) hph).trans (waitEdge_of_run (a := a.under .cycle o i) p.rounds hrun hk)

theorem edgeTo_takesResult {a : State} (p : SfPins) (hph : a.ph = .waitKp) (hdone : a.kp.kph = .done) :
    EdgeTo p a (takeKpResult a) := fun o i => by
  rw [sfWork_of_waitKp (a := a.under .cycle o i) hph, waitEdge_of_done (a := a.under .cycle o i) p.rounds hdone,
    takeKpResult_under]

theorem leads_takesResult (n : Nat) {a : State} {A : Lanes} (hph : a.ph = .waitKp) (h : a.kp = ⟨A, 0, .done⟩) :
    Leads (takeKpResult { a with kp := ⟨A, 0, .done⟩ }) (n + 1) a := by
  refine .inr ⟨by simp [hph], fun p => ⟨_, edgeTo_takesResult p hph (by rw [h]), .inl ?_⟩⟩
  rw [← h]
  exact leads_refl n _

/-- Each usable edge of WAIT_KP takes at least one of the `r` rounds left, and the edge after them takes the result. -/
theorem leads_waitKp (r : Nat) {a : State} {A : Lanes} (hph : a.ph = .waitKp) (hok : a.kp.Ok)
    (h : a.kp.roundEdges r = ⟨A, 0, .done⟩) : Leads (takeKpResult { a with kp := ⟨A, 0, .done⟩ }) (r + 1) a := by
  induction r generalizing a with
  | zero => exact leads_takesResult 0 hph h
  | succ r ih =>
    by_cases hrun : a.kp.kph = .run
    · refine .inr ⟨by simp [hph], fun p => ⟨_, edgeTo_rounds p hph hrun hok.1, ?_⟩⟩
      cases hn : p.rounds with
      | zero => exact .inr ⟨rfl, by simp [usable, hn]⟩
      | succ n =>
        have hleft : (a.kp.roundEdges (n + 1)).roundEdges r = ⟨A, 0, .done⟩ := by
          rw [← roundEdges_add, show n + 1 + r = r + 1 + n by omega, roundEdges_add, h,
            roundEdges_of_not_run n (by simp)]
        exact .inl (ih (a := { a with kp := a.kp.roundEdges (n + 1) }) hph
          (ok_rounds (n + 1) a.kp hok (by simp [hrun])).1 hleft)
    · rw [roundEdges_of_not_run (r + 1) hrun] at h
      exact leads_takesResult (r + 1) hph h

/-- `a` at the edge at which KP shows its result for `A`, which SF has asked for in `a`. -/
def kpDone (A : Lanes) (a : State) : State :=
  { a with kp := ⟨keccakF A, 0, .done⟩, ph := .waitKp, kpStarts := a.kpStarts + 1 }

theorem arrives_kpResult {a : State} (A : Lanes) (hk : a.kp.kph = .idle) :
    Arrives (takeKpResult (kpDone A a)) (kpRequest A a) := by
  rw [kpRequest, if_pos hk]
  exact ⟨25, leads_waitKp 24 rfl (ok_load A) (roundEdges_load A)⟩

theorem kpCall_of_exec {a : State} (A : Lanes) (hph : a.ph = .exec) :
    kpCall A a = { kpDone A a with kp := (kpDone A a).kp.take, ph := .exec } := by
  rw [← hph]
  rfl

/-- A block of an ABSORB, from its handshake with KP on, is finished as in one step. -/
theorem arrives_finishBlock {a : State} (A : Lanes) (hph : a.ph = .exec) (hk : a.kp.kph = .idle)
    (hop : cmdOp a.cmdr = 0x2) : Arrives (finishBlock (kpCall A a)) (kpRequest A a) := by
  rw [kpCall_of_exec A hph, ← takeKpResult_of_absorb (a := kpDone A a) hop]
  exact arrives_kpResult A hk

/-- A block of a FINALIZE, from its handshake with KP on, reaches Z as in one step. -/
theorem arrives_loadZ {a : State} (A : Lanes) (hph : a.ph = .exec) (hk : a.kp.kph = .idle)
    (hop : cmdOp a.cmdr = 0x3) : Arrives (loadZ (kpCall A a)) (kpRequest A a) := by
  rw [kpCall_of_exec A hph, ← takeKpResult_of_finalize (a := kpDone A a) hop]
  exact arrives_kpResult A hk

/-! ### ABSORB -/

/-- SF is in EXEC of an ABSORB it has begun. -/
structure Absorbs (a : State) : Prop where
  exec : a.ph = .exec
  started : a.started = true
  op : cmdOp a.cmdr = 0x2
  idle : a.kp.kph = .idle
  rate : a.rate ≠ 0

theorem absorbs_stageByte {a : State} (b : Byte) (h : Absorbs a) : Absorbs (stageByte a b) := by
  obtain ⟨hph, hs, hop, hk, hrate⟩ := h
  simp only [stageByte]
  split
  · exact ⟨hph, hs, hop, rfl, hrate⟩
  · exact ⟨hph, hs, hop, hk, hrate⟩

theorem stageByte_not_full {a : State} (b : Byte) (h : a.rate ≠ 0) : (stageByte a b).blen ≠ (stageByte a b).rate := by
  simp only [stageByte]
  split
  · exact h.symm
  · next hfull => exact hfull

/-- An edge stages one byte, and a block it fills is finished before the next EXEC edge. -/
theorem arrives_stageByte {a c : State} (b : Byte) (h : Absorbs a)
    (hnext : Arrives c (absorbEdge (stageByte a b))) : Arrives c (putByte b a) := by
  have hstaged := absorbs_stageByte b h
  have hlater : Arrives c (stageByte a b) := arrives_absorbEdge hstaged.exec hstaged.started hstaged.op hnext
  obtain ⟨hph, hs, hop, hk, -⟩ := h
  by_cases hfull : (putByte b a).blen = (putByte b a).rate
  · rw [show stageByte a b = finishBlock (kpCall (blockInput (putByte b a)) (putByte b a)) from if_pos hfull] at hlater
    refine arrives_absorbEdge (a := putByte b a) hph hs hop ?_
    rw [absorbEdge, if_pos hfull]
    exact arrives_trans (arrives_finishBlock (a := putByte b a) _ hph hk hop) hlater
  · rwa [show stageByte a b = putByte b a from if_neg hfull] at hlater

/-- From the edge that stages the next byte on, the bytes left are absorbed and answered. By induction on their number. -/
theorem arrives_absorb (r : Nat) {a : State} (h : Absorbs a) (hblen : a.blen ≠ a.rate)
    (hr : a.ipos.toNat + r = (cmdN a.cmdr).toNat) :
    Arrives (respondOk 0x2 ((cmdN a.cmdr).setWidth 32)
      (absorbBytes ((List.range' a.ipos.toNat r).map (dataByte (cmdData a.cmdr))) a)) (absorbEdge a) := by
  induction r generalizing a with
  | zero =>
    rw [absorbEdge, if_neg hblen, if_neg (by omega)]
    exact arrives_refl _
  | succ r ih =>
    rw [absorbEdge, if_neg hblen, if_pos (by omega)]
    refine arrives_stageByte _ h ?_
    set b := dataByte (cmdData a.cmdr) a.ipos.toNat with hb
    obtain ⟨sp, bf, bl, kp, n, hframe⟩ := stageByte_frame a b
    have hcmdr : (stageByte a b).cmdr = a.cmdr := by rw [hframe]
    have hipos : (stageByte a b).ipos.toNat = a.ipos.toNat + 1 := by
      have hlt := (cmdN a.cmdr).isLt
      rw [show (stageByte a b).ipos = a.ipos + 1 by rw [hframe], BitVec.toNat_add]
      exact Nat.mod_eq_of_lt (by show a.ipos.toNat + 1 < 2 ^ 4; omega)
    have hrest := ih (absorbs_stageByte b h) (stageByte_not_full b h.rate) (by rw [hipos, hcmdr]; omega)
    rw [hipos, hcmdr] at hrest
    exact hrest

/-! ### FINALIZE -/

/-- SF is in EXEC of a FINALIZE it has begun. -/
structure Finalizes (a : State) : Prop where
  exec : a.ph = .exec
  started : a.started = true
  op : cmdOp a.cmdr = 0x3
  idle : a.kp.kph = .idle
  rate : a.rate ≠ 0

theorem finalizes_refillZ {a : State} (h : Finalizes a) : Finalizes (refillZ a) := by
  obtain ⟨hph, hs, hop, hk, hrate⟩ := h
  unfold refillZ
  split
  · exact ⟨hph, hs, hop, rfl, hrate⟩
  · exact ⟨hph, hs, hop, hk, hrate⟩

theorem rspNb_emitByte_refillZ (a : State) : rspNb (emitByte (refillZ a)).rspr = rspNb a.rspr + 1 := by
  unfold refillZ
  split <;> exact rspNb_responseWord _ _ _ _ _ _

/-- The padding block reaches Z as in one step. -/
theorem arrives_finalizeStart {a : State} (hph : a.ph = .exec) (hop : cmdOp a.cmdr = 0x3) (hk : a.kp.kph = .idle) :
    Arrives (loadZ (kpCall (padInput a)
      (beginOutput (outputLength ((cmdN a.cmdr).getLsbD 0) (cmdLen a.cmdr) a) a))) (finalizeStart a) := by
  rw [finalizeStart, if_pos hk]
  exact arrives_loadZ (a := beginOutput _ a) (padInput a) hph hk hop

theorem arrives_emitByte {a : State} (h : Finalizes a) (hmore : ¬(a.opos = a.otot ∨ rspNb a.rspr = 8))
    (hz : a.zpos ≠ a.rate) : Arrives (emitByte a) a := by
  refine arrives_finalizeEdge h.exec h.started h.op ?_
  rw [finalizeEdge, if_neg hmore, if_neg hz]
  exact arrives_refl _

/-- A byte of the word, with the squeeze it may need first, is emitted as in one step. -/
theorem arrives_emitByte_refillZ {a : State} (h : Finalizes a) (hmore : ¬(a.opos = a.otot ∨ rspNb a.rspr = 8)) :
    Arrives (emitByte (refillZ a)) a := by
  by_cases hz : a.zpos = a.rate
  · have hrefill : refillZ a = loadZ (kpCall a.z a) := if_pos hz
    have hloaded : Arrives (refillZ a) a := by
      rw [hrefill]
      refine arrives_finalizeEdge h.exec h.started h.op ?_
      rw [finalizeEdge, if_neg hmore, if_pos hz]
      exact arrives_loadZ a.z h.exec h.idle h.op
    refine arrives_trans hloaded (arrives_emitByte (finalizes_refillZ h) ?_ ?_) <;> rw [hrefill]
    · exact hmore
    · exact h.rate.symm
  · rw [show refillZ a = a from if_neg hz]
    exact arrives_emitByte h hmore hz

theorem arrives_presentOutput {a : State} (h : Finalizes a) (hend : a.opos = a.otot ∨ rspNb a.rspr = 8) :
    Arrives (presentOutput a) a := by
  refine arrives_finalizeEdge h.exec h.started h.op ?_
  rw [finalizeEdge, if_pos hend]
  exact arrives_refl _

/-- A word with room for `r` more bytes is built and presented as in one step. By induction on the room. -/
theorem arrives_emitBytes (r : Nat) {a : State} (h : Finalizes a) (hr : (rspNb a.rspr).toNat + r = 8) :
    Arrives (presentOutput (emitBytes r a)) a := by
  induction r generalizing a with
  | zero => exact arrives_presentOutput h (.inr (BitVec.eq_of_toNat_eq hr))
  | succ r ih =>
    rw [emitBytes]
    split
    · next hend => exact arrives_presentOutput h (.inl hend)
    · next hend =>
      have hroom : rspNb a.rspr ≠ 8 := by
        intro h8
        rw [h8] at hr
        have : (8 : Nibble).toNat = 8 := rfl
        omega
      refine arrives_trans (arrives_emitByte_refillZ h (not_or.2 ⟨hend, hroom⟩)) (ih ?_ ?_)
      · obtain ⟨hph, hs, hop, hk, hrate⟩ := finalizes_refillZ h
        exact ⟨hph, hs, hop, hk, hrate⟩
      · have hnb : (rspNb a.rspr + 1).toNat = (rspNb a.rspr).toNat + 1 := by
          rw [BitVec.toNat_add]
          exact Nat.mod_eq_of_lt (by show (rspNb a.rspr).toNat + 1 < 2 ^ 4; omega)
        rw [rspNb_emitByte_refillZ, hnb]
        omega

theorem arrives_outputWord {a : State} (h : Finalizes a) (hw : a.rspr = emptyWord a.otot) :
    Arrives (outputWord a) a :=
  arrives_emitBytes 8 h (by simp [hw, emptyWord])

/-! ### A command and a further word -/

theorem rate_ne_zero {a : State} (h : a.Inv) (hv : a.cfgValid = true) : a.rate ≠ 0 := by
  obtain ⟨hpos, -⟩ := configOk_rate a h.config hv
  rintro hzero
  rw [hzero] at hpos
  exact absurd hpos (by decide)

theorem exec_absorb {a : State} (hv : a.cfgValid = true) (hop : cmdOp a.cmdr = 0x2) (hn : (cmdN a.cmdr).toNat ≤ 8) :
    exec (decodeCommand a.cmdr) a = .next (respondOk 0x2 ((cmdN a.cmdr).setWidth 32)
      (absorbBytes (messageBytes (cmdN a.cmdr).toNat (cmdData a.cmdr)) { a with ipos := 0, started := true })) := by
  have hpass : firstError a.cfgValid (cmdOp a.cmdr) (cmdN a.cmdr) (cmdRate a.cmdr) (cmdSufx a.cmdr) = none := by
    rw [hv, hop, firstError_absorb, if_neg (Nat.not_lt_of_le hn)]
  rw [exec_of_ok hpass, ruleOf, if_neg (by rw [hop]; decide), if_pos hop]

/-- A command ends in the state its meaning gives. -/
theorem arrives_exec_command {a t : State} (h : a.Inv) (hph : a.ph = .exec) (hs : a.started = false)
    (hexec : exec (decodeCommand a.cmdr) a = .next t) : Arrives t a := by
  by_cases hworks : Works a
  · have hk := idle_of_exec a h hph
    obtain ⟨hv, hop⟩ := hworks
    have hrate := rate_ne_zero h hv
    rcases hop with ⟨hop, hn⟩ | hop
    · cases hexec.symm.trans (exec_absorb hv hop hn)
      have hroom : a.blen ≠ a.rate := by
        obtain ⟨-, -, -, hlt⟩ := inv_ready a h hv (not_absorbing_of_not_started hs)
        exact fun heq => absurd hlt (by rw [heq]; exact lt_irrefl _)
      rw [messageBytes, List.range_eq_range']
      exact arrives_beginAbsorb hph hs hv hop hn (arrives_absorb (cmdN a.cmdr).toNat
        (a := { a with ipos := 0, started := true }) ⟨hph, rfl, hop, hk, hrate⟩ hroom (Nat.zero_add _))
    · cases hexec.symm.trans (exec_finalize_of_configured hop hv)
      refine arrives_beginFinalize hph hs hv hop (arrives_trans (arrives_finalizeStart hph hop hk) ?_)
      exact arrives_outputWord ⟨hph, rfl, hop, rfl, hrate⟩ rfl
  · exact arrives_exec_not_works hph hs hworks hexec

/-- One step of the transaction level, from a command or a further word that has not begun, leads at the cycle level to
the same state. -/
theorem arrives_transaction {s u : State} (h : s.Inv) (hph : s.ph = .exec)
    (hmore : s.started = true → cmdOp s.cmdr = 0x3 ∧ s.rspr = emptyWord s.otot)
    (hu : step (s.under .transaction none [.sf SfPins.quiet]) = .next u) :
    ∃ t, u = t.under .transaction none [] ∧ Arrives t s := by
  set a := s.under .transaction none [.sf SfPins.quiet] with ha
  have hhost : Holds a.offer SfPins.quiet := holds_of_none rfl _
  rcases Bool.eq_false_or_eq_true s.started with hs | hs
  · obtain ⟨hop, hw⟩ := hmore hs
    obtain ⟨hv, -⟩ := h.phase.2.2.1 (.inl hph) hs
    have hstep : step a = .next (outputWord (s.under .transaction none [])) :=
      step_builds_word (a := a) (p := SfPins.quiet) (rest := []) (.inl rfl) rfl hhost hph rfl hop hs rfl
    exact ⟨outputWord s, (Host.Outcome.next.inj (hu.symm.trans hstep)).trans (outputWord_under s _ _ _),
      arrives_outputWord ⟨hph, hs, hop, idle_of_exec s h hph, rate_ne_zero h hv⟩ hw⟩
  · obtain ⟨t, ht⟩ := exec_command_next s.cmdr s
    have hstep : step a = exec (decodeCommand s.cmdr) (s.under .transaction none []) :=
      step_exec_command (s := a) (p := SfPins.quiet) (rest := []) (.inl rfl) rfl hhost hph rfl hs rfl
    exact ⟨t, Host.Outcome.next.inj (hu.symm.trans (hstep.trans (exec_under ht _ _ _))), arrives_exec_command h hph hs ht⟩

/-- Settles O60: the chain of edges that leads to the state of the transaction step, over the agenda. -/
theorem cycleLevelRefinesTransactionLevel : Obligations.CycleLevelRefinesTransactionLevel := by
  unfold Obligations.CycleLevelRefinesTransactionLevel
  intro s u h hph hlevel hmore hu
  obtain ⟨t, rfl, n, hleads⟩ := arrives_transaction h hph hmore hu
  refine ⟨n, fun edges rest hrst hold hn => ?_⟩
  have hstart : s.under .cycle s.offer (edges.map Input.sf ++ rest) =
      { s with inputs := edges.map Input.sf ++ rest } := by
    rw [← hlevel]
    rfl
  rw [← hstart]
  exact reachedOver_of_leads (b := t) edges rest hleads hrst hold hn

end Sys2Proof.Machine
end
